-- ==== Sys2Proof/Word.lean ====
section
/-! DEFINITION. The machine's words: a 32-bit word (R9), a transport byte (R109), the binary32 value type `F` of the
default numerics (R16, R70), and the two channel lanes (R6 `NCH = 2`). -/

namespace Sys2Proof

/-- A command, operand or result word: 32 bits, bit 0 the least significant (R9, R101). -/
abbrev Word := BitVec 32

/-- A byte of the host transport (R109).  Nothing inside the block is a byte (R75). -/
abbrev Byte := BitVec 8

/-- The value type `F` of the default `Num` instance: an IEEE 754 binary32 bit pattern (R15, R16, R107). -/
abbrev F := BitVec 32

/-- The identifier of a micro-operation, `(u[3:0], c)` (R112). -/
abbrev MicroId := BitVec 5

/-- The two modulated channel lanes `c` (R6 `NCH = 2`, R249). -/
inductive Lane where
  | lane0
  | lane1
  deriving DecidableEq, Repr

/-- The lane number as the lane bit of a micro-operation identifier (R112). -/
def Lane.toBit : Lane → BitVec 1
  | .lane0 => 0
  | .lane1 => 1

/-- One value for each lane. -/
structure PerLane (α : Type) where
  l0 : α
  l1 : α
  deriving DecidableEq, Repr

/-- The value of one lane. -/
def PerLane.get {α : Type} (p : PerLane α) : Lane → α
  | .lane0 => p.l0
  | .lane1 => p.l1

/-- Replace the value of one lane. -/
def PerLane.set {α : Type} (p : PerLane α) (c : Lane) (a : α) : PerLane α :=
  match c with
  | .lane0 => { p with l0 := a }
  | .lane1 => { p with l1 := a }

end Sys2Proof
end

