-- ==== Sys2Proof/Syntax.lean ====
section
/-! DEFINITION. The instructions: the four host commands as the records of R100, and the ten micro-operations of R112.
One constructor per row of the opcode table. -/

namespace Sys2Proof

/-- The commands a host issues (R100) and the micro-operations a STEP is made of (R112). -/
inductive Instr where
  /-- `PREPARE sampleRate, maxBlockSize` (R102, R242). -/
  | prepare (sampleRate : F) (maxBlockSize : Word)
  /-- `RESET` (R103, R244). -/
  | reset
  /-- `LOADP` with the seven fields of a snapshot (R104, R246). -/
  | loadp (triggered : Bool) (onsetMs rateHz pitchCents amplitudePct formantPct variationPct : F)
  /-- `STEP` with the input frame, one sample per channel; `nch` is its length (R105, R248). -/
  | step (frame : List F)
  /-- Envelope smoother (R131). -/
  | env
  /-- Variation generator (R141). -/
  | var
  /-- LFO (R156). -/
  | lfo
  /-- Delay length (R171). -/
  | dmod
  /-- Formant coefficient refresh (R201). -/
  | fcoef
  /-- Delay write of a lane (R175). -/
  | dwr (c : Lane)
  /-- Interpolated delay read of a lane (R177). -/
  | drd (c : Lane)
  /-- Formant mix of a lane (R205). -/
  | fmix (c : Lane)
  /-- Tremolo of a lane (R231). -/
  | trem (c : Lane)
  /-- Write index advance (R181). -/
  | wadv
  deriving DecidableEq, Repr

/-- Is this a host command (R100), or a micro-operation, which the host cannot issue (R112)? -/
def Instr.isCommand : Instr → Bool
  | .prepare _ _ => true
  | .reset => true
  | .loadp _ _ _ _ _ _ _ => true
  | .step _ => true
  | .env => false
  | .var => false
  | .lfo => false
  | .dmod => false
  | .fcoef => false
  | .dwr _ => false
  | .drd _ => false
  | .fmix _ => false
  | .trem _ => false
  | .wadv => false

/-- The lanes of a frame of `nch` samples, lane 0 first; `none` where `nch` is not 1 or 2 (R105, R249). -/
def lanesOfCount : Nat → Option (List Lane)
  | 1 => some [.lane0]
  | 2 => some [.lane0, .lane1]
  | _ => none

/-- The four micro-operations of one lane, in order (R250). -/
def laneSlots (c : Lane) : List Instr := [.dwr c, .drd c, .fmix c, .trem c]

/-- The schedule of one STEP over the given lanes (R250). -/
def schedule (lanes : List Lane) : List Instr :=
  [.env, .var, .lfo, .dmod, .fcoef] ++ (lanes.map laneSlots).flatten ++ [.wadv]

end Sys2Proof
end

