-- ==== Sys2Proof/WellFormed.lean ====
section
/-! DEFINITION. Which instructions an encoding can denote. -/

namespace Sys2Proof

/-- `nch` is 1 or 2 (R105, R110).  No other operand is restricted here: an operand value outside its range decodes
without complaint (R108). -/
def frameOk (frame : List F) : Bool := frame.length == 1 || frame.length == 2

/-- An instruction some encoding of R102 to R105 or R112 denotes. -/
def Instr.wellFormed : Instr → Bool
  | .prepare _ _ => true
  | .reset => true
  | .loadp _ _ _ _ _ _ _ => true
  | .step frame => frameOk frame
  | .env => true
  | .var => true
  | .lfo => true
  | .dmod => true
  | .fcoef => true
  | .dwr _ => true
  | .drd _ => true
  | .fmix _ => true
  | .trem _ => true
  | .wadv => true

end Sys2Proof
end

