-- ==== Sys2Proof/Decode.lean ====
section
/-! DEFINITION. Decoding and encoding of commands (R101 to R110) and of micro-operation identifiers (R112). -/

namespace Sys2Proof

/-! ### Words and bytes (R109) -/

/-- The word of four bytes, byte 0 the least significant (R109). -/
def wordOfBytes (b0 b1 b2 b3 : Byte) : Word := b3 ++ b2 ++ b1 ++ b0

/-- The four bytes of a word, little-endian: byte 0 is `W[7:0]` (R109). -/
def bytesOfWord (w : Word) : List Byte :=
  [w.extractLsb' 0 8, w.extractLsb' 8 8, w.extractLsb' 16 8, w.extractLsb' 24 8]

def bytesOfWords (ws : List Word) : List Byte := (ws.map bytesOfWord).flatten

/-- Take `n` words off a byte stream; `none` where fewer have arrived. -/
def takeWords : Nat → List Byte → Option (List Word × List Byte)
  | 0, bs => some ([], bs)
  | n + 1, b0 :: b1 :: b2 :: b3 :: bs =>
    match takeWords n bs with
    | some (ws, rest) => some (wordOfBytes b0 b1 b2 b3 :: ws, rest)
    | none => none
  | _ + 1, _ => none

/-! ### Command words (R101 to R106, R110) -/

/-- The opcode field `cw[31:24]` (R101). -/
def opcodeOf (cw : Word) : BitVec 8 := cw.extractLsb' 24 8

/-- The argument field `cw[23:0]` (R101). -/
def argOf (cw : Word) : BitVec 24 := cw.extractLsb' 0 24

/-- What a legal command word says, before its operands. -/
inductive Head where
  | prepare
  | reset
  | loadp (triggered : Bool)
  | step (nch : Nat)
  deriving DecidableEq, Repr

/-- The six legal command words; every other word is reserved (R110). -/
def headOf (cw : Word) : Option Head :=
  if opcodeOf cw = 0x01 then (if argOf cw = 0 then some .prepare else none)
  else if opcodeOf cw = 0x02 then (if argOf cw = 0 then some .reset else none)
  else if opcodeOf cw = 0x03 then
    (if argOf cw = 0 then some (.loadp false) else if argOf cw = 1 then some (.loadp true) else none)
  else if opcodeOf cw = 0x04 then
    (if argOf cw = 1 then some (.step 1) else if argOf cw = 2 then some (.step 2) else none)
  else none

/-- The number of operand words (R106). -/
def Head.operands : Head → Nat
  | .prepare => 2
  | .reset => 0
  | .loadp _ => 6
  | .step nch => nch

/-- The command of a head and its operand words (R102 to R105). -/
def Head.build : Head → List Word → Option Instr
  | .prepare, [w1, w2] => some (.prepare w1 w2)
  | .reset, [] => some .reset
  | .loadp t, [w1, w2, w3, w4, w5, w6] => some (.loadp t w1 w2 w3 w4 w5 w6)
  | .step 1, [w1] => some (.step [w1])
  | .step 2, [w1, w2] => some (.step [w1, w2])
  | _, _ => none

/-- What a byte stream holds at its front. -/
inductive Decoded where
  /-- A command, and the bytes after it. -/
  | command (i : Instr) (rest : List Byte)
  /-- The words of a command have not all arrived. -/
  | incomplete
  /-- A reserved command word (R110). -/
  | reserved (cw : Word)
  deriving DecidableEq, Repr

/-- Decode the command at the front of a byte stream (R101, R109).  The length is known after the command word
(R106). -/
def decode (bs : List Byte) : Decoded :=
  match takeWords 1 bs with
  | some ([cw], bs1) =>
    match headOf cw with
    | none => .reserved cw
    | some h =>
      match takeWords h.operands bs1 with
      | none => .incomplete
      | some (ws, rest) =>
        match h.build ws with
        | some i => .command i rest
        | none => .reserved cw
  | _ => .incomplete

/-! ### Micro-operation identifiers (R112) -/

/-- The lane bit of an identifier. -/
def laneOfBit (b : BitVec 1) : Lane := if b = 0 then .lane0 else .lane1

/-- The micro-operation of an identifier `(u[3:0], c)`; `none` where it names nothing: `u` from 10 to 15, or a shared
kind with `c = 1` (R112). -/
def decodeMicro (id : MicroId) : Option Instr :=
  let u : BitVec 4 := id.extractLsb' 1 4
  let c : BitVec 1 := id.extractLsb' 0 1
  if u = 5 then some (.dwr (laneOfBit c))
  else if u = 6 then some (.drd (laneOfBit c))
  else if u = 7 then some (.fmix (laneOfBit c))
  else if u = 8 then some (.trem (laneOfBit c))
  else if c = 1 then none
  else if u = 0 then some .env
  else if u = 1 then some .var
  else if u = 2 then some .lfo
  else if u = 3 then some .dmod
  else if u = 4 then some .fcoef
  else if u = 9 then some .wadv
  else none

/-! ### Encoding -/

/-- The command word of a frame of `nch` samples (R105). -/
def stepWord (nch : Nat) : Word := 0x04000000 ||| BitVec.ofNat 32 nch

/-- The words of a command (R102 to R105); `none` for a micro-operation, which has no command encoding (R112). -/
def encodeWords : Instr → Option (List Word)
  | .prepare sr mbs => some [0x01000000, sr, mbs]
  | .reset => some [0x02000000]
  | .loadp t w1 w2 w3 w4 w5 w6 => some [if t then 0x03000001 else 0x03000000, w1, w2, w3, w4, w5, w6]
  | .step frame => some (stepWord frame.length :: frame)
  | .env => none
  | .var => none
  | .lfo => none
  | .dmod => none
  | .fcoef => none
  | .dwr _ => none
  | .drd _ => none
  | .fmix _ => none
  | .trem _ => none
  | .wadv => none

/-- The bytes a host sends for a command (R109). -/
def encode (i : Instr) : Option (List Byte) := (encodeWords i).map bytesOfWords

/-- An identifier from its kind `u` and its lane bit (R112). -/
def microIdOf (u : BitVec 4) (c : BitVec 1) : MicroId := u ++ c

/-- The identifier of a micro-operation (R112); `none` for a host command. -/
def encodeMicro : Instr → Option MicroId
  | .prepare _ _ => none
  | .reset => none
  | .loadp _ _ _ _ _ _ _ => none
  | .step _ => none
  | .env => some (microIdOf 0 0)
  | .var => some (microIdOf 1 0)
  | .lfo => some (microIdOf 2 0)
  | .dmod => some (microIdOf 3 0)
  | .fcoef => some (microIdOf 4 0)
  | .dwr c => some (microIdOf 5 c.toBit)
  | .drd c => some (microIdOf 6 c.toBit)
  | .fmix c => some (microIdOf 7 c.toBit)
  | .trem c => some (microIdOf 8 c.toBit)
  | .wadv => some (microIdOf 9 0)

/-! ### The opcode table's numbering -/

/-- `n` bytes of a number, the least significant first. -/
def bytesOfNat : Nat → Nat → List Byte
  | 0, _ => []
  | n + 1, w => BitVec.ofNat 8 w :: bytesOfNat n (w / 256)

/-- The longest command is LOADP, 7 words (R106). -/
def longestBytes : Nat := 28

/-- Is a table row of this many bits a micro-operation identifier (5 bits, one byte), not a command word? -/
def isMicroWidth (nbits : Nat) : Bool := nbits ≤ 8

/-- The bytes of an instruction whose bits are `w`, zero above. -/
def tableBytes (w : Nat) : List Byte := bytesOfNat longestBytes w

/-- The instruction the decoder reads from an instruction whose bits are `w`, numbered as the opcode table numbers
them. -/
def decodeTableWord (nbits w : Nat) : Option Instr :=
  if isMicroWidth nbits then
    (if w < 32 then decodeMicro (BitVec.ofNat 5 w) else none)
  else
    match decode (tableBytes w) with
    | .command i _ => some i
    | .incomplete => none
    | .reserved _ => none

end Sys2Proof
end

