-- ==== Sys2Proof/Machine/Float.lean ====
section
/-! DEFINITION. The IEEE 754 binary32 format (R16, R107): fields of a pattern, the exact value of a finite pattern, the
order (R15, R20, R23), and the one rounding every operation uses, to nearest with ties to even (R16, R19).

A finite pattern denotes an integer multiple of `2^-149`, so its exact value is held as that integer (`f32Val`), and an
exact result is a rational number of units of `2^-149`; `f32Round` rounds it once. -/

namespace Sys2Proof.Machine

/-- The magnitude pattern `W[30:0]`: exponent and fraction (R107). -/
def f32Code (x : F) : Nat := x.toNat % 2 ^ 31

/-- The sign bit `W[31]` (R107). -/
def f32Sign (x : F) : Bool := decide (2 ^ 31 ≤ x.toNat)

/-- The magnitude pattern of infinity. -/
def f32InfCode : Nat := 0x7F800000

def f32IsNaN (x : F) : Bool := decide (f32InfCode < f32Code x)

def f32IsInf (x : F) : Bool := decide (f32Code x = f32InfCode)

/-- Neither an infinity nor a NaN; subnormals and both zeros are finite (R108). -/
def f32Finite (x : F) : Bool := decide (f32Code x < f32InfCode)

def f32IsZero (x : F) : Bool := decide (f32Code x = 0)

/-- The magnitude a finite magnitude pattern denotes, in units of `2^-149`: the fraction itself where the exponent
field is 0 (subnormals are kept, R16), else the fraction with its hidden bit, scaled. -/
def f32CodeMag (code : Nat) : Nat :=
  if code / 2 ^ 23 = 0 then code % 2 ^ 23
  else (code % 2 ^ 23 + 2 ^ 23) * 2 ^ (code / 2 ^ 23 - 1)

def f32Mag (x : F) : Nat := f32CodeMag (f32Code x)

/-- The exact value of a finite pattern, in units of `2^-149`. -/
def f32Val (x : F) : Int := if f32Sign x then -(f32Mag x : Int) else (f32Mag x : Int)

/-- A pattern's place in the order of the numbers; `-0` and `+0` share one (R23), the infinities are the ends. -/
def f32Ord (x : F) : Int := if f32Sign x then -(f32Code x : Int) else (f32Code x : Int)

/-- `a < b`; false where an operand is a NaN (R20). -/
def f32Lt (a b : F) : Bool := !f32IsNaN a && !f32IsNaN b && decide (f32Ord a < f32Ord b)

/-- `a <= b`; false where an operand is a NaN. -/
def f32Le (a b : F) : Bool := !f32IsNaN a && !f32IsNaN b && decide (f32Ord a ≤ f32Ord b)

/-- `a = b` as numbers: `-0 = +0` (R23); false where an operand is a NaN. -/
def f32Eq (a b : F) : Bool := !f32IsNaN a && !f32IsNaN b && decide (f32Ord a = f32Ord b)

/-- The pattern of a sign and a magnitude pattern (R107). -/
def f32Make (neg : Bool) (code : Nat) : F := BitVec.ofNat 32 (code + if neg then 2 ^ 31 else 0)

def f32PosInf : F := f32Make false f32InfCode

/-- `n / d` rounded to the nearest integer, ties to even (R16). -/
def rneDiv (n d : Nat) : Nat :=
  if 2 * (n % d) < d then n / d
  else if d < 2 * (n % d) then n / d + 1
  else n / d + n / d % 2

/-- The magnitude pattern nearest to `n / d` units of `2^-149`, before the check for overflow.  The exponent is chosen
so that the significand has 24 bits (or the spacing is the least one, for the subnormals), and a carry out of the
significand runs into the exponent field by itself. -/
def f32RoundCode (n d : Nat) : Nat :=
  (Nat.log2 (n / d) - 23) * 2 ^ 23 + rneDiv n (d * 2 ^ (Nat.log2 (n / d) - 23))

/-- The value `n / d` units of `2^-149`, negated where `neg`, rounded once to nearest, ties to even; overflow gives an
infinity (R16). -/
def f32Round (neg : Bool) (n d : Nat) : F := f32Make neg (min (f32RoundCode n d) f32InfCode)

/-- The `F` value nearest to the rational `p / q` (R19). -/
def f32OfRat (p : Int) (q : Nat) : F := f32Round (decide (p < 0)) (p.natAbs * 2 ^ 149) q

end Sys2Proof.Machine
end

