-- ==== Sys2Proof/Config.lean ====
section
/-! DEFINITION. What an implementation fixes: the structural constants (R6), the literals (R7, R19), the interface `Num`
of the numerics (R15), the open parameters a model takes as arguments (R8), the named properties of the three
transcendental functions (R22), and the free values, which are opaque constants. -/

namespace Sys2Proof

/-! ### Structural constants (R6) -/

/-- `BUF_SIZE`: words in each channel's delay buffer. -/
def bufSize : Nat := 4096

/-- `FCOEF_PERIOD`: STEPs between two coefficient refreshes. -/
def fcoefPeriod : Int := 32

/-- The default seed of the variation source (R146). -/
def rngSeed : BitVec 32 := 0x12345678

/-! ### Literals (R7, R19) -/

/-- Every numeric literal the rules use. -/
inductive Lit where
  | zero | one | negOne | two | half | oneAndHalf | twoAndHalf | hundred
  /-- 1000 milliseconds per second (R47). -/
  | msPerSec
  /-- 0.015 release seconds (R48). -/
  | releaseSec
  /-- 0.04 variation period seconds (R49). -/
  | varSec
  /-- 0.002 variation smoothing coefficient (R141). -/
  | varCoef
  /-- 0.25 rate modulation depth (R156). -/
  | rateDepth
  /-- 0.01 Hz rate floor (R156). -/
  | rateFloor
  /-- 0.15 skew depth and pitch-depth modulation (R156, R171). -/
  | skew
  /-- 1200 cents per octave (R171). -/
  | centsPerOctave
  /-- 1024 samples, `BASE_DELAY` (R171). -/
  | baseDelay
  /-- 4092 samples, `DELAY_MAX` (R171). -/
  | delayMax
  /-- 4096, `BUF_SIZE` as a value (R177). -/
  | bufSizeF
  /-- 0.4 formant frequency modulation depth (R201). -/
  | formantDepth
  /-- 0.3 frequency multiplier floor (R201). -/
  | freqFloor
  /-- 600, 1500, 2800 Hz, `BASE_FREQ` (R201). -/
  | freq0 | freq1 | freq2
  /-- 80 Hz lower cutoff clamp (R201). -/
  | cutoffMin
  /-- 0.48 upper cutoff clamp as a fraction of the sample rate (R201). -/
  | cutoffFrac
  /-- 2.0, `FORMANT_Q` (R201). -/
  | formantQ
  /-- 0.001 envelope gate threshold (R205). -/
  | gate
  /-- 0.8 formant mix gain (R205). -/
  | mix
  /-- π rounded once. -/
  | pi
  /-- 2π rounded once. -/
  | twoPi
  /-- Bounds of the legal parameter ranges (R41). -/
  | onsetMin | onsetMax | rateMax | pitchMax
  /-- 8388608, the divisor of the default generator (R146). -/
  | rngScale
  /-- Defaults of `SR_MIN`, `SR_MAX` (R8). -/
  | srMin | srMax
  deriving DecidableEq, Repr

/-- The decimal a literal is written as in the rules, as numerator and denominator; `none` for π and 2π. -/
def Lit.decimal : Lit → Option (Int × Nat)
  | .zero => some (0, 1)
  | .one => some (1, 1)
  | .negOne => some (-1, 1)
  | .two => some (2, 1)
  | .half => some (5, 10)
  | .oneAndHalf => some (15, 10)
  | .twoAndHalf => some (25, 10)
  | .hundred => some (100, 1)
  | .msPerSec => some (1000, 1)
  | .releaseSec => some (15, 1000)
  | .varSec => some (4, 100)
  | .varCoef => some (2, 1000)
  | .rateDepth => some (25, 100)
  | .rateFloor => some (1, 100)
  | .skew => some (15, 100)
  | .centsPerOctave => some (1200, 1)
  | .baseDelay => some (1024, 1)
  | .delayMax => some (4092, 1)
  | .bufSizeF => some (4096, 1)
  | .formantDepth => some (4, 10)
  | .freqFloor => some (3, 10)
  | .freq0 => some (600, 1)
  | .freq1 => some (1500, 1)
  | .freq2 => some (2800, 1)
  | .cutoffMin => some (80, 1)
  | .cutoffFrac => some (48, 100)
  | .formantQ => some (2, 1)
  | .gate => some (1, 1000)
  | .mix => some (8, 10)
  | .pi => none
  | .twoPi => none
  | .onsetMin => some (10, 1)
  | .onsetMax => some (2000, 1)
  | .rateMax => some (15, 1)
  | .pitchMax => some (200, 1)
  | .rngScale => some (8388608, 1)
  | .srMin => some (8000, 1)
  | .srMax => some (384000, 1)

/-! ### The numerics interface (R15) -/

/-- `Num`: the value type's constants, four operations, order relations, conversions and transcendental functions.
`a > b` is `lt b a` and `a >= b` is `le b a`; `finite` is the predicate of R108, true of every value of an instance
without infinities. -/
structure Num (α : Type) where
  lit : Lit → α
  add : α → α → α
  sub : α → α → α
  mul : α → α → α
  div : α → α → α
  lt : α → α → Bool
  le : α → α → Bool
  eq : α → α → Bool
  ofInt : Int → α
  floorInt : α → Int
  truncInt : α → Int
  sin : α → α
  tan : α → α
  exp2 : α → α
  finite : α → Bool

/-- `Rng`: the variation source (R145): a state type `σ`, a seed, and a total function giving the next state and a
draw. -/
structure Rng (α σ : Type) where
  seed : σ
  next : σ → σ × α

/-- What R145 asks of a source: every draw lies in `[-1, 1]`. -/
def Rng.Lawful {α σ : Type} (N : Num α) (R : Rng α σ) : Prop :=
  ∀ s, N.le (N.lit .negOne) (R.next s).2 = true ∧ N.le (R.next s).2 (N.lit .one) = true

/-- The open parameters a model takes as arguments (R8): `α` is the value type `F` of `num` (R15), `σ` the state type of
`rng` (R145). -/
structure OpenParams (α σ : Type) where
  num : Num α
  rng : Rng α σ
  /-- `RESET_RESEEDS_RNG` (R149). -/
  resetReseedsRng : Bool
  /-- `SR_MIN` (R42). -/
  srMin : α
  /-- `SR_MAX` (R42). -/
  srMax : α
  /-- The model's own: how many turns the phase wrap of LFO (R156) may take from a phase.  `num` decides which phases
  come below 1 and in how many turns, so the bound comes with it.  DEDUCED, safe (log entry 11). -/
  wrapTurns : α → Nat

/-- What a model may assume of the open parameters beside the named properties of R22. -/
structure OpenParams.Lawful {α σ : Type} (O : OpenParams α σ) : Prop where
  draws : O.rng.Lawful O.num
  /-- The rates PREPARE admits are between two bounds (R42). -/
  rates : O.num.le O.srMin O.srMax = true

/-! ### Free values -/

/-- The four operations whose invalid uses give a NaN (R16). -/
inductive NumOp where
  | add | sub | mul | div
  deriving DecidableEq, Repr

/-- The values the rules leave open in the default numerics: which NaN an operation gives, the integer a conversion
gives on a value that is not finite (R21 applies the conversions to finite values only), and the result bits of the
three transcendental functions (R22). -/
structure FreeFns where
  nan : NumOp → F → F → F := fun _ _ _ => 0x7FC00000
  floorNonFinite : F → Int := fun _ => 0
  truncNonFinite : F → Int := fun _ => 0
  sin : F → F := fun _ => 0x00000000
  tan : F → F := fun _ => 0x3F800000
  exp2 : F → F := fun _ => 0x3F800000

open Machine in
/-- The largest binary32 value not above `0.48 π (1 + 2^-20)`, the end of the range of NP-TAN (R22). -/
def tanArgMax : F := 0x3FC10506

/-- The largest binary32 value not above 0.2, the end of the range of NP-EXP2 (R22). -/
def exp2ArgMax : F := 0x3E4CCCCC

/-- The largest binary32 value not above 1.15, the bound of NP-EXP2 (R22). -/
def exp2Max : F := 0x3F933333

open Machine in
/-- What a model may assume of the free values: an invalid operation gives a NaN (R16), and the named properties
NP-SIN, NP-TAN and NP-EXP2 (R22). -/
structure FreeFns.Lawful (f : FreeFns) : Prop where
  nan_isNaN : ∀ op a b, f32IsNaN (f.nan op a b) = true
  /-- NP-SIN: for finite `x`, `-1 <= sin(x) <= 1`. -/
  sin_range : ∀ x, f32Finite x = true → f32Le 0xBF800000 (f.sin x) = true ∧ f32Le (f.sin x) 0x3F800000 = true
  /-- NP-SIN: `sin(0) = 0`. -/
  sin_zero : ∀ x, f32IsZero x = true → f32IsZero (f.sin x) = true
  /-- NP-TAN: on its range `tan(x)` is finite and positive. -/
  tan_pos : ∀ x, f32Lt 0 x = true → f32Le x tanArgMax = true → f32Finite (f.tan x) = true ∧ f32Lt 0 (f.tan x) = true
  /-- NP-EXP2: `exp2(0) = 1`. -/
  exp2_zero : ∀ x, f32IsZero x = true → f.exp2 x = 0x3F800000
  /-- NP-EXP2: on its range `1 <= exp2(x) <= 1.15`. -/
  exp2_range : ∀ x, f32Le 0 x = true → f32Le x exp2ArgMax = true →
    f32Le 0x3F800000 (f.exp2 x) = true ∧ f32Le (f.exp2 x) exp2Max = true
  /-- NP-EXP2: on its range `exp2` is non-decreasing. -/
  exp2_mono : ∀ x y, f32Le 0 x = true → f32Le x y = true → f32Le y exp2ArgMax = true →
    f32Le (f.exp2 x) (f.exp2 y) = true

/-- Some functions have the named properties, so that assuming them is no contradiction. -/
theorem FreeFns.lawful_default : FreeFns.Lawful {} where
  nan_isNaN _ _ _ := rfl
  sin_range _ _ := ⟨rfl, rfl⟩
  sin_zero _ _ := rfl
  tan_pos _ _ _ := ⟨rfl, rfl⟩
  exp2_zero _ _ := rfl
  exp2_range _ _ _ := ⟨rfl, rfl⟩
  exp2_mono _ _ _ _ _ := rfl

/-- Free values that have the named properties. -/
structure FreeValues where
  fns : FreeFns := {}
  lawful : fns.Lawful := by exact FreeFns.lawful_default
  deriving Inhabited

/-- The free values of the machine.  Nothing in Lean can evaluate them: a claim about the machine holds whatever they
are, as R22 asks ("a model must not rest a claim on a particular result bit of these three functions").
DESIGN CHOICE, safe (log entry 2). -/
opaque Config.freeValues : FreeValues

/-- What a delay word holds from power-on until a RESET: unspecified (R311, R56).  DESIGN CHOICE, safe (log entry 5). -/
opaque Config.powerOnWord (α : Type) [Inhabited α] : Lane → Nat → α

end Sys2Proof
end

