-- ==== Sys2Proof/Machine/Binary32.lean ====
section
/-! DEFINITION. Binary32 arithmetic (R16): each operation is the exact result rounded once, no operation is fused with
another, subnormals are kept, there are no flags and no traps; the conversions (R21); the literals' patterns (R7); and
the `Num` instance made of them. -/

namespace Sys2Proof.Machine

/-! ### The four operations -/

/-- `a + b` where neither is a NaN and not both are infinities of unlike sign.  An exact zero sum is `+0`, unless both
operands are negative zeros (R16). -/
def f32AddNum (a b : F) : F :=
  if f32IsInf a then a
  else if f32IsInf b then b
  else if f32Val a + f32Val b = 0 then f32Make (f32Sign a && f32Sign b) 0
  else f32Round (decide (f32Val a + f32Val b < 0)) (f32Val a + f32Val b).natAbs 1

/-- The pattern with the sign bit flipped. -/
def f32Flip (a : F) : F := f32Make (!f32Sign a) (f32Code a)

def f32Add (f : FreeFns) (a b : F) : F :=
  if f32IsNaN a || f32IsNaN b || (f32IsInf a && f32IsInf b && (f32Sign a != f32Sign b)) then f.nan .add a b
  else f32AddNum a b

def f32Sub (f : FreeFns) (a b : F) : F :=
  if f32IsNaN a || f32IsNaN b || (f32IsInf a && f32IsInf b && (f32Sign a == f32Sign b)) then f.nan .sub a b
  else f32AddNum a (f32Flip b)

def f32Mul (f : FreeFns) (a b : F) : F :=
  if f32IsNaN a || f32IsNaN b || (f32IsInf a && f32IsZero b) || (f32IsZero a && f32IsInf b) then f.nan .mul a b
  else if f32IsInf a || f32IsInf b then f32Make (f32Sign a != f32Sign b) f32InfCode
  else f32Round (f32Sign a != f32Sign b) (f32Mag a * f32Mag b) (2 ^ 149)

def f32Div (f : FreeFns) (a b : F) : F :=
  if f32IsNaN a || f32IsNaN b || (f32IsInf a && f32IsInf b) || (f32IsZero a && f32IsZero b) then f.nan .div a b
  else if f32IsInf a || f32IsZero b then f32Make (f32Sign a != f32Sign b) f32InfCode
  else if f32IsInf b then f32Make (f32Sign a != f32Sign b) 0
  else f32Round (f32Sign a != f32Sign b) (f32Mag a * 2 ^ 149) (f32Mag b)

/-! ### Conversions (R21) -/

def f32OfInt (n : Int) : F := f32Round (decide (n < 0)) (n.natAbs * 2 ^ 149) 1

/-- The greatest integer not above `x`; a free value where `x` is not finite. -/
def f32Floor (f : FreeFns) (x : F) : Int :=
  if f32Finite x then f32Val x / 2 ^ 149 else f.floorNonFinite x

/-- `x` rounded toward zero; a free value where `x` is not finite. -/
def f32Trunc (f : FreeFns) (x : F) : Int :=
  if f32Finite x then (f32Val x).tdiv (2 ^ 149) else f.truncNonFinite x

/-! ### The literals' patterns -/

/-- The binary32 encoding of each literal (table of R7; `95_test_vectors.md` for the bounds of R41 and R8). -/
def f32Lit : Lit → F
  | .zero => 0x00000000
  | .one => 0x3F800000
  | .negOne => 0xBF800000
  | .two => 0x40000000
  | .half => 0x3F000000
  | .oneAndHalf => 0x3FC00000
  | .twoAndHalf => 0x40200000
  | .hundred => 0x42C80000
  | .msPerSec => 0x447A0000
  | .releaseSec => 0x3C75C28F
  | .varSec => 0x3D23D70A
  | .varCoef => 0x3B03126F
  | .rateDepth => 0x3E800000
  | .rateFloor => 0x3C23D70A
  | .skew => 0x3E19999A
  | .centsPerOctave => 0x44960000
  | .baseDelay => 0x44800000
  | .delayMax => 0x457FC000
  | .bufSizeF => 0x45800000
  | .formantDepth => 0x3ECCCCCD
  | .freqFloor => 0x3E99999A
  | .freq0 => 0x44160000
  | .freq1 => 0x44BB8000
  | .freq2 => 0x452F0000
  | .cutoffMin => 0x42A00000
  | .cutoffFrac => 0x3EF5C28F
  | .formantQ => 0x40000000
  | .gate => 0x3A83126F
  | .mix => 0x3F4CCCCD
  | .pi => 0x40490FDB
  | .twoPi => 0x40C90FDB
  | .onsetMin => 0x41200000
  | .onsetMax => 0x44FA0000
  | .rateMax => 0x41700000
  | .pitchMax => 0x43480000
  | .rngScale => 0x4B000000
  | .srMin => 0x45FA0000
  | .srMax => 0x48BB8000

/-! ### The instance -/

/-- The default `Num` (R16), over the values the rules leave free. -/
def binary32 (f : FreeFns) : Num F where
  lit := f32Lit
  add := f32Add f
  sub := f32Sub f
  mul := f32Mul f
  div := f32Div f
  lt := f32Lt
  le := f32Le
  eq := f32Eq
  ofInt := f32OfInt
  floorInt := f32Floor f
  truncInt := f32Trunc f
  sin := f.sin
  tan := f.tan
  exp2 := f.exp2
  finite := f32Finite

end Sys2Proof.Machine
end

