-- ==== Sys2Proof/Machine/Numerics.lean ====
section
/-! DEFINITION. The derived primitives of the pseudocode (R20) over any `Num`, the default variation source (R146), and
the parameters of the machine (R8). -/

namespace Sys2Proof.Machine

variable {α : Type}

/-- `max(a, b)` is `if a < b then b else a` (R20). -/
def numMax (N : Num α) (a b : α) : α := if N.lt a b then b else a

/-- `min(a, b)` is `if b < a then b else a` (R20). -/
def numMin (N : Num α) (a b : α) : α := if N.lt b a then b else a

/-- `clamp(x, lo, hi)` is `min(max(x, lo), hi)`: the lower bound is applied first (R20). -/
def numClamp (N : Num α) (x lo hi : α) : α := numMin N (numMax N x lo) hi

/-- `x > 0`. -/
def numPos (N : Num α) (x : α) : Bool := N.lt (N.lit .zero) x

/-! ### The default variation source (R146) -/

/-- `s' = (s * 1664525 + 1013904223) mod 2^32`. -/
def lcgState (s : BitVec 32) : BitVec 32 := s * 1664525 + 1013904223

/-- `u = of_int(s' >> 8) / 8388608 - 1`. -/
def lcgValue (N : Num α) (s' : BitVec 32) : α :=
  N.sub (N.div (N.ofInt ((s' >>> 8).toNat : Int)) (N.lit .rngScale)) (N.lit .one)

/-- The 32-bit linear congruential generator of R146, over any numerics. -/
def lcg (N : Num α) : Rng α (BitVec 32) where
  seed := rngSeed
  next s := (lcgState s, lcgValue N (lcgState s))

/-! ### The parameters of the machine -/

/-- In binary32 a wrap that ends takes at most `2^24 + 1` turns: a phase above `2^24 + 2` comes to one that subtracting
1 no longer changes.  DEDUCED (log entry 11). -/
def wrapFuel : Nat := 16777217

/-- The defaults of R8 over given free values: binary32, the generator of R146, `RESET_RESEEDS_RNG = false`,
`SR_MIN = 8000`, `SR_MAX = 384000`. -/
def defaultParams (f : FreeFns) : OpenParams F (BitVec 32) where
  num := binary32 f
  rng := lcg (binary32 f)
  resetReseedsRng := false
  srMin := f32Lit .srMin
  srMax := f32Lit .srMax
  wrapTurns _ := wrapFuel

/-- The parameters `exec` and `step` use: the defaults of R8 with the three transcendental functions free (R22).
DESIGN CHOICE (log entries 1 to 4). -/
def machineParams : OpenParams F (BitVec 32) := defaultParams Config.freeValues.fns

end Sys2Proof.Machine
end

