-- ==== Sys2Proof/Machine/State.lean ====
section
/-! DEFINITION. The state of one instance (R30 to R56), the reasons a step can stop, and the state at power-on (R56,
R310, R311).

The state is written over any value type `α` (R15) and any generator state type `σ` (R145); the machine's own is the one
over the defaults of R8, binary32 patterns and a 32-bit generator state. -/

namespace Sys2Proof.Machine

/-- The configuration registers `cfg`, written by PREPARE only (R42). -/
structure CfgRegs (α : Type) where
  /-- The lifecycle mode: false is UNPREPARED, true is READY (R43). -/
  prepared : Bool
  sampleRate : α
  /-- Stored, read by no rule (R42). -/
  maxBlockSize : Word
  deriving DecidableEq, Repr

/-- The parameter registers `P`: one snapshot, written by LOADP only (R41), and its presence bit (R290). -/
structure ParamRegs (α : Type) where
  valid : Bool
  triggered : Bool
  onsetMs : α
  rateHz : α
  pitchCents : α
  amplitudePct : α
  formantPct : α
  variationPct : α
  deriving DecidableEq, Repr

/-- The coefficient triple of one bandpass filter (R50, R204). -/
structure Coeffs (α : Type) where
  a1 : α
  a2 : α
  a3 : α
  deriving DecidableEq, Repr

/-- One entry `filt[c][f]` of the formant filter register file (R50). -/
structure Filter (α : Type) where
  s1 : α
  s2 : α
  co : Coeffs α
  deriving DecidableEq, Repr

/-- The three filters of one lane (R50). -/
structure Bank (α : Type) where
  f0 : Filter α
  f1 : Filter α
  f2 : Filter α
  deriving DecidableEq, Repr

/-- One lane's delay memory `delayBuffer[c]` (R51, R70): the words that differ from what an unlisted word reads as, by
strictly rising index.  `fill` is what the last RESET wrote to every word, and so what an unlisted word reads as; with
none since power-on an unlisted word is unspecified (R311). -/
structure DelayMem (α : Type) where
  fill : Option α
  cells : List (Nat × α)
  deriving DecidableEq, Repr

/-- The wires that pass from one micro-operation to another inside a STEP (R53).  They are not state of the block
(R10): the model holds them so that a micro-operation is a function of the state, and between STEPs they are idle. -/
structure Wires (α : Type) where
  /-- The input frame `in[c]` of the STEP. -/
  input : PerLane α
  vmod : α
  effectiveRate : α
  lfo : α
  totalDelay : α
  delayed : PerLane α
  processed : PerLane α
  out : PerLane α
  deriving DecidableEq, Repr

end Sys2Proof.Machine

namespace Sys2Proof.Machine.Gen

/-- The state of one instance, and the model's own view of its host port. -/
structure State (α σ : Type) where
  cfg : CfgRegs α
  P : ParamRegs α
  envelope : α
  lfoPhase : α
  writePos : BitVec 12
  variationSmoothed : α
  variationTarget : α
  /-- A signed integer in two's complement (R36). -/
  variationCountdown : BitVec 32
  /-- A signed integer in two's complement (R38). -/
  formantUpdateCounter : BitVec 32
  filt : PerLane (Bank α)
  delayBuffer : PerLane (DelayMem α)
  rngState : σ
  /-- The wires of the STEP being performed; idle between STEPs (the model's own field, log entry 6). -/
  wires : Wires α
  /-- The result words of the last command (R100; the model's own field, log entry 7). -/
  response : List α
  /-- The bytes the host has sent and the block has not consumed (R109; the model's own field, log entry 8). -/
  hostIn : List Byte
  /-- Micro-operations put to the datapath one at a time; empty in every run from power-on (R112; the model's own field,
  log entry 9). -/
  slots : List MicroId
  deriving DecidableEq, Repr

end Sys2Proof.Machine.Gen

namespace Sys2Proof.Machine

/-- The state of the machine: binary32 values and the default generator's state (R8). -/
abbrev State : Type := Gen.State F (BitVec 32)

/-- Why the machine stops with a fault.  The block itself has no faults (R280). -/
inductive Fault where
  /-- The phase wrap of LFO (R156) does not end: a phase of infinity, or one so large that subtracting 1 no longer
  changes it.  Raised by LFO and STEP; safe; no state a run from power-on reaches raises it (R159, R255). -/
  | phaseWrapEndless
  deriving DecidableEq, Repr

/-- Why the model gives a command no meaning: the closed list of R283, in its order, and the host's reason. -/
inductive Refusal where
  /-- Raised by an arm of `exec` whose instruction has no meaning yet; safe. -/
  | notModelled (mnemonic : String)
  /-- `reserved_command`, raised by the step for a command word that is not legal or an identifier that names nothing
  (R110, R112), and by STEP for a frame of no legal length; safe. -/
  | reservedCommand
  /-- `not_prepared`, raised by STEP in mode UNPREPARED (R290); safe. -/
  | notPrepared
  /-- `no_snapshot`, raised by STEP where no LOADP has been done (R290); safe. -/
  | noSnapshot
  /-- `bad_sample_rate`, raised by PREPARE (R242); safe. -/
  | badSampleRate
  /-- `bad_parameter`, raised by LOADP (R246); safe. -/
  | badParameter
  /-- `bad_sample`, raised by STEP (R248); safe. -/
  | badSample
  deriving DecidableEq, Repr

variable {α σ : Type}

/-- Has a RESET zeroed the memory since power-on? -/
def DelayMem.cleared (m : DelayMem α) : Bool := m.fill.isSome

/-! In what follows `z` is the zero of the numerics. -/

/-- The zero triple RESET leaves (R244). -/
def Coeffs.zero (z : α) : Coeffs α := { a1 := z, a2 := z, a3 := z }

def Filter.zero (z : α) : Filter α := { s1 := z, s2 := z, co := .zero z }

def Bank.zero (z : α) : Bank α := { f0 := .zero z, f1 := .zero z, f2 := .zero z }

/-- A delay memory after a RESET: every word 0 (R244). -/
def DelayMem.zeroed (z : α) : DelayMem α := { fill := some z, cells := [] }

/-- A delay memory at power-on: no word has a specified value (R311). -/
def DelayMem.powerOn : DelayMem α := { fill := none, cells := [] }

/-- The wires between STEPs (log entry 6). -/
def Wires.idle (z : α) : Wires α where
  input := { l0 := z, l1 := z }
  vmod := z
  effectiveRate := z
  lfo := z
  totalDelay := z
  delayed := { l0 := z, l1 := z }
  processed := { l0 := z, l1 := z }
  out := { l0 := z, l1 := z }

/-- The instance at power-on over given parameters (R56, R311): `cfg.prepared = false`, `P.valid = false`,
`rngState = Rng.seed`.  The spec gives no other register a value; the model names one for each: the lower bound of the
register's legal range where the spec gives a range whose lower bound is not 0 (`SR_MIN`, 10, 0.5), else 0.
DESIGN CHOICE, unsafe (log entry 10). -/
def powerOn (O : OpenParams α σ) : Gen.State α σ where
  cfg := { prepared := false, sampleRate := O.srMin, maxBlockSize := 0 }
  P := { valid := false, triggered := false, onsetMs := O.num.lit .onsetMin, rateHz := O.num.lit .half,
         pitchCents := O.num.lit .zero, amplitudePct := O.num.lit .zero, formantPct := O.num.lit .zero,
         variationPct := O.num.lit .zero }
  envelope := O.num.lit .zero
  lfoPhase := O.num.lit .zero
  writePos := 0
  variationSmoothed := O.num.lit .zero
  variationTarget := O.num.lit .zero
  variationCountdown := 0
  formantUpdateCounter := 0
  filt := { l0 := .zero (O.num.lit .zero), l1 := .zero (O.num.lit .zero) }
  delayBuffer := { l0 := .powerOn, l1 := .powerOn }
  rngState := O.rng.seed
  wires := .idle (O.num.lit .zero)
  response := []
  hostIn := []
  slots := []

/-- The machine at power-on (R56, R311).  DESIGN CHOICE, unsafe where the spec gives no value (log entry 10). -/
def State.reset : State := powerOn machineParams

end Sys2Proof.Machine
end

