-- ==== Sys2Proof/Machine/Ops.lean ====
section
/-! DEFINITION. The named operations over memory, registers and wires.

The block takes no exceptions and has no return from one (R280, R287, R288): there is no such operation here.  What
stands in their place is `refuse`, the model's outcome outside the contract (R283). -/

namespace Sys2Proof.Machine

variable {α σ : Type}

/-- The three outcomes of a step over given value and generator types. -/
abbrev Gen.Result (α σ : Type) := Host.Outcome (Gen.State α σ) Fault Refusal

/-- The three outcomes of a step of this machine. -/
abbrev Result := Host.Outcome State Fault Refusal

/-- The model gives the command no meaning, and the state afterwards is unspecified (R11, R283). -/
def refuse (r : Refusal) : Gen.Result α σ := .refused r

/-- Go on from a next state; a fault or a refusal ends the run. -/
def andThen (r : Gen.Result α σ) (k : Gen.State α σ → Gen.Result α σ) : Gen.Result α σ :=
  match r with
  | .next s => k s
  | .fault f => .fault f
  | .refused q => .refused q

/-! ### The delay memory (R70 to R73) -/

/-- What a word not listed reads as: what the last RESET wrote, which is 0 (R244); unspecified before any (R311). -/
def unlistedWord [Inhabited α] (c : Lane) (m : DelayMem α) (j : Nat) : α :=
  match m.fill with
  | some z => z
  | none => Config.powerOnWord α c j

/-- The value listed for an index. -/
def cellsFind : List (Nat × α) → Nat → Option α
  | [], _ => none
  | (k, v) :: rest, j => if k = j then some v else cellsFind rest j

/-- List a value for an index, keeping the indices strictly rising. -/
def cellsPut : List (Nat × α) → Nat → α → List (Nat × α)
  | [], j, v => [(j, v)]
  | (k, w) :: rest, j, v =>
    if j < k then (j, v) :: (k, w) :: rest
    else if j = k then (j, v) :: rest
    else (k, w) :: cellsPut rest j v

/-- Take an index off the list. -/
def cellsDrop : List (Nat × α) → Nat → List (Nat × α)
  | [], _ => []
  | (k, w) :: rest, j => if k = j then rest else (k, w) :: cellsDrop rest j

/-- One word of one lane's memory. -/
def delayRead [Inhabited α] (c : Lane) (m : DelayMem α) (j : Nat) : α :=
  match cellsFind m.cells j with
  | some v => v
  | none => unlistedWord c m j

/-- Write one word of one lane's memory, keeping the canonical form. -/
def delayWrite [DecidableEq α] [Inhabited α] (c : Lane) (m : DelayMem α) (j : Nat) (v : α) : DelayMem α :=
  if v = unlistedWord c m j then { m with cells := cellsDrop m.cells j }
  else { m with cells := cellsPut m.cells j v }

/-- `j & 4095` of any integer (R9, R72). -/
def maskIndex (j : Int) : Nat := (BitVec.ofInt 12 j).toNat

/-- `MemRead(c, j)` (R72): the mask is part of the primitive. -/
def memRead [Inhabited α] (s : Gen.State α σ) (c : Lane) (j : Int) : α := delayRead c (s.delayBuffer.get c) (maskIndex j)

/-- `MemWrite(c, j, v)` (R73). -/
def memWrite [DecidableEq α] [Inhabited α] (s : Gen.State α σ) (c : Lane) (j : BitVec 12) (v : α) : Gen.State α σ :=
  { s with delayBuffer := s.delayBuffer.set c (delayWrite c (s.delayBuffer.get c) j.toNat v) }

/-- The indices are strictly rising from a lower bound. -/
def risingFrom : Nat → List (Nat × α) → Bool
  | _, [] => true
  | lo, (k, _) :: rest => decide (lo ≤ k) && risingFrom (k + 1) rest

/-- The canonical form of one lane's memory: indices strictly rising and inside the memory (R71), and no entry equal to
what the word reads as unlisted. -/
def delayWf [DecidableEq α] [Inhabited α] (c : Lane) (m : DelayMem α) : Bool :=
  risingFrom 0 m.cells && m.cells.all (fun e => decide (e.1 < bufSize) && decide (e.2 ≠ unlistedWord c m e.1))

/-- The canonical form of the whole delay memory. -/
def memoryWf [DecidableEq α] [Inhabited α] (p : PerLane (DelayMem α)) : Bool := delayWf .lane0 p.l0 && delayWf .lane1 p.l1

/-! ### The formant filter registers (R50) -/

/-- The three filters of a bank (R50). -/
inductive FilterIx where
  | f0 | f1 | f2
  deriving DecidableEq, Repr

def bankGet (b : Bank α) : FilterIx → Filter α
  | .f0 => b.f0
  | .f1 => b.f1
  | .f2 => b.f2

def bankSet (b : Bank α) (f : FilterIx) (x : Filter α) : Bank α :=
  match f with
  | .f0 => { b with f0 := x }
  | .f1 => { b with f1 := x }
  | .f2 => { b with f2 := x }

/-- Set the coefficients of one filter; its states are not rescaled (R201 case (e)). -/
def filterCoeffs (x : Filter α) (co : Coeffs α) : Filter α := { x with co := co }

/-- Set the three coefficient triples of one lane. -/
def bankCoeffs (b : Bank α) (k0 k1 k2 : Coeffs α) : Bank α where
  f0 := filterCoeffs b.f0 k0
  f1 := filterCoeffs b.f1 k1
  f2 := filterCoeffs b.f2 k2

/-! ### Updates of the state, one field each -/

def setCfg (s : Gen.State α σ) (v : CfgRegs α) : Gen.State α σ := { s with cfg := v }
def setParams (s : Gen.State α σ) (v : ParamRegs α) : Gen.State α σ := { s with P := v }
def setEnvelope (s : Gen.State α σ) (v : α) : Gen.State α σ := { s with envelope := v }
def setPhase (s : Gen.State α σ) (v : α) : Gen.State α σ := { s with lfoPhase := v }
def setWritePos (s : Gen.State α σ) (v : BitVec 12) : Gen.State α σ := { s with writePos := v }
def setSmoothed (s : Gen.State α σ) (v : α) : Gen.State α σ := { s with variationSmoothed := v }
def setTarget (s : Gen.State α σ) (v : α) : Gen.State α σ := { s with variationTarget := v }
def setCountdown (s : Gen.State α σ) (v : BitVec 32) : Gen.State α σ := { s with variationCountdown := v }
def setRefresh (s : Gen.State α σ) (v : BitVec 32) : Gen.State α σ := { s with formantUpdateCounter := v }
def setFilt (s : Gen.State α σ) (v : PerLane (Bank α)) : Gen.State α σ := { s with filt := v }
def setDelay (s : Gen.State α σ) (v : PerLane (DelayMem α)) : Gen.State α σ := { s with delayBuffer := v }
def setRng (s : Gen.State α σ) (v : σ) : Gen.State α σ := { s with rngState := v }
def setWires (s : Gen.State α σ) (v : Wires α) : Gen.State α σ := { s with wires := v }
def setResponse (s : Gen.State α σ) (v : List α) : Gen.State α σ := { s with response := v }
def setHostIn (s : Gen.State α σ) (v : List Byte) : Gen.State α σ := { s with hostIn := v }
def setSlots (s : Gen.State α σ) (v : List MicroId) : Gen.State α σ := { s with slots := v }

/-! ### Wires -/

/-- The wires LFO produces (R156). -/
def wireLfo (w : Wires α) (vmod effectiveRate lfo : α) : Wires α :=
  { w with vmod := vmod, effectiveRate := effectiveRate, lfo := lfo }

def wireDelay (w : Wires α) (totalDelay : α) : Wires α := { w with totalDelay := totalDelay }
def wireDelayed (w : Wires α) (c : Lane) (v : α) : Wires α := { w with delayed := w.delayed.set c v }
def wireProcessed (w : Wires α) (c : Lane) (v : α) : Wires α := { w with processed := w.processed.set c v }
def wireOut (w : Wires α) (c : Lane) (v : α) : Wires α := { w with out := w.out.set c v }

/-! ### Signed counters (R36, R38) -/

/-- `x <- x - 1` on a register that holds a signed integer in two's complement. -/
def countDown (x : BitVec 32) : BitVec 32 := x - 1

/-- `x <= 0` of a register that holds a signed integer in two's complement. -/
def countExpired (x : BitVec 32) : Bool := decide (x.toInt ≤ 0)

/-- An integer stored in 32-bit two's complement. -/
def storeInt (n : Int) : BitVec 32 := BitVec.ofInt 32 n

end Sys2Proof.Machine
end

