-- ==== Sys2Proof/Machine/Operands.lean ====
section
/-! DEFINITION. The operands of commands: which values are admitted (R41, R42, R108, R283); and the six per-block values
derived from `P` and `cfg` (R44 to R49), pure functions, not state. -/

namespace Sys2Proof.Machine

variable {α σ : Type}

/-! ### Admission -/

/-- Finite and inside `[lo, hi]`. -/
def admitRange (N : Num α) (lo hi x : α) : Bool := N.finite x && N.le lo x && N.le x hi

/-- A sample rate PREPARE admits: finite, in `[SR_MIN, SR_MAX]` (R42, R242). -/
def admitRate (O : OpenParams α σ) (x : α) : Bool := admitRange O.num O.srMin O.srMax x

/-- A snapshot LOADP admits: every field finite and in its range of R41. -/
def admitSnapshot (N : Num α) (p : ParamRegs α) : Bool :=
  admitRange N (N.lit .onsetMin) (N.lit .onsetMax) p.onsetMs
  && admitRange N (N.lit .half) (N.lit .rateMax) p.rateHz
  && admitRange N (N.lit .zero) (N.lit .pitchMax) p.pitchCents
  && admitRange N (N.lit .zero) (N.lit .hundred) p.amplitudePct
  && admitRange N (N.lit .zero) (N.lit .hundred) p.formantPct
  && admitRange N (N.lit .zero) (N.lit .hundred) p.variationPct

/-- A frame STEP admits: every sample finite (R248). -/
def admitFrame (N : Num α) (frame : List α) : Bool := frame.all N.finite

/-! ### Derived per-block values -/

/-- `xAmt = P.xPct / 100` (R44, R45, R46). -/
def amountOf (N : Num α) (pct : α) : α := N.div pct (N.lit .hundred)

/-- `attackRate = 1 / max(1, (P.onsetMs / 1000) * sampleRate)` (R47). -/
def attackRate (N : Num α) (onsetMs sampleRate : α) : α :=
  N.div (N.lit .one) (numMax N (N.lit .one) (N.mul (N.div onsetMs (N.lit .msPerSec)) sampleRate))

/-- `releaseRate = 1 / max(1, 0.015 * sampleRate)` (R48). -/
def releaseRate (N : Num α) (sampleRate : α) : α :=
  N.div (N.lit .one) (numMax N (N.lit .one) (N.mul (N.lit .releaseSec) sampleRate))

/-- `varPeriod = trunc_int(sampleRate * 0.04)` (R49). -/
def varPeriod (N : Num α) (sampleRate : α) : Int := N.truncInt (N.mul sampleRate (N.lit .varSec))

end Sys2Proof.Machine
end

