-- ==== Sys2Proof/Machine/Flags.lean ====
section
/-! DEFINITION. The block has no flags (R40): no micro-operation sets one.  Its only conditions are the three
combinational gate predicates of R40, recomputed from `P` and the current wires and never stored. -/

namespace Sys2Proof.Machine

variable {α : Type}

/-- `variationActive`: `P.variationPct > 0` (R40). -/
def variationActive (N : Num α) (variationPct : α) : Bool := numPos N variationPct

/-- `pitchActive`: `P.pitchCents > 0 and effectiveRate > 0` (R40). -/
def pitchActive (N : Num α) (pitchCents effectiveRate : α) : Bool := numPos N pitchCents && numPos N effectiveRate

/-- `formantActive`: `P.formantPct > 0 and envelope > 0.001` (R40); the test is strict (R205 case (a)). -/
def formantActive (N : Num α) (formantPct envelope : α) : Bool :=
  numPos N formantPct && N.lt (N.lit .gate) envelope

end Sys2Proof.Machine
end

