-- ==== Sys2Proof/Machine/DelayLine.lean ====
section
/-! DEFINITION. DMOD, DWR, DRD and WADV, the cubic-interpolated modulated delay line (R170 to R182). -/

namespace Sys2Proof.Machine

variable {α σ : Type}

/-! ### DMOD -/

/-- The wire `effPitch` (R171). -/
def effPitch (N : Num α) (pitchCents vmod : α) : α :=
  numMax N (N.mul pitchCents (N.add (N.lit .one) (N.mul vmod (N.lit .skew)))) (N.lit .zero)

/-- The wire `modAmp` (R171). -/
def modAmp (N : Num α) (pitch sampleRate effectiveRate : α) : α :=
  N.div (N.mul (N.sub (N.exp2 (N.div pitch (N.lit .centsPerOctave))) (N.lit .one)) sampleRate)
    (N.mul (N.lit .twoPi) effectiveRate)

/-- The wire `delayMod`; 0 where the gate `pitchActive` is closed (R171). -/
def delayMod (N : Num α) (pitchCents sampleRate envelope vmod effectiveRate lfo : α) : α :=
  if pitchActive N pitchCents effectiveRate then
    N.mul (N.mul lfo (modAmp N (effPitch N pitchCents vmod) sampleRate effectiveRate)) envelope
  else N.lit .zero

/-- The wire `totalDelay = clamp(1024 + delayMod, 2, 4092)` (R171). -/
def totalDelayOf (N : Num α) (dmod : α) : α :=
  numClamp N (N.add (N.lit .baseDelay) dmod) (N.lit .two) (N.lit .delayMax)

/-- DMOD over given parameters: it writes no state (R171). -/
def dmodOp (O : OpenParams α σ) (s : Gen.State α σ) : Gen.State α σ :=
  setWires s (wireDelay s.wires (totalDelayOf O.num
    (delayMod O.num s.P.pitchCents s.cfg.sampleRate s.envelope s.wires.vmod s.wires.effectiveRate s.wires.lfo)))

/-- DMOD (R171). -/
def execDmod (s : State) : Result := .next (dmodOp machineParams s)

/-! ### DWR -/

/-- DWR.c stores the input sample as given (R175). -/
def dwrOp [DecidableEq α] [Inhabited α] (c : Lane) (s : Gen.State α σ) : Gen.State α σ :=
  memWrite s c s.writePos (s.wires.input.get c)

/-- DWR.c (R175). -/
def execDwr (c : Lane) (s : State) : Result := .next (dwrOp c s)

/-! ### DRD -/

/-- The read position, wrapped by one conditional addition (R177). -/
def readPos (N : Num α) (writePos : BitVec 12) (totalDelay : α) : α :=
  if N.lt (N.sub (N.ofInt (writePos.toNat : Int)) totalDelay) (N.lit .zero) then
    N.add (N.sub (N.ofInt (writePos.toNat : Int)) totalDelay) (N.lit .bufSizeF)
  else N.sub (N.ofInt (writePos.toNat : Int)) totalDelay

/-- The interpolation weight `frac = readPos - of_int(i)` (R177). -/
def readFrac (N : Num α) (pos : α) : α := N.sub pos (N.ofInt (N.floorInt pos))

def cubic1 (N : Num α) (ym1 y1 : α) : α := N.mul (N.lit .half) (N.sub y1 ym1)

def cubic2 (N : Num α) (ym1 y0 y1 y2 : α) : α :=
  N.sub (N.add (N.sub ym1 (N.mul (N.lit .twoAndHalf) y0)) (N.mul (N.lit .two) y1)) (N.mul (N.lit .half) y2)

def cubic3 (N : Num α) (ym1 y0 y1 y2 : α) : α :=
  N.add (N.mul (N.lit .half) (N.sub y2 ym1)) (N.mul (N.lit .oneAndHalf) (N.sub y0 y1))

/-- The four-point interpolation polynomial in Horner form (R177). -/
def interpolate (N : Num α) (ym1 y0 y1 y2 frac : α) : α :=
  N.add (N.mul (N.add (N.mul (N.add (N.mul (cubic3 N ym1 y0 y1 y2) frac) (cubic2 N ym1 y0 y1 y2)) frac)
    (cubic1 N ym1 y1)) frac) y0

/-- The interpolated sample at a read position: four taps, each index masked (R177, R72). -/
def readAt [Inhabited α] (O : OpenParams α σ) (s : Gen.State α σ) (c : Lane) (pos : α) : α :=
  interpolate O.num (memRead s c (O.num.floorInt pos - 1)) (memRead s c (O.num.floorInt pos))
    (memRead s c (O.num.floorInt pos + 1)) (memRead s c (O.num.floorInt pos + 2)) (readFrac O.num pos)

/-- DRD.c over given parameters: it writes no state (R177). -/
def drdOp [Inhabited α] (O : OpenParams α σ) (c : Lane) (s : Gen.State α σ) : Gen.State α σ :=
  setWires s (wireDelayed s.wires c (readAt O s c (readPos O.num s.writePos s.wires.totalDelay)))

/-- DRD.c (R177). -/
def execDrd (c : Lane) (s : State) : Result := .next (drdOp machineParams c s)

/-! ### WADV -/

/-- `writePos <- (writePos + 1) & 4095` (R181). -/
def wadvOp (s : Gen.State α σ) : Gen.State α σ := setWritePos s (s.writePos + 1)

/-- WADV (R181). -/
def execWadv (s : State) : Result := .next (wadvOp s)

end Sys2Proof.Machine
end

