-- ==== Sys2Proof/Machine/Envelope.lean ====
section
/-! DEFINITION. ENV, the envelope attack-release smoother (R130 to R135). -/

namespace Sys2Proof.Machine

variable {α σ : Type}

/-- The next envelope value (R131). -/
def envNext (N : Num α) (triggered : Bool) (attack release envelope : α) : α :=
  if triggered then numMin N (N.add envelope attack) (N.lit .one)
  else numMax N (N.sub envelope release) (N.lit .zero)

/-- ENV over given parameters (R131). -/
def envOp (O : OpenParams α σ) (s : Gen.State α σ) : Gen.State α σ :=
  setEnvelope s (envNext O.num s.P.triggered (attackRate O.num s.P.onsetMs s.cfg.sampleRate)
    (releaseRate O.num s.cfg.sampleRate) s.envelope)

/-- ENV (R131). -/
def execEnv (s : State) : Result := .next (envOp machineParams s)

end Sys2Proof.Machine
end

