-- ==== Sys2Proof/Machine/Formant.lean ====
section
/-! DEFINITION. FCOEF and FMIX, the parallel modulated bandpass filter bank (R200 to R209). -/

namespace Sys2Proof.Machine

variable {α σ : Type}

/-! ### FCOEF -/

/-- `depth = formantAmt * envelope` (R201). -/
def formantDepth (N : Num α) (formantPct envelope : α) : α := N.mul (amountOf N formantPct) envelope

/-- `freqMult = max(1 + (lfo * depth) * 0.4, 0.3)` (R201). -/
def freqMult (N : Num α) (lfo depth : α) : α :=
  numMax N (N.add (N.lit .one) (N.mul (N.mul lfo depth) (N.lit .formantDepth))) (N.lit .freqFloor)

/-- `fc = clamp(BASE_FREQ[f] * freqMult, 80, 0.48 * sampleRate)` (R201). -/
def cutoffOf (N : Num α) (base mult sampleRate : α) : α :=
  numClamp N (N.mul base mult) (N.lit .cutoffMin) (N.mul (N.lit .cutoffFrac) sampleRate)

/-- `g = tan((PI * fc) / sampleRate)` (R201). -/
def prewarp (N : Num α) (fc sampleRate : α) : α := N.tan (N.div (N.mul (N.lit .pi) fc) sampleRate)

/-- `k = 1 / FORMANT_Q` (R201). -/
def dampOf (N : Num α) : α := N.div (N.lit .one) (N.lit .formantQ)

/-- `a1 = 1 / (1 + g * (g + k))` (R201, R204). -/
def coefA1 (N : Num α) (g : α) : α :=
  N.div (N.lit .one) (N.add (N.lit .one) (N.mul g (N.add g (dampOf N))))

/-- `a1`, `a2 = g * a1`, `a3 = g * a2` (R201, R204). -/
def coeffsOf (N : Num α) (g : α) : Coeffs α where
  a1 := coefA1 N g
  a2 := N.mul g (coefA1 N g)
  a3 := N.mul g (N.mul g (coefA1 N g))

/-- `BASE_FREQ[f]` (R6). -/
def baseFreq : FilterIx → Lit
  | .f0 => .freq0
  | .f1 => .freq1
  | .f2 => .freq2

/-- The coefficients a refresh gives filter `f` (R201). -/
def refreshCoeffs (O : OpenParams α σ) (s : Gen.State α σ) (f : FilterIx) : Coeffs α :=
  coeffsOf O.num (prewarp O.num
    (cutoffOf O.num (O.num.lit (baseFreq f))
      (freqMult O.num s.wires.lfo (formantDepth O.num s.P.formantPct s.envelope)) s.cfg.sampleRate)
    s.cfg.sampleRate)

/-- Write one coefficient set into both lanes (R201, R209). -/
def refreshBanks (O : OpenParams α σ) (s : Gen.State α σ) : PerLane (Bank α) where
  l0 := bankCoeffs s.filt.l0 (refreshCoeffs O s .f0) (refreshCoeffs O s .f1) (refreshCoeffs O s .f2)
  l1 := bankCoeffs s.filt.l1 (refreshCoeffs O s .f0) (refreshCoeffs O s .f1) (refreshCoeffs O s .f2)

/-- FCOEF over given parameters: count down in every STEP, refresh where the count has expired (R201, R202). -/
def fcoefOp (O : OpenParams α σ) (s : Gen.State α σ) : Gen.State α σ :=
  if countExpired (countDown s.formantUpdateCounter) then
    setRefresh (setFilt s (refreshBanks O s)) (storeInt fcoefPeriod)
  else setRefresh s (countDown s.formantUpdateCounter)

/-- FCOEF (R201). -/
def execFcoef (s : State) : Result := .next (fcoefOp machineParams s)

/-! ### FMIX -/

/-- The band output `v1` of one filter tick (R207). -/
def svfBand (N : Num α) (a1 a2 s1 s2 x : α) : α := N.add (N.mul a1 s1) (N.mul a2 (N.sub x s2))

/-- The low output `v2` of one filter tick (R207). -/
def svfLow (N : Num α) (a2 a3 s1 s2 x : α) : α :=
  N.add (N.add s2 (N.mul a2 s1)) (N.mul a3 (N.sub x s2))

/-- An integrator's next state, `2 * v - s` (R207). -/
def svfState (N : Num α) (v s : α) : α := N.sub (N.mul (N.lit .two) v) s

/-- The output of `svf_tick` on a filter (R207). -/
def tickOut (N : Num α) (x : α) (k : Filter α) : α := svfBand N k.co.a1 k.co.a2 k.s1 k.s2 x

/-- The filter after `svf_tick` (R207). -/
def tickNext (N : Num α) (x : α) (k : Filter α) : Filter α :=
  { k with
    s1 := svfState N (svfBand N k.co.a1 k.co.a2 k.s1 k.s2 x) k.s1
    s2 := svfState N (svfLow N k.co.a2 k.co.a3 k.s1 k.s2 x) k.s2 }

/-- The sum of the three band outputs, from 0, in the order 0, 1, 2 (R205). -/
def bankSum (N : Num α) (x : α) (b : Bank α) : α :=
  N.add (N.add (N.add (N.lit .zero) (tickOut N x b.f0)) (tickOut N x b.f1)) (tickOut N x b.f2)

/-- The bank after one tick of each filter. -/
def bankNext (N : Num α) (x : α) (b : Bank α) : Bank α where
  f0 := tickNext N x b.f0
  f1 := tickNext N x b.f1
  f2 := tickNext N x b.f2

/-- `delayed[c] + ((formantAmt * envelope) * 0.8) * sum` (R205). -/
def formantMix (N : Num α) (formantPct envelope delayed sum : α) : α :=
  N.add delayed (N.mul (N.mul (formantDepth N formantPct envelope) (N.lit .mix)) sum)

/-- FMIX.c with the gate open: the lane's three filters run on the delayed sample (R205). -/
def fmixRun (O : OpenParams α σ) (c : Lane) (s : Gen.State α σ) : Gen.State α σ :=
  setWires (setFilt s (s.filt.set c (bankNext O.num (s.wires.delayed.get c) (s.filt.get c))))
    (wireProcessed s.wires c (formantMix O.num s.P.formantPct s.envelope (s.wires.delayed.get c)
      (bankSum O.num (s.wires.delayed.get c) (s.filt.get c))))

/-- FMIX.c over given parameters; with the gate closed the sample passes and the filters hold (R205, R206). -/
def fmixOp (O : OpenParams α σ) (c : Lane) (s : Gen.State α σ) : Gen.State α σ :=
  if formantActive O.num s.P.formantPct s.envelope then fmixRun O c s
  else setWires s (wireProcessed s.wires c (s.wires.delayed.get c))

/-- FMIX.c (R205). -/
def execFmix (c : Lane) (s : State) : Result := .next (fmixOp machineParams c s)

end Sys2Proof.Machine
end

