-- ==== Sys2Proof/Machine/Lfo.lean ====
section
/-! DEFINITION. LFO, the phase-accumulating sine oscillator (R155 to R161). -/

namespace Sys2Proof.Machine

variable {α σ : Type}

/-- The wire `vmod = variationSmoothed * variationAmt` (R156). -/
def lfoVmod (N : Num α) (smoothed variationPct : α) : α := N.mul smoothed (amountOf N variationPct)

/-- The wire `effectiveRate = max(P.rateHz * (1 + vmod * 0.25), 0.01)` (R156). -/
def lfoRate (N : Num α) (rateHz vmod : α) : α :=
  numMax N (N.mul rateHz (N.add (N.lit .one) (N.mul vmod (N.lit .rateDepth)))) (N.lit .rateFloor)

/-- The phase after the advance, before the wrap (R156). -/
def lfoAdvance (N : Num α) (phase effectiveRate sampleRate : α) : α :=
  N.add phase (N.div effectiveRate sampleRate)

/-- `while lfoPhase >= 1 do lfoPhase <- lfoPhase - 1` (R156), for at most `fuel` turns; `none` where it has not ended by
then. -/
def phaseWrap (N : Num α) : Nat → α → Option α
  | 0, x => if N.le (N.lit .one) x then none else some x
  | fuel + 1, x => if N.le (N.lit .one) x then phaseWrap N fuel (N.sub x (N.lit .one)) else some x

/-- The wire `lfo = clamp(sin(TWO_PI * lfoPhase) + vmod * 0.15, -1, 1)`, of the phase after the wrap (R156). -/
def lfoWave (N : Num α) (phase vmod : α) : α :=
  numClamp N (N.add (N.sin (N.mul (N.lit .twoPi) phase)) (N.mul vmod (N.lit .skew))) (N.lit .negOne) (N.lit .one)

/-- `vmod` in a state. -/
def stateVmod (O : OpenParams α σ) (s : Gen.State α σ) : α := lfoVmod O.num s.variationSmoothed s.P.variationPct

/-- `effectiveRate` in a state. -/
def stateRate (O : OpenParams α σ) (s : Gen.State α σ) : α := lfoRate O.num s.P.rateHz (stateVmod O s)

/-- The phase of a state after the advance. -/
def stateAdvance (O : OpenParams α σ) (s : Gen.State α σ) : α :=
  lfoAdvance O.num s.lfoPhase (stateRate O s) s.cfg.sampleRate

/-- The phase of a state after the advance and the wrap, the turns bounded as the parameters say (log entry 11). -/
def statePhase (O : OpenParams α σ) (s : Gen.State α σ) : Option α :=
  phaseWrap O.num (O.wrapTurns (stateAdvance O s)) (stateAdvance O s)

/-- Store the phase and produce the wires (R156). -/
def lfoStore (O : OpenParams α σ) (s : Gen.State α σ) (phase : α) : Gen.State α σ :=
  setWires (setPhase s phase)
    (wireLfo s.wires (stateVmod O s) (stateRate O s) (lfoWave O.num phase (stateVmod O s)))

/-- LFO over given parameters (R156). -/
def lfoOp (O : OpenParams α σ) (s : Gen.State α σ) : Gen.Result α σ :=
  match statePhase O s with
  | some phase => .next (lfoStore O s phase)
  | none => .fault .phaseWrapEndless

/-- LFO (R156). -/
def execLfo (s : State) : Result := lfoOp machineParams s

end Sys2Proof.Machine
end

