-- ==== Sys2Proof/Machine/Tremolo.lean ====
section
/-! DEFINITION. TREM, the audio-rate gain multiplier (R230 to R233). -/

namespace Sys2Proof.Machine

variable {α σ : Type}

/-- The wire `ampMod = 1 - ((amplitudeAmt * envelope) * (1 - lfo)) * 0.5` (R231). -/
def ampMod (N : Num α) (amplitudePct envelope lfo : α) : α :=
  N.sub (N.lit .one)
    (N.mul (N.mul (N.mul (amountOf N amplitudePct) envelope) (N.sub (N.lit .one) lfo)) (N.lit .half))

/-- TREM.c over given parameters: it writes no state (R231). -/
def tremOp (O : OpenParams α σ) (c : Lane) (s : Gen.State α σ) : Gen.State α σ :=
  setWires s (wireOut s.wires c
    (O.num.mul (s.wires.processed.get c) (ampMod O.num s.P.amplitudePct s.envelope s.wires.lfo)))

/-- TREM.c (R231). -/
def execTrem (c : Lane) (s : State) : Result := .next (tremOp machineParams c s)

end Sys2Proof.Machine
end

