-- ==== Sys2Proof/Machine/Variation.lean ====
section
/-! DEFINITION. VAR, the low-frequency pseudo-random variation generator (R140 to R149). -/

namespace Sys2Proof.Machine

variable {α σ : Type}

/-- One step of the smoother, `s + 0.002 * (t - s)` (R141, R142 (c)). -/
def varSmooth (N : Num α) (smoothed target : α) : α :=
  N.add smoothed (N.mul (N.lit .varCoef) (N.sub target smoothed))

/-- Draw a new target and reload the countdown (R141). -/
def varDraw (O : OpenParams α σ) (s : Gen.State α σ) : Gen.State α σ :=
  setCountdown (setTarget (setRng s (O.rng.next s.rngState).1) (O.rng.next s.rngState).2)
    (storeInt (varPeriod O.num s.cfg.sampleRate))

/-- Decrement, then draw where the count has expired (R141, R142 (a)). -/
def varCount (O : OpenParams α σ) (s : Gen.State α σ) : Gen.State α σ :=
  if countExpired (countDown s.variationCountdown) then varDraw O s
  else setCountdown s (countDown s.variationCountdown)

/-- The smoother moves toward the target of the state, drawn in this STEP or before (R142 (b)). -/
def varGlide (O : OpenParams α σ) (s : Gen.State α σ) : Gen.State α σ :=
  setSmoothed s (varSmooth O.num s.variationSmoothed s.variationTarget)

/-- VAR over given parameters (R141); while inactive only `variationSmoothed` is written (R142 (d)). -/
def varOp (O : OpenParams α σ) (s : Gen.State α σ) : Gen.State α σ :=
  if variationActive O.num s.P.variationPct then varGlide O (varCount O s)
  else setSmoothed s (O.num.lit .zero)

/-- VAR (R141). -/
def execVar (s : State) : Result := .next (varOp machineParams s)

end Sys2Proof.Machine
end

