-- ==== Sys2Proof/Machine/Orchestrator.lean ====
section
/-! DEFINITION. The host commands PREPARE, RESET, LOADP and STEP (R240 to R255). -/

namespace Sys2Proof.Machine

variable {α σ : Type}

/-! ### RESET -/

/-- What RESET does to the EngineState (R244, R312): all of it is zero.  `cfg`, `P` and (by default) `rngState` keep
their values. -/
def resetEngine (O : OpenParams α σ) (s : Gen.State α σ) : Gen.State α σ :=
  { s with
    delayBuffer := { l0 := .zeroed (O.num.lit .zero), l1 := .zeroed (O.num.lit .zero) }
    writePos := 0
    lfoPhase := O.num.lit .zero
    envelope := O.num.lit .zero
    variationSmoothed := O.num.lit .zero
    variationTarget := O.num.lit .zero
    variationCountdown := 0
    filt := { l0 := .zero (O.num.lit .zero), l1 := .zero (O.num.lit .zero) }
    formantUpdateCounter := 0
    rngState := if O.resetReseedsRng then O.rng.seed else s.rngState }

/-- RESET over given parameters; it returns nothing (R100, R244). -/
def resetOp (O : OpenParams α σ) (s : Gen.State α σ) : Gen.State α σ := setResponse (resetEngine O s) []

/-- RESET (R244). -/
def execReset (s : State) : Result := .next (resetOp machineParams s)

/-! ### PREPARE -/

/-- PREPARE over given parameters (R242). -/
def prepareOp (O : OpenParams α σ) (sampleRate : α) (maxBlockSize : Word) (s : Gen.State α σ) : Gen.Result α σ :=
  if admitRate O sampleRate then
    .next (resetOp O (setCfg s { prepared := true, sampleRate := sampleRate, maxBlockSize := maxBlockSize }))
  else refuse .badSampleRate

/-- PREPARE (R242). -/
def execPrepare (sampleRate : F) (maxBlockSize : Word) (s : State) : Result :=
  prepareOp machineParams sampleRate maxBlockSize s

/-! ### LOADP -/

/-- LOADP over given parameters: all fields change together, and nothing of the EngineState does (R246). -/
def loadpOp (O : OpenParams α σ) (p : ParamRegs α) (s : Gen.State α σ) : Gen.Result α σ :=
  if admitSnapshot O.num p then .next (setResponse (setParams s p) []) else refuse .badParameter

/-- The snapshot of a LOADP's operands (R246). -/
def snapshotOf (triggered : Bool) (onsetMs rateHz pitchCents amplitudePct formantPct variationPct : α) : ParamRegs α where
  valid := true
  triggered := triggered
  onsetMs := onsetMs
  rateHz := rateHz
  pitchCents := pitchCents
  amplitudePct := amplitudePct
  formantPct := formantPct
  variationPct := variationPct

/-- LOADP (R246). -/
def execLoadp (triggered : Bool) (onsetMs rateHz pitchCents amplitudePct formantPct variationPct : F) (s : State) :
    Result :=
  loadpOp machineParams (snapshotOf triggered onsetMs rateHz pitchCents amplitudePct formantPct variationPct) s

/-! ### STEP -/

/-- Put the input frame on the wires; a lane the frame does not reach has an idle input, the zero `z`. -/
def frameWires (z : α) (frame : List α) : Wires α :=
  { Wires.idle z with input := { l0 := frame.getD 0 z, l1 := frame.getD 1 z } }

variable [DecidableEq α] [Inhabited α]

/-- The slots of one lane: DWR.c, DRD.c, FMIX.c, TREM.c (R250). -/
def laneOps (O : OpenParams α σ) (s : Gen.State α σ) (c : Lane) : Gen.State α σ :=
  tremOp O c (fmixOp O c (drdOp O c (dwrOp c s)))

/-- The slots after LFO: DMOD, FCOEF, the lanes, WADV (R250). -/
def afterLfo (O : OpenParams α σ) (lanes : List Lane) (s : Gen.State α σ) : Gen.State α σ :=
  wadvOp (lanes.foldl (laneOps O) (fcoefOp O (dmodOp O s)))

/-- The schedule of a STEP over the given lanes (R248, R250). -/
def runSchedule (O : OpenParams α σ) (lanes : List Lane) (s : Gen.State α σ) : Gen.Result α σ :=
  andThen (lfoOp O (varOp O (envOp O s))) fun t => .next (afterLfo O lanes t)

/-- Return the outputs of the lanes, and let the wires go idle (R248, R53). -/
def finishStep (z : α) (lanes : List Lane) (s : Gen.State α σ) : Gen.State α σ :=
  setWires (setResponse s (lanes.map s.wires.out.get)) (.idle z)

/-- A STEP that is admitted (R248). -/
def admittedStep (O : OpenParams α σ) (lanes : List Lane) (frame : List α) (s : Gen.State α σ) : Gen.Result α σ :=
  andThen (runSchedule O lanes (setWires s (frameWires (O.num.lit .zero) frame))) fun t =>
    .next (finishStep (O.num.lit .zero) lanes t)

/-- STEP over given parameters; the refusals in the order of the table of R283 (R286). -/
def stepOp (O : OpenParams α σ) (frame : List α) (s : Gen.State α σ) : Gen.Result α σ :=
  match lanesOfCount frame.length with
  | none => refuse .reservedCommand
  | some lanes =>
    if !s.cfg.prepared then refuse .notPrepared
    else if !s.P.valid then refuse .noSnapshot
    else if !admitFrame O.num frame then refuse .badSample
    else admittedStep O lanes frame s

/-- STEP (R248). -/
def execStep (frame : List F) (s : State) : Result := stepOp machineParams frame s

end Sys2Proof.Machine
end

