-- ==== Sys2Proof/Machine/Dispatch.lean ====
section
/-! DEFINITION. One arm per instruction, each a direct call of its meaning. -/

namespace Sys2Proof.Machine

def exec (i : Instr) (s : State) : Host.Outcome State Fault Refusal :=
  match i with
  -- host commands (R111)
  | .prepare sr mbs => Sys2Proof.Machine.execPrepare sr mbs s
  | .reset => Sys2Proof.Machine.execReset s
  | .loadp t w1 w2 w3 w4 w5 w6 => Sys2Proof.Machine.execLoadp t w1 w2 w3 w4 w5 w6 s
  | .step frame => Sys2Proof.Machine.execStep frame s
  -- micro-operations (R112)
  | .env => Sys2Proof.Machine.execEnv s
  | .var => Sys2Proof.Machine.execVar s
  | .lfo => Sys2Proof.Machine.execLfo s
  | .dmod => Sys2Proof.Machine.execDmod s
  | .fcoef => Sys2Proof.Machine.execFcoef s
  | .dwr c => Sys2Proof.Machine.execDwr c s
  | .drd c => Sys2Proof.Machine.execDrd c s
  | .fmix c => Sys2Proof.Machine.execFmix c s
  | .trem c => Sys2Proof.Machine.execTrem c s
  | .wadv => Sys2Proof.Machine.execWadv s

end Sys2Proof.Machine
end

