-- ==== Sys2Proof/Machine/Fetch.lean ====
section
/-! DEFINITION. How the machine takes its next instruction.  The block has no program counter and no fetch (R39): commands
take effect in the order the host issues them, one at a time (R286). -/

namespace Sys2Proof.Machine

/-- Perform the command at the front of the host's byte stream.  Where no whole command has arrived the block is idle and
holds its state (R298). -/
def runHost (s : State) : Result :=
  match decode s.hostIn with
  | .command i rest => exec i (setHostIn s rest)
  | .incomplete => .next s
  | .reserved _ => refuse .reservedCommand

/-- Perform a micro-operation put to the datapath by its identifier (R112). -/
def runSlot (id : MicroId) (rest : List MicroId) (s : State) : Result :=
  match decodeMicro id with
  | some i => exec i (setSlots s rest)
  | none => refuse .reservedCommand

/-- One step: a micro-operation that was put to the datapath, else the host's next command. -/
def runNext (s : State) : Result :=
  match s.slots with
  | id :: rest => runSlot id rest s
  | [] => runHost s

/-- The result words of the last command as the bytes a transport carries, each word little-endian (R109). -/
def responseBytes (s : State) : List Byte := bytesOfWords s.response

/-- The state with an instruction, whose bits are `w`, next to be performed. -/
def placeWord (s : State) (nbits w : Nat) : State :=
  if isMicroWidth nbits then setSlots s [BitVec.ofNat 5 w]
  else setHostIn (setSlots s []) (tableBytes w)

end Sys2Proof.Machine
end

