-- ==== Sys2Proof/Machine/Step.lean ====
section
/-! DEFINITION. One step of the machine. -/

namespace Sys2Proof.Machine

/-- One step: the machine performs its next instruction (R286, R330: every command is one indivisible step). -/
def step (s : State) : Host.Outcome State Fault Refusal := runNext s

/-- The state with an instruction, whose bits are `w`, numbered as the opcode table numbers them, next to be
performed. -/
def State.withFetchWord (s : State) (nbits w : Nat) : State := placeWord s nbits w

end Sys2Proof.Machine
end

