-- ==== Sys2Proof/Config/Real.lean ====
section
/-! DEFINITION. The alternative instance `Num = real` (R17): the real numbers, every operation exact, `sin`, `tan`,
`exp2` the mathematical functions.  `exec` does not use it (log entry 1): the machine of
Sys2Proof/Machine/Generic.lean runs over it, and the rules derived "under `Num = real`" are statements about the same
datapath functions at this instance. -/

namespace Sys2Proof

/-- A literal as a real number; `PI` and `TWO_PI` are exactly π and 2π (R17). -/
noncomputable def realLit (l : Lit) : ℝ :=
  match l.decimal with
  | some (p, q) => (p : ℝ) / (q : ℝ)
  | none => if l = .pi then Real.pi else 2 * Real.pi

/-- `Num = real` (R17).  R15 and R22 ask for total functions, and the mathematics gives no value to a quotient by 0 or to
`tan` at an odd multiple of π/2: that both are 0 there, as Mathlib has it, is a DESIGN CHOICE, unsafe for a claim at such
an argument (log entry 19); legal inputs never meet one (R284). -/
noncomputable def realNum : Num ℝ where
  lit := realLit
  add a b := a + b
  sub a b := a - b
  mul a b := a * b
  div a b := a / b
  lt a b := decide (a < b)
  le a b := decide (a ≤ b)
  eq a b := decide (a = b)
  ofInt n := (n : ℝ)
  floorInt x := ⌊x⌋
  truncInt x := if 0 ≤ x then ⌊x⌋ else ⌈x⌉
  sin := Real.sin
  tan := Real.tan
  exp2 x := (2 : ℝ) ^ x
  finite _ := true

/-- The machine's parameters over the reals: the defaults of R8 in exact arithmetic.  A phase needs as many turns of the
wrap as its integer part says (log entry 11). -/
noncomputable def realParams : OpenParams ℝ (BitVec 32) where
  num := realNum
  rng := Machine.lcg realNum
  resetReseedsRng := false
  srMin := realLit .srMin
  srMax := realLit .srMax
  wrapTurns x := ⌊x⌋.toNat

end Sys2Proof
end

