-- ==== Sys2Proof/Machine/Generic.lean ====
section
/-! DEFINITION. The machine over any open parameters (R8): any value type and arithmetic (R15), any variation source with
any state type (R145).  With a value type that has no bit encoding, such as the reals, a command is a record (R100, R107);
with 32-bit patterns it is an instruction, and the machine takes the host's bytes. -/

namespace Sys2Proof.Machine

variable {α σ : Type}

/-! ### Commands as records -/

/-- The commands of R100 over a value type. -/
inductive Cmd (α : Type) where
  | prepare (sampleRate : α) (maxBlockSize : Word)
  | reset
  | loadp (triggered : Bool) (onsetMs rateHz pitchCents amplitudePct formantPct variationPct : α)
  /-- `nch` is the length of the frame. -/
  | step (frame : List α)
  deriving DecidableEq, Repr

/-- Perform a command over given parameters (R242, R244, R246, R248). -/
def cmdWith [DecidableEq α] [Inhabited α] (O : OpenParams α σ) (i : Cmd α) (s : Gen.State α σ) : Gen.Result α σ :=
  match i with
  | .prepare sr mbs => prepareOp O sr mbs s
  | .reset => .next (resetOp O s)
  | .loadp t w1 w2 w3 w4 w5 w6 => loadpOp O (snapshotOf t w1 w2 w3 w4 w5 w6) s
  | .step frame => stepOp O frame s

/-- Perform the commands of a list in order; a fault or a refusal ends the run.  A run of the machine starts at
`powerOn O` (R311). -/
def runCmds [DecidableEq α] [Inhabited α] (O : OpenParams α σ) : List (Cmd α) → Gen.State α σ → Gen.Result α σ
  | [], s => .next s
  | i :: is, s => andThen (cmdWith O i s) (runCmds O is)

/-! ### Instructions and bytes -/

/-- `exec` with the open parameters as an argument. -/
def execWith (O : OpenParams F σ) (i : Instr) (s : Gen.State F σ) : Gen.Result F σ :=
  match i with
  | .prepare sr mbs => cmdWith O (.prepare sr mbs) s
  | .reset => cmdWith O .reset s
  | .loadp t w1 w2 w3 w4 w5 w6 => cmdWith O (.loadp t w1 w2 w3 w4 w5 w6) s
  | .step frame => cmdWith O (.step frame) s
  | .env => .next (envOp O s)
  | .var => .next (varOp O s)
  | .lfo => lfoOp O s
  | .dmod => .next (dmodOp O s)
  | .fcoef => .next (fcoefOp O s)
  | .dwr c => .next (dwrOp c s)
  | .drd c => .next (drdOp O c s)
  | .fmix c => .next (fmixOp O c s)
  | .trem c => .next (tremOp O c s)
  | .wadv => .next (wadvOp s)

/-- Perform a list of instructions in order. -/
def execAllWith (O : OpenParams F σ) : List Instr → Gen.State F σ → Gen.Result F σ
  | [], s => .next s
  | i :: is, s => andThen (execWith O i s) (execAllWith O is)

/-- `step` with the open parameters as an argument. -/
def stepWith (O : OpenParams F σ) (s : Gen.State F σ) : Gen.Result F σ :=
  match s.slots with
  | id :: rest =>
    match decodeMicro id with
    | some i => execWith O i (setSlots s rest)
    | none => refuse .reservedCommand
  | [] =>
    match decode s.hostIn with
    | .command i rest => execWith O i (setHostIn s rest)
    | .incomplete => .next s
    | .reserved _ => refuse .reservedCommand

end Sys2Proof.Machine
end

