-- ==== Sys2Proof/Machine/Reference.lean ====
section
/-! DEFINITION. The parameters the vectors of `95_test_vectors.md` are evaluated with: the default `sin`, `tan` and
`exp2` of R22, each the real function of the exact argument rounded once to nearest even.  `exec` and `step` do not use
them (log entry 2): they are for running the machine of Sys2Proof/Machine/Generic.lean against the vectors.

The functions are computed in fixed point with 512 fraction bits. -/

namespace Sys2Proof.Machine

/-! R22 gives the default functions for an argument that is a real number.  At a NaN and at an infinity, and for which zero
`sin` and `tan` give at a zero, it states no bits: what the three functions below give there is a DESIGN CHOICE, safe (log
entry 18). -/

/-! ### Fixed point with 512 fraction bits -/

def fixBits : Nat := 512

/-- π · 2^512, rounded down. -/
def fixPi : Int := 0x3243f6a8885a308d313198a2e03707344a4093822299f31d0082efa98ec4e6c89452821e638d01377be5466cf34e90c6cc0ac29b7c97c50dd3f84d5b5b5470917

/-- ln 2 · 2^512, rounded down. -/
def fixLn2 : Int := 0xb17217f7d1cf79abc9e3b39803f2f6af40f343267298b62d8a0d175b8baafa2be7b876206debac98559552fb4afa1b10ed2eae35c138214427573b291169b825

/-- A finite value in fixed point; exact, since a value is a multiple of `2^-149`. -/
def fixOf (x : F) : Int := f32Val x * 2 ^ (fixBits - 149)

def fixMul (a b : Int) : Int := a * b / 2 ^ fixBits

/-- A sum of the terms `t`, `-t·r²/((n+1)(n+2))`, ... of the sine or cosine series. -/
def fixSeries (r2 : Int) : Nat → Nat → Int → Int
  | 0, _, _ => 0
  | k + 1, n, t => t + fixSeries r2 k (n + 2) (-(fixMul t r2) / ((n + 1) * (n + 2) : Nat))

/-- The sum of the terms `t`, `t·r/(n+1)`, ... of the exponential series. -/
def fixExpSeries (r : Int) : Nat → Nat → Int → Int
  | 0, _, _ => 0
  | k + 1, n, t => t + fixExpSeries r k (n + 1) (fixMul t r / (n + 1 : Nat))

/-- The argument reduced to `[-π, π)`. -/
def fixReduce (x : Int) : Int := (x + fixPi) % (2 * fixPi) - fixPi

def fixSin (r : Int) : Int := fixSeries (fixMul r r) 80 1 r

def fixCos (r : Int) : Int := fixSeries (fixMul r r) 80 0 (2 ^ fixBits)

/-- The value of a fixed-point quotient rounded once. -/
def fixRound (n d : Int) : F := f32Round (decide (n < 0) != decide (d < 0)) (n.natAbs * 2 ^ 149) d.natAbs

/-- `sin`, correctly rounded (R22).  DESIGN CHOICE (log entry 18): the NaN 0x7FC00000 at a NaN and at an infinity, and a
zero argument itself at a zero, so `-0` at `-0`. -/
def refSin (x : F) : F :=
  if !f32Finite x then 0x7FC00000
  else if f32IsZero x then x
  else fixRound (fixSin (fixReduce (fixOf x))) (2 ^ fixBits)

/-- `tan`, correctly rounded (R22).  DESIGN CHOICE (log entry 18): the NaN 0x7FC00000 at a NaN and at an infinity, and a
zero argument itself at a zero, so `-0` at `-0`. -/
def refTan (x : F) : F :=
  if !f32Finite x then 0x7FC00000
  else if f32IsZero x then x
  else fixRound (fixSin (fixReduce (fixOf x))) (fixCos (fixReduce (fixOf x)))

/-- `2^n · e` where `e` is in fixed point, rounded once. -/
def fixScale (e : Int) (n : Int) : F :=
  f32Round false (e.natAbs * 2 ^ (149 + n).toNat) (2 ^ fixBits * 2 ^ (-(149 + n)).toNat)

/-- `exp2`, correctly rounded (R22): from 128 on the result overflows to infinity, and from -151 down it rounds to `+0`
(R16).  DESIGN CHOICE (log entry 18): the NaN 0x7FC00000 at a NaN, infinity at plus infinity, `+0` at minus infinity. -/
def refExp2 (x : F) : F :=
  if f32IsNaN x then 0x7FC00000
  else if f32Ord x ≥ f32Ord 0x43000000 then f32PosInf
  else if f32Ord x ≤ f32Ord 0xC3170000 then 0
  else fixScale (fixExpSeries (fixMul (fixOf x % 2 ^ fixBits) fixLn2) 110 0 (2 ^ fixBits)) (fixOf x / 2 ^ fixBits)

/-- The default functions of R22, and one choice for every other free value: the NaN 0x7FC00000 from an invalid operation,
and 0 from a conversion of a value that is not finite.  DESIGN CHOICE (log entry 18). -/
def referenceFns : FreeFns where
  sin := refSin
  tan := refTan
  exp2 := refExp2

/-- The parameters of the vectors of `95_test_vectors.md`. -/
def referenceParams : OpenParams F (BitVec 32) := defaultParams referenceFns

end Sys2Proof.Machine
end

