-- ==== Sys2Proof/Safety.lean ====
section
/-! DEFINITION. What counts as a safe state, in the terms the statements use: the legal ranges of the registers (R31 to
R42, R55) and the form every state between two commands has. -/

namespace Sys2Proof.Machine

/-- `lo <= x <= hi`; false of a NaN. -/
def within (lo hi x : F) : Bool := f32Le lo x && f32Le x hi

/-- `[0, 1]`. -/
def unitRange (x : F) : Bool := within 0x00000000 0x3F800000 x

/-- `[-1, 1]`. -/
def signedUnit (x : F) : Bool := within 0xBF800000 0x3F800000 x

/-- `[0, 1)`. -/
def phaseRange (x : F) : Bool := f32Le 0x00000000 x && f32Lt x 0x3F800000

/-- A sample rate in `[8000, 384000]` (R42, with the defaults of R8). -/
def legalRate (x : F) : Bool := within 0x45FA0000 0x48BB8000 x

/-- A snapshot with every field in its legal range (R41). -/
def legalSnapshot (p : ParamRegs F) : Bool :=
  within 0x41200000 0x44FA0000 p.onsetMs && within 0x3F000000 0x41700000 p.rateHz
  && within 0x00000000 0x43480000 p.pitchCents && within 0x00000000 0x42C80000 p.amplitudePct
  && within 0x00000000 0x42C80000 p.formantPct && within 0x00000000 0x42C80000 p.variationPct

/-- The registers of the EngineState are in the ranges of R55. -/
def engineRanges (s : State) : Prop :=
  unitRange s.envelope = true ∧ phaseRange s.lfoPhase = true
  ∧ signedUnit s.variationSmoothed = true ∧ signedUnit s.variationTarget = true
  ∧ (0 ≤ s.variationCountdown.toInt ∧ s.variationCountdown.toInt ≤ varPeriod machineParams.num s.cfg.sampleRate)
  ∧ (0 ≤ s.formantUpdateCounter.toInt ∧ s.formantUpdateCounter.toInt ≤ 32)

/-- The range invariant between commands (R55): once the block is READY its rate is legal and its registers are in
range, and a loaded snapshot is legal.  Nothing is said of a register before PREPARE or LOADP has written it. -/
def rangeInv (s : State) : Prop :=
  s.slots = [] ∧ (s.cfg.prepared = true → legalRate s.cfg.sampleRate = true ∧ engineRanges s)
  ∧ (s.P.valid = true → legalSnapshot s.P = true)

/-- Both lanes hold the same coefficients (R50, R209). -/
def lanesAgree (p : PerLane (Bank F)) : Prop :=
  p.l0.f0.co = p.l1.f0.co ∧ p.l0.f1.co = p.l1.f1.co ∧ p.l0.f2.co = p.l1.f2.co

/-- The form of a state between commands: nothing of a STEP is under way (R248, R53), the memory is in canonical form,
both lanes have one coefficient set, and a READY block's memory has been zeroed since power-on (R313). -/
def formInv (s : State) : Prop :=
  s.slots = [] ∧ s.wires = .idle 0 ∧ memoryWf s.delayBuffer = true ∧ lanesAgree s.filt
  ∧ (s.cfg.prepared = true → s.delayBuffer.l0.fill = some 0 ∧ s.delayBuffer.l1.fill = some 0)

end Sys2Proof.Machine
end

