-- ==== Sys2Proof/Certificates/Slice0/Obligations.lean ====
section
/-! DEFINITION. The statements for the provers.  `M` is the machine's numerics; results are written with the primitive
operations of R15 and the literals of R7, not with the model's own datapath functions, so that a statement is the spec's
pseudocode and not the model's text. -/

namespace Sys2Proof.Claims

open Sys2Proof Sys2Proof.Machine

/-! ### Notation of the statements -/

/-- The machine's numerics (R15, R16). -/
abbrev M : Num F := machineParams.num

/-- A literal's value (R7, R19). -/
abbrev K (l : Lit) : F := M.lit l

/-- `max(a, b)` is `if a < b then b else a` (R20). -/
def pMax (N : Num F) (a b : F) : F := if N.lt a b = true then b else a

/-- `min(a, b)` is `if b < a then b else a` (R20). -/
def pMin (N : Num F) (a b : F) : F := if N.lt b a = true then b else a

/-- `clamp(x, lo, hi)` is `min(max(x, lo), hi)` (R20). -/
def pClamp (N : Num F) (x lo hi : F) : F := pMin N (pMax N x lo) hi

/-- `1 / max(1, (P.onsetMs / 1000) * sampleRate)` (R47). -/
def pAttack (N : Num F) (s : State) : F :=
  N.div (N.lit .one) (pMax N (N.lit .one) (N.mul (N.div s.P.onsetMs (N.lit .msPerSec)) s.cfg.sampleRate))

/-- `1 / max(1, 0.015 * sampleRate)` (R48). -/
def pRelease (N : Num F) (s : State) : F :=
  N.div (N.lit .one) (pMax N (N.lit .one) (N.mul (N.lit .releaseSec) s.cfg.sampleRate))

/-- `P.xPct / 100` (R44, R45, R46). -/
def pAmount (N : Num F) (pct : F) : F := N.div pct (N.lit .hundred)

/-- `trunc_int(sampleRate * 0.04)` (R49). -/
def pPeriod (N : Num F) (s : State) : Int := N.truncInt (N.mul s.cfg.sampleRate (N.lit .varSec))

/-- `vmod = variationSmoothed * variationAmt` (R156). -/
def pVmod (N : Num F) (s : State) : F := N.mul s.variationSmoothed (pAmount N s.P.variationPct)

/-- `effectiveRate = max(P.rateHz * (1 + vmod * 0.25), 0.01)` (R156). -/
def pRate (N : Num F) (s : State) : F :=
  pMax N (N.mul s.P.rateHz (N.add (N.lit .one) (N.mul (pVmod N s) (N.lit .rateDepth)))) (N.lit .rateFloor)

/-- `lfoPhase + effectiveRate / sampleRate` (R156). -/
def pAdvance (N : Num F) (s : State) : F := N.add s.lfoPhase (N.div (pRate N s) s.cfg.sampleRate)

/-- `lfo = clamp(sin(TWO_PI * lfoPhase) + vmod * 0.15, -1, 1)` of a phase after the wrap (R156). -/
def pWave (N : Num F) (s : State) (phase : F) : F :=
  pClamp N (N.add (N.sin (N.mul (N.lit .twoPi) phase)) (N.mul (pVmod N s) (N.lit .skew))) (N.lit .negOne) (N.lit .one)

/-- `x - 1`, one turn of the phase wrap (R156). -/
def pTurn (N : Num F) (x : F) : F := N.sub x (N.lit .one)

/-- `effPitch = max(P.pitchCents * (1 + vmod * 0.15), 0)` (R171). -/
def pPitch (N : Num F) (s : State) : F :=
  pMax N (N.mul s.P.pitchCents (N.add (N.lit .one) (N.mul s.wires.vmod (N.lit .skew)))) (N.lit .zero)

/-- `modAmp = ((exp2(effPitch / 1200) - 1) * sampleRate) / (TWO_PI * effectiveRate)` (R171). -/
def pModAmp (N : Num F) (s : State) : F :=
  N.div (N.mul (N.sub (N.exp2 (N.div (pPitch N s) (N.lit .centsPerOctave))) (N.lit .one)) s.cfg.sampleRate)
    (N.mul (N.lit .twoPi) s.wires.effectiveRate)

/-- `delayMod` (R171). -/
def pDelayMod (N : Num F) (s : State) : F :=
  if N.lt (N.lit .zero) s.P.pitchCents = true ∧ N.lt (N.lit .zero) s.wires.effectiveRate = true then
    N.mul (N.mul s.wires.lfo (pModAmp N s)) s.envelope
  else N.lit .zero

/-- `readPos` after the conditional addition of 4096 (R177). -/
def pReadPos (N : Num F) (s : State) : F :=
  if N.lt (N.sub (N.ofInt (s.writePos.toNat : Int)) s.wires.totalDelay) (N.lit .zero) = true then
    N.add (N.sub (N.ofInt (s.writePos.toNat : Int)) s.wires.totalDelay) (N.lit .bufSizeF)
  else N.sub (N.ofInt (s.writePos.toNat : Int)) s.wires.totalDelay

/-- `((c3 * frac + c2) * frac + c1) * frac + c0` with the coefficients of R177, over any numerics. -/
def pCubic {α : Type} (N : Num α) (ym1 y0 y1 y2 frac : α) : α :=
  let c0 := y0
  let c1 := N.mul (N.lit .half) (N.sub y1 ym1)
  let c2 := N.sub (N.add (N.sub ym1 (N.mul (N.lit .twoAndHalf) y0)) (N.mul (N.lit .two) y1)) (N.mul (N.lit .half) y2)
  let c3 := N.add (N.mul (N.lit .half) (N.sub y2 ym1)) (N.mul (N.lit .oneAndHalf) (N.sub y0 y1))
  N.add (N.mul (N.add (N.mul (N.add (N.mul c3 frac) c2) frac) c1) frac) c0

/-- `i` of R177. -/
def pIndex (N : Num F) (s : State) : Int := N.floorInt (pReadPos N s)

/-- `delayed[c]` of R177 in a state. -/
def pDelayed (N : Num F) (s : State) (c : Lane) : F :=
  pCubic N (memRead s c (pIndex N s - 1)) (memRead s c (pIndex N s)) (memRead s c (pIndex N s + 1))
    (memRead s c (pIndex N s + 2)) (N.sub (pReadPos N s) (N.ofInt (pIndex N s)))

/-- The coefficients of one filter at a refresh (R201). -/
def pCoeffs (N : Num F) (s : State) (base : F) : Coeffs F :=
  let depth := N.mul (pAmount N s.P.formantPct) s.envelope
  let freqMult := pMax N (N.add (N.lit .one) (N.mul (N.mul s.wires.lfo depth) (N.lit .formantDepth))) (N.lit .freqFloor)
  let fc := pClamp N (N.mul base freqMult) (N.lit .cutoffMin) (N.mul (N.lit .cutoffFrac) s.cfg.sampleRate)
  let g := N.tan (N.div (N.mul (N.lit .pi) fc) s.cfg.sampleRate)
  let k := N.div (N.lit .one) (N.lit .formantQ)
  let a1 := N.div (N.lit .one) (N.add (N.lit .one) (N.mul g (N.add g k)))
  let a2 := N.mul g a1
  let a3 := N.mul g a2
  { a1 := a1, a2 := a2, a3 := a3 }

/-- One lane's bank with new coefficients and its states as they were (R201). -/
def pRefreshed (N : Num F) (s : State) (b : Bank F) : Bank F where
  f0 := { b.f0 with co := pCoeffs N s (N.lit .freq0) }
  f1 := { b.f1 with co := pCoeffs N s (N.lit .freq1) }
  f2 := { b.f2 with co := pCoeffs N s (N.lit .freq2) }

/-- `svf_tick` on one filter: the band output and the filter after it (R207). -/
def pTick (N : Num F) (k : Machine.Filter F) (x : F) : F × Machine.Filter F :=
  let v3 := N.sub x k.s2
  let v1 := N.add (N.mul k.co.a1 k.s1) (N.mul k.co.a2 v3)
  let v2 := N.add (N.add k.s2 (N.mul k.co.a2 k.s1)) (N.mul k.co.a3 v3)
  (v1, { k with s1 := N.sub (N.mul (N.lit .two) v1) k.s1, s2 := N.sub (N.mul (N.lit .two) v2) k.s2 })

/-- `formantActive` (R40, R205). -/
def pFormantActive (N : Num F) (s : State) : Prop :=
  N.lt (N.lit .zero) s.P.formantPct = true ∧ N.lt (N.lit .gate) s.envelope = true

/-- `ampMod = 1 - ((amplitudeAmt * envelope) * (1 - lfo)) * 0.5` (R231). -/
def pAmpMod (N : Num F) (s : State) : F :=
  N.sub (N.lit .one)
    (N.mul (N.mul (N.mul (pAmount N s.P.amplitudePct) s.envelope) (N.sub (N.lit .one) s.wires.lfo)) (N.lit .half))

/-- The EngineState zeroed as R244 lists it, with `z` for the zero; everything else as it was. -/
def pZeroed {α σ : Type} (z : α) (s : Gen.State α σ) : Gen.State α σ :=
  { s with
    delayBuffer := { l0 := .zeroed z, l1 := .zeroed z }
    writePos := 0
    lfoPhase := z
    envelope := z
    variationSmoothed := z
    variationTarget := z
    variationCountdown := 0
    filt := { l0 := .zero z, l1 := .zero z }
    formantUpdateCounter := 0 }

/-- `exec` along a list of instructions; a fault or a refusal ends it. -/
def execAll : List Instr → State → Result
  | [], s => .next s
  | i :: is, s =>
    match exec i s with
    | .next t => execAll is t
    | .fault f => .fault f
    | .refused r => .refused r

/-- The wires at the start of a STEP with a frame: the samples on the inputs, everything else idle (R248). -/
def pFrameWires (frame : List F) : Wires F :=
  { Wires.idle 0 with input := { l0 := frame.getD 0 0, l1 := frame.getD 1 0 } }

/-- The end of a STEP: the outputs returned, the wires idle (R248, R53). -/
def pReturn (lanes : List Lane) (r : Result) : Result :=
  match r with
  | .next t => .next { t with response := lanes.map t.wires.out.get, wires := .idle 0 }
  | .fault f => .fault f
  | .refused q => .refused q

/-- A lane takes part in a STEP with a frame: `c < nch` (R175). -/
def pActive (frame : List F) : Lane → Prop
  | .lane0 => 1 ≤ frame.length
  | .lane1 => 2 ≤ frame.length

/-- The sample of a lane in a frame. -/
def pSample (frame : List F) : Lane → F
  | .lane0 => frame.getD 0 0
  | .lane1 => frame.getD 1 0

/-- The result word of a lane in a response. -/
def pOut (response : List F) : Lane → F
  | .lane0 => response.getD 0 0
  | .lane1 => response.getD 1 0

/-- The registers the lanes share hold the same values (R250). -/
def pSameShared (t u : State) : Prop :=
  t.envelope = u.envelope ∧ t.lfoPhase = u.lfoPhase ∧ t.writePos = u.writePos
  ∧ t.variationSmoothed = u.variationSmoothed ∧ t.variationTarget = u.variationTarget
  ∧ t.variationCountdown = u.variationCountdown ∧ t.formantUpdateCounter = u.formantUpdateCounter
  ∧ t.rngState = u.rngState

/-- The block is ready for a STEP (R290): prepared, with a snapshot. -/
def pReady (s : State) : Prop := s.cfg.prepared = true ∧ s.P.valid = true

/-- A frame a STEP admits (R105, R248). -/
def pFrameOk (frame : List F) : Prop :=
  (frame.length = 1 ∨ frame.length = 2) ∧ ∀ x ∈ frame, f32Finite x = true

/-- A sample of magnitude at most 2^100, far beyond audio samples and far from overflow (R284). -/
def pTame (x : F) : Prop := within 0xF1800000 0x71800000 x = true

/-- A zero of either sign (R23). -/
def pZero (x : F) : Prop := f32Eq x 0 = true

def isPrepare : Instr → Bool
  | .prepare _ _ => true
  | _ => false

def isLoadp : Instr → Bool
  | .loadp _ _ _ _ _ _ _ => true
  | _ => false

def isStep : Instr → Bool
  | .step _ => true
  | _ => false

/-- The length in words a command word announces (R106). -/
def pLength (cw : Word) : Option Nat :=
  if cw.extractLsb' 24 8 = (0x01 : BitVec 8) then some 3
  else if cw.extractLsb' 24 8 = (0x02 : BitVec 8) then some 1
  else if cw.extractLsb' 24 8 = (0x03 : BitVec 8) then some 7
  else if cw.extractLsb' 24 8 = (0x04 : BitVec 8) then some (1 + (cw.extractLsb' 0 2).toNat)
  else none

/-- The six legal command words (R110). -/
def pLegalWords : List Word := [0x01000000, 0x02000000, 0x03000000, 0x03000001, 0x04000001, 0x04000002]

/-- The table of micro-operation identifiers, `uuuuc` (R112). -/
def pMicroTable : List (MicroId × Instr) :=
  [(0b00000, .env), (0b00010, .var), (0b00100, .lfo), (0b00110, .dmod), (0b01000, .fcoef),
   (0b01010, .dwr .lane0), (0b01011, .dwr .lane1), (0b01100, .drd .lane0), (0b01101, .drd .lane1),
   (0b01110, .fmix .lane0), (0b01111, .fmix .lane1), (0b10000, .trem .lane0), (0b10001, .trem .lane1),
   (0b10010, .wadv)]

/-- The outcome with `cfg.maxBlockSize` replaced. -/
def pWithBlockSize (m : Word) : Result → Result
  | .next t => .next { t with cfg := { t.cfg with maxBlockSize := m } }
  | .fault f => .fault f
  | .refused r => .refused r

/-- Apply a function `n` times. -/
def iter {α : Type} (g : α → α) : Nat → α → α
  | 0, x => x
  | n + 1, x => iter g n (g x)

end Sys2Proof.Claims

open Sys2Proof Sys2Proof.Machine Sys2Proof.Claims

/-! ### Encoding -/

/-- R110: the six legal command words; every other word is reserved and refused. -/
def Obligations.ReservedWordsExactly : Prop :=
  (∀ (cw : Word) (rest : List Byte), decode (bytesOfWord cw ++ rest) = .reserved cw ↔ cw ∉ pLegalWords)
  ∧ ∀ (s : State) (cw : Word) (rest : List Byte), s.slots = [] → s.hostIn = bytesOfWord cw ++ rest →
      cw ∉ pLegalWords → step s = .refused .reservedCommand

/-- R102 to R105, R109: decoding the bytes of a command gives the command back and leaves the bytes after it. -/
def Obligations.CommandRoundTrip : Prop :=
  ∀ i : Instr, i.wellFormed = true → i.isCommand = true →
    ∃ bs, encode i = some bs ∧ ∀ rest, decode (bs ++ rest) = .command i rest

/-- R102 to R105: whatever decodes is the encoding of what it decodes to; no other bytes mean the same command. -/
def Obligations.DecodedBytesAreTheEncoding : Prop :=
  ∀ (bs : List Byte) (i : Instr) (rest : List Byte), decode bs = .command i rest →
    i.wellFormed = true ∧ i.isCommand = true ∧ ∃ e, encode i = some e ∧ bs = e ++ rest

/-- The spec's inference R106 (from R102 to R105): the command word alone gives the length.  That a command whose words
have not all arrived is not yet one is the model's reading of the host port (log entry 8). -/
def Obligations.CommandWordGivesLength : Prop :=
  ∀ (cw : Word) (n : Nat), cw ∈ pLegalWords → pLength cw = some n →
    (∀ ws : List Word, ws.length + 1 = n → ∃ i, ∀ rest, decode (bytesOfWords (cw :: ws) ++ rest) = .command i rest)
    ∧ ∀ more : List Byte, more.length + 4 < 4 * n → decode (bytesOfWord cw ++ more) = .incomplete

/-- R112: the identifiers name exactly the micro-operations of the table, no other identifier names anything, and no
micro-operation has a command encoding. -/
def Obligations.MicroIdsExactly : Prop :=
  (∀ (id : MicroId) (i : Instr), decodeMicro id = some i ↔ (id, i) ∈ pMicroTable)
  ∧ (∀ (i : Instr) (id : MicroId), encodeMicro i = some id ↔ (id, i) ∈ pMicroTable)
  ∧ (∀ id : MicroId, decodeMicro id = none ↔
      10 ≤ id.toNat / 2 ∨ (id.toNat % 2 = 1 ∧ ¬ (5 ≤ id.toNat / 2 ∧ id.toNat / 2 ≤ 8)))
  ∧ ∀ (id : MicroId) (i : Instr), (id, i) ∈ pMicroTable → encode i = none

/-- Words of R102 to R105 and identifiers of R112 written out from the spec. -/
def Obligations.SpecWordsDecode : Prop :=
  decodeTableWord 32 0x01000000 = some (.prepare 0 0)
  ∧ decodeTableWord 32 0x02000000 = some .reset
  ∧ decodeTableWord 32 0x03000001 = some (.loadp true 0 0 0 0 0 0)
  ∧ decodeTableWord 32 0x04000002 = some (.step [0, 0])
  ∧ decodeTableWord 32 0x04000000 = none
  ∧ decodeTableWord 8 0x08 = some .fcoef
  ∧ decodeTableWord 8 0x0D = some (.drd .lane1)
  ∧ decodeTableWord 8 0x13 = none

/-! ### The step -/

/-- R286, R298: a step performs the next instruction, and with none the block holds its state.  That the host's commands
come as a byte stream, and that a micro-operation can be put to the datapath on its own, are the model's choices (log
entries 8 and 9). -/
def Obligations.StepRunsNextInstruction : Prop :=
  ∀ s : State,
    (∀ i rest, s.slots = [] → decode s.hostIn = .command i rest → i.wellFormed = true →
      step s = exec i { s with hostIn := rest })
    ∧ (s.slots = [] → decode s.hostIn = .incomplete → step s = .next s)
    ∧ (∀ cw, s.slots = [] → decode s.hostIn = .reserved cw → step s = .refused .reservedCommand)
    ∧ (∀ id ids i, s.slots = id :: ids → decodeMicro id = some i → step s = exec i { s with slots := ids })
    ∧ (∀ id ids, s.slots = id :: ids → decodeMicro id = none → step s = .refused .reservedCommand)

/-! ### Host commands -/

/-- R242: PREPARE records its operands and performs RESET, or is refused.  That the generator stays as it was and that
the bounds are 8000 and 384000 are the model's choice of the open parameters `RESET_RESEEDS_RNG`, `SR_MIN` and `SR_MAX`
(log entry 4). -/
def Obligations.PrepareResult : Prop :=
  ∀ (sr : F) (mbs : Word) (s : State),
    ((f32Finite sr = true ∧ M.le (K .srMin) sr = true ∧ M.le sr (K .srMax) = true) →
      exec (.prepare sr mbs) s =
        .next { pZeroed 0 s with cfg := { prepared := true, sampleRate := sr, maxBlockSize := mbs }, response := [] })
    ∧ (¬ (f32Finite sr = true ∧ M.le (K .srMin) sr = true ∧ M.le sr (K .srMax) = true) →
      exec (.prepare sr mbs) s = .refused .badSampleRate)

/-- R244: RESET zeroes the EngineState and nothing else; over any open parameters it sets the generator to the seed
exactly where `RESET_RESEEDS_RNG`.  That the machine's own RESET leaves the generator is the model's choice of that
parameter (log entry 4). -/
def Obligations.ResetResult : Prop :=
  (∀ s : State, exec .reset s = .next { pZeroed 0 s with response := [] })
  ∧ (∀ s t : State, exec .reset s = .next t → ∀ (c : Lane) (j : Int), memRead t c j = 0)
  ∧ ∀ (α σ : Type) [DecidableEq α] [Inhabited α] (O : OpenParams α σ) (s : Gen.State α σ), cmdWith O .reset s =
      .next { pZeroed (O.num.lit .zero) s with
        response := []
        rngState := if O.resetReseedsRng = true then O.rng.seed else s.rngState }

/-- R246: LOADP writes the seven fields and `P.valid`, or is refused. -/
def Obligations.LoadpResult : Prop :=
  ∀ (t : Bool) (w1 w2 w3 w4 w5 w6 : F) (s : State),
    (legalSnapshot (snapshotOf t w1 w2 w3 w4 w5 w6) = true →
      exec (.loadp t w1 w2 w3 w4 w5 w6) s =
        .next { s with
          P := { valid := true, triggered := t, onsetMs := w1, rateHz := w2, pitchCents := w3, amplitudePct := w4,
                 formantPct := w5, variationPct := w6 }
          response := [] })
    ∧ (legalSnapshot (snapshotOf t w1 w2 w3 w4 w5 w6) = false →
      exec (.loadp t w1 w2 w3 w4 w5 w6) s = .refused .badParameter)

/-- R290, R283, R286: where STEP is refused, and for which reason; the reasons in the order of the table of R283.  That a
STEP record of no legal length, which no command word decodes to, is refused with `reserved_command` is the model's
inference (log entry 16). -/
def Obligations.StepRefusals : Prop :=
  ∀ (frame : List F) (s : State),
    (frame.length ≠ 1 ∧ frame.length ≠ 2 → exec (.step frame) s = .refused .reservedCommand)
    ∧ (frame.length = 1 ∨ frame.length = 2 → s.cfg.prepared = false → exec (.step frame) s = .refused .notPrepared)
    ∧ (frame.length = 1 ∨ frame.length = 2 → s.cfg.prepared = true → s.P.valid = false →
        exec (.step frame) s = .refused .noSnapshot)
    ∧ (frame.length = 1 ∨ frame.length = 2 → pReady s → (∃ x ∈ frame, f32Finite x = false) →
        exec (.step frame) s = .refused .badSample)

/-- R248: a STEP of a READY block with a snapshot and finite samples completes and returns one result word per lane. -/
def Obligations.StepCompletes : Prop :=
  ∀ (frame : List F) (s : State), rangeInv s → pReady s → pFrameOk frame →
    ∃ t, exec (.step frame) s = .next t ∧ t.response.length = frame.length ∧ t.writePos = s.writePos + 1
      ∧ t.cfg = s.cfg ∧ t.P = s.P ∧ t.wires = .idle 0

/-- R248, R250: an admitted STEP is its micro-operations in the order of the schedule, then the return of the outputs. -/
def Obligations.StepRunsSchedule : Prop :=
  ∀ s : State, pReady s →
    (∀ x0 : F, f32Finite x0 = true → exec (.step [x0]) s =
      pReturn [.lane0] (execAll
        [.env, .var, .lfo, .dmod, .fcoef, .dwr .lane0, .drd .lane0, .fmix .lane0, .trem .lane0, .wadv]
        { s with wires := pFrameWires [x0] }))
    ∧ (∀ x0 x1 : F, f32Finite x0 = true → f32Finite x1 = true → exec (.step [x0, x1]) s =
      pReturn [.lane0, .lane1] (execAll
        [.env, .var, .lfo, .dmod, .fcoef, .dwr .lane0, .drd .lane0, .fmix .lane0, .trem .lane0,
         .dwr .lane1, .drd .lane1, .fmix .lane1, .trem .lane1, .wadv]
        { s with wires := pFrameWires [x0, x1] }))

/-- R248: what a STEP leaves unchanged, and where it stores: one word per active lane, at `writePos`. -/
def Obligations.StepFrame : Prop :=
  ∀ (frame : List F) (s t : State), memoryWf s.delayBuffer = true → exec (.step frame) s = .next t →
    t.cfg = s.cfg ∧ t.P = s.P ∧ t.hostIn = s.hostIn ∧ t.slots = s.slots ∧ t.wires = .idle 0
    ∧ t.writePos = s.writePos + 1
    ∧ (∀ (c : Lane) (j : Int), pActive frame c → maskIndex j = s.writePos.toNat → memRead t c j = pSample frame c)
    ∧ (∀ (c : Lane) (j : Int), ¬ (pActive frame c ∧ maskIndex j = s.writePos.toNat) →
        memRead t c j = memRead s c j)
    ∧ (M.lt (K .zero) s.P.variationPct = false →
        t.rngState = s.rngState ∧ t.variationTarget = s.variationTarget ∧ t.variationCountdown = s.variationCountdown)

/-- The spec's inference R87 (from R73 and R181), and R206: a STEP with one channel leaves lane 1's memory and filter states as they were, and `writePos` advances. -/
def Obligations.IdleLaneHolds : Prop :=
  ∀ (x0 : F) (s t : State), exec (.step [x0]) s = .next t →
    t.delayBuffer.l1 = s.delayBuffer.l1 ∧ t.writePos = s.writePos + 1
    ∧ (∀ f, (bankGet t.filt.l1 f).s1 = (bankGet s.filt.l1 f).s1 ∧ (bankGet t.filt.l1 f).s2 = (bankGet s.filt.l1 f).s2)

/-- The spec's inference R81 (from R70 and R250): nothing of a lane, its memory, its filters or its sample, reaches the
other lane's output, memory or filters, or the shared registers. -/
def Obligations.LanesNeverReachEachOther : Prop :=
  ∀ (x0 x1 y : F) (s t u : State) (m : DelayMem F) (b : Bank F), exec (.step [x0, x1]) s = .next t →
    (exec (.step [x0, y]) { s with delayBuffer := { s.delayBuffer with l1 := m }, filt := { s.filt with l1 := b } }
        = .next u →
      pOut t.response .lane0 = pOut u.response .lane0 ∧ t.delayBuffer.l0 = u.delayBuffer.l0 ∧ t.filt.l0 = u.filt.l0
      ∧ pSameShared t u)
    ∧ (exec (.step [y, x1]) { s with delayBuffer := { s.delayBuffer with l0 := m }, filt := { s.filt with l0 := b } }
        = .next u →
      pOut t.response .lane1 = pOut u.response .lane1 ∧ t.delayBuffer.l1 = u.delayBuffer.l1 ∧ t.filt.l1 = u.filt.l1
      ∧ pSameShared t u)

/-- The spec's inference R209 (from R201 and R205): with equal inputs and equal histories the two lanes produce equal
outputs. -/
def Obligations.EqualLanesStayEqual : Prop :=
  ∀ (x : F) (s t : State), s.delayBuffer.l0 = s.delayBuffer.l1 → s.delayBuffer.l0.cleared = true →
    s.filt.l0 = s.filt.l1 → exec (.step [x, x]) s = .next t →
    pOut t.response .lane0 = pOut t.response .lane1 ∧ t.delayBuffer.l0 = t.delayBuffer.l1 ∧ t.filt.l0 = t.filt.l1

/-- The spec's inference R254 (from R246 and R248): a LOADP of the snapshot already loaded changes nothing a STEP does. -/
def Obligations.BlockBoundariesInvisible : Prop :=
  ∀ (frame : List F) (s : State), s.P.valid = true → legalSnapshot s.P = true →
    ∃ t, exec (.loadp s.P.triggered s.P.onsetMs s.P.rateHz s.P.pitchCents s.P.amplitudePct s.P.formantPct
        s.P.variationPct) s = .next t
      ∧ t = { s with response := [] } ∧ exec (.step frame) t = exec (.step frame) s

/-! ### ENV -/

/-- R131: ENV. -/
def Obligations.EnvResult : Prop :=
  ∀ s : State, exec .env s = .next { s with
    envelope :=
      if s.P.triggered = true then pMin M (M.add s.envelope (pAttack M s)) (K .one)
      else pMax M (M.sub s.envelope (pRelease M s)) (K .zero) }

/-- The spec's inference R132 (from R131): on `[0, 1]` ENV computes the target form. -/
def Obligations.EnvIsTargetForm : Prop :=
  ∀ (s t : State), legalRate s.cfg.sampleRate = true → legalSnapshot s.P = true → unitRange s.envelope = true →
    exec .env s = .next t →
    f32Eq t.envelope
      (let target := if s.P.triggered = true then K .one else K .zero
       if M.lt s.envelope target = true then pMin M target (M.add s.envelope (pAttack M s))
       else if M.lt target s.envelope = true then pMax M target (M.sub s.envelope (pRelease M s))
       else s.envelope) = true

/-- The spec's inference R133 (from R131): ENV keeps the envelope in `[0, 1]`, and moves it toward its target only. -/
def Obligations.EnvKeepsRange : Prop :=
  ∀ s : State, legalRate s.cfg.sampleRate = true → legalSnapshot s.P = true → unitRange s.envelope = true →
    ∃ t, exec .env s = .next t ∧ unitRange t.envelope = true
      ∧ (s.P.triggered = true → M.le s.envelope t.envelope = true)
      ∧ (s.P.triggered = false → M.le t.envelope s.envelope = true)

/-! ### VAR -/

/-- R141, R142: VAR. -/
def Obligations.VarResult : Prop :=
  ∀ s : State,
    (M.lt (K .zero) s.P.variationPct = false → exec .var s = .next { s with variationSmoothed := K .zero })
    ∧ (M.lt (K .zero) s.P.variationPct = true → 0 < (s.variationCountdown - 1).toInt →
        exec .var s = .next { s with
          variationCountdown := s.variationCountdown - 1
          variationSmoothed := M.add s.variationSmoothed
            (M.mul (K .varCoef) (M.sub s.variationTarget s.variationSmoothed)) })
    ∧ (M.lt (K .zero) s.P.variationPct = true → (s.variationCountdown - 1).toInt ≤ 0 →
        exec .var s = .next { s with
          rngState := (machineParams.rng.next s.rngState).1
          variationTarget := (machineParams.rng.next s.rngState).2
          variationCountdown := BitVec.ofInt 32 (pPeriod M s)
          variationSmoothed := M.add s.variationSmoothed
            (M.mul (K .varCoef) (M.sub (machineParams.rng.next s.rngState).2 s.variationSmoothed)) })

/-- The spec's inference R144 (from R141 and R145): VAR keeps the smoothed value and the target in `[-1, 1]`; with the
machine's source, and with any source R145 allows. -/
def Obligations.VarKeepsRange : Prop :=
  (∀ s : State, signedUnit s.variationSmoothed = true → signedUnit s.variationTarget = true →
    ∃ t, exec .var s = .next t ∧ signedUnit t.variationSmoothed = true ∧ signedUnit t.variationTarget = true)
  ∧ ∀ (σ : Type) (O : OpenParams F σ) (s : Gen.State F σ), O.num = M → O.rng.Lawful M →
    signedUnit s.variationSmoothed = true → signedUnit s.variationTarget = true →
    ∃ t, execWith O .var s = .next t ∧ signedUnit t.variationSmoothed = true ∧ signedUnit t.variationTarget = true

/-- R146: the default generator, which the model uses (log entry 3), and the exactness of its draws. -/
def Obligations.DefaultDraws : Prop :=
  machineParams.rng.seed = 0x12345678
  ∧ ∀ s : BitVec 32,
    (machineParams.rng.next s).1.toNat = (s.toNat * 1664525 + 1013904223) % 2 ^ 32
    ∧ f32Finite (machineParams.rng.next s).2 = true
    ∧ f32Val (machineParams.rng.next s).2 * 8388608 =
        (((machineParams.rng.next s).1.toNat / 256 : Nat) - 8388608 : Int) * 2 ^ 149

/-! ### LFO -/

/-- R156: LFO, with the wrap as the loop it is: `k` turns, as many as leave the phase below 1.  That no wrap that ends takes
more than `2^24 + 1` turns is the model's inference (log entry 11). -/
def Obligations.LfoResult : Prop :=
  ∀ (s : State) (k : Nat), k ≤ 16777217 →
    (∀ j, j < k → M.le (K .one) (iter (pTurn M) j (pAdvance M s)) = true) →
    M.le (K .one) (iter (pTurn M) k (pAdvance M s)) = false →
    exec .lfo s = .next { s with
      lfoPhase := iter (pTurn M) k (pAdvance M s)
      wires := { s.wires with
        vmod := pVmod M s, effectiveRate := pRate M s, lfo := pWave M s (iter (pTurn M) k (pAdvance M s)) } }

/-- The model's own stop (log entry 11): a phase of infinity never wraps, and LFO stops with a fault. -/
def Obligations.LfoEndlessWrapFaults : Prop :=
  ∀ s : State, pAdvance M s = f32PosInf → exec .lfo s = .fault .phaseWrapEndless

/-- The spec's inferences R157 and R159 (from R156): for a legal snapshot LFO completes, wraps at most once, and keeps the
phase and its wires in range. -/
def Obligations.LfoKeepsRange : Prop :=
  ∀ s : State, legalRate s.cfg.sampleRate = true → legalSnapshot s.P = true → phaseRange s.lfoPhase = true →
    signedUnit s.variationSmoothed = true →
    ∃ t, exec .lfo s = .next t ∧ phaseRange t.lfoPhase = true
      ∧ (t.lfoPhase = pAdvance M s ∨ t.lfoPhase = pTurn M (pAdvance M s))
      ∧ signedUnit t.wires.vmod = true ∧ signedUnit t.wires.lfo = true
      ∧ within 0x3EC00000 0x41960000 t.wires.effectiveRate = true

/-! ### DMOD, DWR, DRD, WADV -/

/-- R171: DMOD writes no state and produces `totalDelay`. -/
def Obligations.DmodResult : Prop :=
  ∀ s : State, exec .dmod s = .next { s with
    wires := { s.wires with
      totalDelay := pClamp M (M.add (K .baseDelay) (pDelayMod M s)) (K .two) (K .delayMax) } }

/-- R171 case (a): with no pitch depth the delay is 1024 exactly, whatever the other wires and registers hold. -/
def Obligations.DmodGateClosed : Prop :=
  ∀ s : State, pZero s.P.pitchCents → ∃ t, exec .dmod s = .next t ∧ t.wires.totalDelay = 0x44800000

/-- The spec's inference R172 (from R171): for a legal snapshot and legal wires the delay lies in `[2, 4092]`. -/
def Obligations.DmodKeepsRange : Prop :=
  ∀ s : State, legalRate s.cfg.sampleRate = true → legalSnapshot s.P = true → unitRange s.envelope = true →
    signedUnit s.wires.vmod = true → signedUnit s.wires.lfo = true →
    within 0x3EC00000 0x41960000 s.wires.effectiveRate = true →
    ∃ t, exec .dmod s = .next t ∧ within 0x40000000 0x457FC000 t.wires.totalDelay = true

/-- R175, R73: DWR stores the input sample in one word of its lane and changes nothing else. -/
def Obligations.DwrResult : Prop :=
  ∀ (c : Lane) (s : State), memoryWf s.delayBuffer = true →
    ∃ t, exec (.dwr c) s = .next t ∧ t = { s with delayBuffer := t.delayBuffer } ∧ memoryWf t.delayBuffer = true
      ∧ ∀ (d : Lane) (j : Int), memRead t d j =
          if d = c ∧ maskIndex j = s.writePos.toNat then s.wires.input.get c else memRead s d j

/-- R177: DRD writes no state and produces `delayed[c]`. -/
def Obligations.DrdResult : Prop :=
  ∀ (c : Lane) (s : State), exec (.drd c) s = .next { s with
    wires := { s.wires with delayed := s.wires.delayed.set c (pDelayed M s c) } }

/-- The spec's inference R179 (from R177): at a zero fraction the interpolator, and DRD with it, returns the tap `y0`, for
taps that do not overflow it (R284). -/
def Obligations.ZeroFractionReturnsTap : Prop :=
  (∀ ym1 y0 y1 y2 frac : F, pTame ym1 → pTame y0 → pTame y1 → pTame y2 → pZero frac →
    f32Eq (interpolate M ym1 y0 y1 y2 frac) y0 = true)
  ∧ ∀ (c : Lane) (s : State), (∀ j : Int, pTame (memRead s c j)) →
    pZero (M.sub (pReadPos M s) (M.ofInt (pIndex M s))) →
    ∃ t, exec (.drd c) s = .next t ∧ f32Eq (t.wires.delayed.get c) (memRead s c (pIndex M s)) = true

/-- The spec's inference R179 (from R177): at a delay of 1024 DRD reads the word 1024 places back. -/
def Obligations.DryReadIsTheOldSample : Prop :=
  ∀ (c : Lane) (s : State), s.wires.totalDelay = K .baseDelay → (∀ j : Int, pTame (memRead s c j)) →
    ∃ t, exec (.drd c) s = .next t
      ∧ f32Eq (t.wires.delayed.get c) (memRead s c ((s.writePos.toNat : Int) - 1024)) = true

/-- R181: WADV. -/
def Obligations.WadvResult : Prop :=
  ∀ s : State, exec .wadv s = .next { s with writePos := BitVec.ofNat 12 ((s.writePos.toNat + 1) % 4096) }

/-! ### FCOEF, FMIX, TREM -/

/-- R201: FCOEF counts down, and on a refresh writes one coefficient set into both lanes. -/
def Obligations.FcoefResult : Prop :=
  ∀ s : State,
    (0 < (s.formantUpdateCounter - 1).toInt →
      exec .fcoef s = .next { s with formantUpdateCounter := s.formantUpdateCounter - 1 })
    ∧ ((s.formantUpdateCounter - 1).toInt ≤ 0 →
      exec .fcoef s = .next { s with
        filt := { l0 := pRefreshed M s s.filt.l0, l1 := pRefreshed M s s.filt.l1 }
        formantUpdateCounter := 32 })

/-- R201, R202: from a counter of 0, after `n >= 1` STEPs the counter reads `32 - (n - 1) mod 32`, LOADPs between them or not. -/
def Obligations.RefreshEvery32Steps : Prop :=
  ∀ (cs : List Instr) (s t : State), s.formantUpdateCounter = 0 →
    (∀ i ∈ cs, isStep i = true ∨ isLoadp i = true) → execAll cs s = .next t → 1 ≤ cs.countP isStep →
    t.formantUpdateCounter.toNat = 32 - (cs.countP isStep - 1) % 32

/-- R205, R206, R207: FMIX runs the lane's three filters and mixes their sum in, or passes the sample and holds them. -/
def Obligations.FmixResult : Prop :=
  ∀ (c : Lane) (s : State),
    (pFormantActive M s → exec (.fmix c) s = .next { s with
      filt := s.filt.set c
        { f0 := (pTick M (s.filt.get c).f0 (s.wires.delayed.get c)).2
          f1 := (pTick M (s.filt.get c).f1 (s.wires.delayed.get c)).2
          f2 := (pTick M (s.filt.get c).f2 (s.wires.delayed.get c)).2 }
      wires := { s.wires with
        processed := s.wires.processed.set c
          (M.add (s.wires.delayed.get c)
            (M.mul (M.mul (M.mul (pAmount M s.P.formantPct) s.envelope) (K .mix))
              (M.add (M.add (M.add (K .zero) (pTick M (s.filt.get c).f0 (s.wires.delayed.get c)).1)
                (pTick M (s.filt.get c).f1 (s.wires.delayed.get c)).1)
                (pTick M (s.filt.get c).f2 (s.wires.delayed.get c)).1))) } })
    ∧ (¬ pFormantActive M s → exec (.fmix c) s = .next { s with
      wires := { s.wires with processed := s.wires.processed.set c (s.wires.delayed.get c) } })

/-- R231: TREM writes no state and produces `out[c]`. -/
def Obligations.TremResult : Prop :=
  ∀ (c : Lane) (s : State), exec (.trem c) s = .next { s with
    wires := { s.wires with out := s.wires.out.set c (M.mul (s.wires.processed.get c) (pAmpMod M s)) } }

/-- The spec's inference R232 (from R231), and R231 case (a): the gain TREM multiplies by lies in `[0, 1]`, and with a zero
amplitude depth it is exactly 1. -/
def Obligations.TremGainRange : Prop :=
  ∀ (c : Lane) (s : State), legalSnapshot s.P = true → unitRange s.envelope = true →
    signedUnit s.wires.lfo = true →
    unitRange (ampMod M s.P.amplitudePct s.envelope s.wires.lfo) = true
    ∧ (pZero s.P.amplitudePct → ampMod M s.P.amplitudePct s.envelope s.wires.lfo = K .one)
    ∧ ∃ t, exec (.trem c) s = .next t ∧ t.wires.out.get c =
        M.mul (s.wires.processed.get c) (ampMod M s.P.amplitudePct s.envelope s.wires.lfo)

/-- The spec's inference R233 (from R171, R179, R205 and R231): with zero depths every lane's output equals the word its
delay memory holds 1024 places back, its input of 1024 STEPs earlier. -/
def Obligations.DryPathIsPureDelay : Prop :=
  ∀ (frame : List F) (s : State), rangeInv s → pReady s → pFrameOk frame →
    pZero s.P.pitchCents → pZero s.P.formantPct → pZero s.P.amplitudePct →
    (∀ (c : Lane) (j : Int), pTame (memRead s c j)) →
    ∃ t, exec (.step frame) s = .next t ∧ ∀ c, pActive frame c →
      f32Eq (pOut t.response c) (memRead s c ((s.writePos.toNat : Int) - 1024)) = true

/-! ### Whole-machine rules -/

/-- The spec's inference R86 (from R73, R175 and R181), the circular history.  After STEPs with frames that all reach lane `c`, the word `k + 1` places behind
`writePos` holds the lane's sample of `k` STEPs before the last, for every `k` inside the buffer. -/
def Obligations.CircularHistory : Prop :=
  ∀ (frames : List (List F)) (s t : State) (c : Lane), memoryWf s.delayBuffer = true →
    (∀ fr ∈ frames, pActive fr c) → execAll (frames.map Instr.step) s = .next t →
    ∀ (k : Nat) (fr : List F), k < 4096 → frames.reverse[k]? = some fr →
      memRead t c ((t.writePos.toNat : Int) - 1 - k) = pSample fr c

/-- R248, R53, R209, R313: between commands nothing of a STEP is under way, the memory is in canonical form, both lanes
hold one coefficient set, and a READY block's memory has been zeroed; every step keeps this. -/
def Obligations.FormInvariantKept : Prop := ∀ s t : State, formInv s → step s = .next t → formInv t

/-- The state at power-on has that form; what it holds beyond R311 is the model's choice (log entries 5 and 10). -/
def Obligations.FormInvariantAtPowerOn : Prop := formInv State.reset

/-- The spec's inference R55 (from R131, R141 and R156): every step keeps the registers in their ranges. -/
def Obligations.RangeInvariantKept : Prop := ∀ s t : State, rangeInv s → step s = .next t → rangeInv t

/-- The state at power-on meets the range invariant; its register values are the model's choice (log entry 10). -/
def Obligations.RangeInvariantAtPowerOn : Prop := rangeInv State.reset

/-- R280: in the states the range invariant describes no step ends in a fault. -/
def Obligations.NoStepFaults : Prop := ∀ (s : State) (f : Fault), rangeInv s → step s ≠ .fault f

/-- R290: nothing leaves READY, and `P.valid` never becomes false again. -/
def Obligations.ReadinessIsNeverLost : Prop :=
  ∀ s t : State, step s = .next t →
    (s.cfg.prepared = true → t.cfg.prepared = true) ∧ (s.P.valid = true → t.P.valid = true)

/-- R313: from power-on no STEP completes before a PREPARE and a LOADP. -/
def Obligations.NoStepBeforePrepareAndLoadp : Prop :=
  ∀ (cs : List Instr) (frame : List F) (s t : State), execAll cs State.reset = .next s →
    exec (.step frame) s = .next t → (∃ i ∈ cs, isPrepare i = true) ∧ (∃ i ∈ cs, isLoadp i = true)

/-- R41, R42: `cfg` is written by PREPARE and by nothing else, `P` by LOADP and by nothing else. -/
def Obligations.OneWriterOfCfgAndOfP : Prop :=
  ∀ (i : Instr) (s t : State), exec i s = .next t →
    (isPrepare i = false → t.cfg = s.cfg) ∧ (isLoadp i = false → t.P = s.P)

/-- R51, R52: the memory changes in DWR, STEP, RESET and PREPARE only, the generator in VAR and STEP only.  R52 lets RESET
and PREPARE reseed the generator where `RESET_RESEEDS_RNG`: that they leave it is the model's choice of that parameter,
false (log entry 4). -/
def Obligations.FewWritersOfMemoryAndGenerator : Prop :=
  ∀ (i : Instr) (s t : State), exec i s = .next t →
    ((∀ c, i ≠ .dwr c) → i ≠ .reset → isStep i = false → isPrepare i = false → t.delayBuffer = s.delayBuffer)
    ∧ (i ≠ .var → isStep i = false → t.rngState = s.rngState)

/-- R42: no instruction reads `cfg.maxBlockSize`. -/
def Obligations.MaxBlockSizeIsIgnored : Prop :=
  ∀ (i : Instr) (s : State) (m : Word), isPrepare i = false →
    exec i { s with cfg := { s.cfg with maxBlockSize := m } } = pWithBlockSize m (exec i s)

/-- R283: the refusals of each command form a closed list, and a micro-operation is never refused. -/
def Obligations.RefusalsAreTheClosedList : Prop :=
  ∀ (i : Instr) (s : State) (r : Refusal), i.wellFormed = true → exec i s = .refused r →
    (isPrepare i = true ∧ r = .badSampleRate) ∨ (isLoadp i = true ∧ r = .badParameter)
    ∨ (isStep i = true ∧ (r = .notPrepared ∨ r = .noSnapshot ∨ r = .badSample))

/-- R56, R311: the values the spec gives the state at power-on, over any open parameters: `cfg.prepared` and `P.valid` are
false and the generator holds the seed.  That the machine's seed is 0x12345678 is the model's choice of the default `Rng`
of R146 (log entry 3). -/
def Obligations.PowerOnValues : Prop :=
  (∀ (α σ : Type) (O : OpenParams α σ),
    (powerOn O).cfg.prepared = false ∧ (powerOn O).P.valid = false ∧ (powerOn O).rngState = O.rng.seed)
  ∧ State.reset.cfg.prepared = false ∧ State.reset.P.valid = false ∧ State.reset.rngState = 0x12345678

/-- R8: the machine is the machine over open parameters, at the model's choice of them (log entries 1 to 4). -/
def Obligations.MachineIsOverOpenParams : Prop :=
  (∀ (i : Instr) (s : State), exec i s = execWith machineParams i s)
  ∧ (∀ s : State, step s = stepWith machineParams s)
  ∧ State.reset = powerOn machineParams

/-- R7, R19: each decimal literal's pattern is the value nearest to the decimal. -/
def Obligations.LiteralsAreNearest : Prop :=
  ∀ (l : Lit) (p : Int) (q : Nat), l.decimal = some (p, q) → M.lit l = f32OfRat p q

/-! ### Rules derived under `Num = real` (R17) -/

/-- The spec's inference R134 (from R131): the attack ramp is linear and reaches 1, the release ramp is linear and reaches 0. -/
def Obligations.RealRampsAreLinear : Prop :=
  ∀ (attack release : ℝ) (n : Nat), 0 < attack → 0 < release →
    iter (envNext realNum true attack release) n 0 = min (n * attack) 1
    ∧ iter (envNext realNum false attack release) n 1 = max (1 - n * release) 0

/-- The spec's inference R143 (from R141): between draws the smoother is a one-pole low-pass. -/
def Obligations.RealSmootherIsOnePole : Prop :=
  ∀ (s0 t : ℝ) (n : Nat), iter (fun s => varSmooth realNum s t) n s0 = t + (s0 - t) * (998 / 1000) ^ n

/-- The spec's inferences R159 and R160 (from R156): from a phase in `[0, 1)` and with an increment in `[0, 1)` the phase after the wrap is the fractional part
of the sum. -/
def Obligations.RealPhaseIsFractional : Prop :=
  ∀ (phase inc : ℝ) (n : Nat), 0 ≤ phase → phase < 1 → 0 ≤ inc → inc < 1 →
    phaseWrap realNum (n + 1) (phase + inc) = some (Int.fract (phase + inc))

/-- The spec's inferences R179 and R180 (from R177): the model's interpolator is the spec's polynomial; it passes through the two inner taps and reproduces
any polynomial of degree up to 2. -/
def Obligations.RealInterpolatorProperties : Prop :=
  (∀ ym1 y0 y1 y2 frac : ℝ, interpolate realNum ym1 y0 y1 y2 frac = pCubic realNum ym1 y0 y1 y2 frac)
  ∧ (∀ ym1 y0 y1 y2 : ℝ, interpolate realNum ym1 y0 y1 y2 0 = y0 ∧ interpolate realNum ym1 y0 y1 y2 1 = y1)
  ∧ ∀ a b c frac : ℝ, interpolate realNum (a - b + c) a (a + b + c) (a + 2 * b + 4 * c) frac
      = a + b * frac + c * frac ^ 2
end

