-- ==== Sys2Proof/Laws/State.lean ====
section
/-! SUPPORT. One lemma per field per update of the state. -/

namespace Sys2Proof.Machine

variable {α σ : Type}

@[simp] theorem PerLane.get_set_same (p : PerLane α) (c : Lane) (a : α) : (p.set c a).get c = a := by
  cases c <;> rfl

theorem PerLane.get_set_other (p : PerLane α) (c d : Lane) (a : α) (h : d ≠ c) :
    (p.set c a).get d = p.get d := by
  cases c <;> cases d <;> first | rfl | exact absurd rfl h

section setCfg
variable (s : Gen.State α σ) (v : CfgRegs α)
@[simp] theorem setCfg_cfg : (setCfg s v).cfg = v := rfl
@[simp] theorem setCfg_P : (setCfg s v).P = s.P := rfl
@[simp] theorem setCfg_envelope : (setCfg s v).envelope = s.envelope := rfl
@[simp] theorem setCfg_lfoPhase : (setCfg s v).lfoPhase = s.lfoPhase := rfl
@[simp] theorem setCfg_writePos : (setCfg s v).writePos = s.writePos := rfl
@[simp] theorem setCfg_variationSmoothed : (setCfg s v).variationSmoothed = s.variationSmoothed := rfl
@[simp] theorem setCfg_variationTarget : (setCfg s v).variationTarget = s.variationTarget := rfl
@[simp] theorem setCfg_variationCountdown : (setCfg s v).variationCountdown = s.variationCountdown := rfl
@[simp] theorem setCfg_formantUpdateCounter : (setCfg s v).formantUpdateCounter = s.formantUpdateCounter := rfl
@[simp] theorem setCfg_filt : (setCfg s v).filt = s.filt := rfl
@[simp] theorem setCfg_delayBuffer : (setCfg s v).delayBuffer = s.delayBuffer := rfl
@[simp] theorem setCfg_rngState : (setCfg s v).rngState = s.rngState := rfl
@[simp] theorem setCfg_wires : (setCfg s v).wires = s.wires := rfl
@[simp] theorem setCfg_response : (setCfg s v).response = s.response := rfl
@[simp] theorem setCfg_hostIn : (setCfg s v).hostIn = s.hostIn := rfl
@[simp] theorem setCfg_slots : (setCfg s v).slots = s.slots := rfl
end setCfg

section setParams
variable (s : Gen.State α σ) (v : ParamRegs α)
@[simp] theorem setParams_cfg : (setParams s v).cfg = s.cfg := rfl
@[simp] theorem setParams_P : (setParams s v).P = v := rfl
@[simp] theorem setParams_envelope : (setParams s v).envelope = s.envelope := rfl
@[simp] theorem setParams_lfoPhase : (setParams s v).lfoPhase = s.lfoPhase := rfl
@[simp] theorem setParams_writePos : (setParams s v).writePos = s.writePos := rfl
@[simp] theorem setParams_variationSmoothed : (setParams s v).variationSmoothed = s.variationSmoothed := rfl
@[simp] theorem setParams_variationTarget : (setParams s v).variationTarget = s.variationTarget := rfl
@[simp] theorem setParams_variationCountdown : (setParams s v).variationCountdown = s.variationCountdown := rfl
@[simp] theorem setParams_formantUpdateCounter : (setParams s v).formantUpdateCounter = s.formantUpdateCounter := rfl
@[simp] theorem setParams_filt : (setParams s v).filt = s.filt := rfl
@[simp] theorem setParams_delayBuffer : (setParams s v).delayBuffer = s.delayBuffer := rfl
@[simp] theorem setParams_rngState : (setParams s v).rngState = s.rngState := rfl
@[simp] theorem setParams_wires : (setParams s v).wires = s.wires := rfl
@[simp] theorem setParams_response : (setParams s v).response = s.response := rfl
@[simp] theorem setParams_hostIn : (setParams s v).hostIn = s.hostIn := rfl
@[simp] theorem setParams_slots : (setParams s v).slots = s.slots := rfl
end setParams

section setEnvelope
variable (s : Gen.State α σ) (v : α)
@[simp] theorem setEnvelope_cfg : (setEnvelope s v).cfg = s.cfg := rfl
@[simp] theorem setEnvelope_P : (setEnvelope s v).P = s.P := rfl
@[simp] theorem setEnvelope_envelope : (setEnvelope s v).envelope = v := rfl
@[simp] theorem setEnvelope_lfoPhase : (setEnvelope s v).lfoPhase = s.lfoPhase := rfl
@[simp] theorem setEnvelope_writePos : (setEnvelope s v).writePos = s.writePos := rfl
@[simp] theorem setEnvelope_variationSmoothed : (setEnvelope s v).variationSmoothed = s.variationSmoothed := rfl
@[simp] theorem setEnvelope_variationTarget : (setEnvelope s v).variationTarget = s.variationTarget := rfl
@[simp] theorem setEnvelope_variationCountdown : (setEnvelope s v).variationCountdown = s.variationCountdown := rfl
@[simp] theorem setEnvelope_formantUpdateCounter : (setEnvelope s v).formantUpdateCounter = s.formantUpdateCounter := rfl
@[simp] theorem setEnvelope_filt : (setEnvelope s v).filt = s.filt := rfl
@[simp] theorem setEnvelope_delayBuffer : (setEnvelope s v).delayBuffer = s.delayBuffer := rfl
@[simp] theorem setEnvelope_rngState : (setEnvelope s v).rngState = s.rngState := rfl
@[simp] theorem setEnvelope_wires : (setEnvelope s v).wires = s.wires := rfl
@[simp] theorem setEnvelope_response : (setEnvelope s v).response = s.response := rfl
@[simp] theorem setEnvelope_hostIn : (setEnvelope s v).hostIn = s.hostIn := rfl
@[simp] theorem setEnvelope_slots : (setEnvelope s v).slots = s.slots := rfl
end setEnvelope

section setPhase
variable (s : Gen.State α σ) (v : α)
@[simp] theorem setPhase_cfg : (setPhase s v).cfg = s.cfg := rfl
@[simp] theorem setPhase_P : (setPhase s v).P = s.P := rfl
@[simp] theorem setPhase_envelope : (setPhase s v).envelope = s.envelope := rfl
@[simp] theorem setPhase_lfoPhase : (setPhase s v).lfoPhase = v := rfl
@[simp] theorem setPhase_writePos : (setPhase s v).writePos = s.writePos := rfl
@[simp] theorem setPhase_variationSmoothed : (setPhase s v).variationSmoothed = s.variationSmoothed := rfl
@[simp] theorem setPhase_variationTarget : (setPhase s v).variationTarget = s.variationTarget := rfl
@[simp] theorem setPhase_variationCountdown : (setPhase s v).variationCountdown = s.variationCountdown := rfl
@[simp] theorem setPhase_formantUpdateCounter : (setPhase s v).formantUpdateCounter = s.formantUpdateCounter := rfl
@[simp] theorem setPhase_filt : (setPhase s v).filt = s.filt := rfl
@[simp] theorem setPhase_delayBuffer : (setPhase s v).delayBuffer = s.delayBuffer := rfl
@[simp] theorem setPhase_rngState : (setPhase s v).rngState = s.rngState := rfl
@[simp] theorem setPhase_wires : (setPhase s v).wires = s.wires := rfl
@[simp] theorem setPhase_response : (setPhase s v).response = s.response := rfl
@[simp] theorem setPhase_hostIn : (setPhase s v).hostIn = s.hostIn := rfl
@[simp] theorem setPhase_slots : (setPhase s v).slots = s.slots := rfl
end setPhase

section setWritePos
variable (s : Gen.State α σ) (v : BitVec 12)
@[simp] theorem setWritePos_cfg : (setWritePos s v).cfg = s.cfg := rfl
@[simp] theorem setWritePos_P : (setWritePos s v).P = s.P := rfl
@[simp] theorem setWritePos_envelope : (setWritePos s v).envelope = s.envelope := rfl
@[simp] theorem setWritePos_lfoPhase : (setWritePos s v).lfoPhase = s.lfoPhase := rfl
@[simp] theorem setWritePos_writePos : (setWritePos s v).writePos = v := rfl
@[simp] theorem setWritePos_variationSmoothed : (setWritePos s v).variationSmoothed = s.variationSmoothed := rfl
@[simp] theorem setWritePos_variationTarget : (setWritePos s v).variationTarget = s.variationTarget := rfl
@[simp] theorem setWritePos_variationCountdown : (setWritePos s v).variationCountdown = s.variationCountdown := rfl
@[simp] theorem setWritePos_formantUpdateCounter : (setWritePos s v).formantUpdateCounter = s.formantUpdateCounter := rfl
@[simp] theorem setWritePos_filt : (setWritePos s v).filt = s.filt := rfl
@[simp] theorem setWritePos_delayBuffer : (setWritePos s v).delayBuffer = s.delayBuffer := rfl
@[simp] theorem setWritePos_rngState : (setWritePos s v).rngState = s.rngState := rfl
@[simp] theorem setWritePos_wires : (setWritePos s v).wires = s.wires := rfl
@[simp] theorem setWritePos_response : (setWritePos s v).response = s.response := rfl
@[simp] theorem setWritePos_hostIn : (setWritePos s v).hostIn = s.hostIn := rfl
@[simp] theorem setWritePos_slots : (setWritePos s v).slots = s.slots := rfl
end setWritePos

section setSmoothed
variable (s : Gen.State α σ) (v : α)
@[simp] theorem setSmoothed_cfg : (setSmoothed s v).cfg = s.cfg := rfl
@[simp] theorem setSmoothed_P : (setSmoothed s v).P = s.P := rfl
@[simp] theorem setSmoothed_envelope : (setSmoothed s v).envelope = s.envelope := rfl
@[simp] theorem setSmoothed_lfoPhase : (setSmoothed s v).lfoPhase = s.lfoPhase := rfl
@[simp] theorem setSmoothed_writePos : (setSmoothed s v).writePos = s.writePos := rfl
@[simp] theorem setSmoothed_variationSmoothed : (setSmoothed s v).variationSmoothed = v := rfl
@[simp] theorem setSmoothed_variationTarget : (setSmoothed s v).variationTarget = s.variationTarget := rfl
@[simp] theorem setSmoothed_variationCountdown : (setSmoothed s v).variationCountdown = s.variationCountdown := rfl
@[simp] theorem setSmoothed_formantUpdateCounter : (setSmoothed s v).formantUpdateCounter = s.formantUpdateCounter := rfl
@[simp] theorem setSmoothed_filt : (setSmoothed s v).filt = s.filt := rfl
@[simp] theorem setSmoothed_delayBuffer : (setSmoothed s v).delayBuffer = s.delayBuffer := rfl
@[simp] theorem setSmoothed_rngState : (setSmoothed s v).rngState = s.rngState := rfl
@[simp] theorem setSmoothed_wires : (setSmoothed s v).wires = s.wires := rfl
@[simp] theorem setSmoothed_response : (setSmoothed s v).response = s.response := rfl
@[simp] theorem setSmoothed_hostIn : (setSmoothed s v).hostIn = s.hostIn := rfl
@[simp] theorem setSmoothed_slots : (setSmoothed s v).slots = s.slots := rfl
end setSmoothed

section setTarget
variable (s : Gen.State α σ) (v : α)
@[simp] theorem setTarget_cfg : (setTarget s v).cfg = s.cfg := rfl
@[simp] theorem setTarget_P : (setTarget s v).P = s.P := rfl
@[simp] theorem setTarget_envelope : (setTarget s v).envelope = s.envelope := rfl
@[simp] theorem setTarget_lfoPhase : (setTarget s v).lfoPhase = s.lfoPhase := rfl
@[simp] theorem setTarget_writePos : (setTarget s v).writePos = s.writePos := rfl
@[simp] theorem setTarget_variationSmoothed : (setTarget s v).variationSmoothed = s.variationSmoothed := rfl
@[simp] theorem setTarget_variationTarget : (setTarget s v).variationTarget = v := rfl
@[simp] theorem setTarget_variationCountdown : (setTarget s v).variationCountdown = s.variationCountdown := rfl
@[simp] theorem setTarget_formantUpdateCounter : (setTarget s v).formantUpdateCounter = s.formantUpdateCounter := rfl
@[simp] theorem setTarget_filt : (setTarget s v).filt = s.filt := rfl
@[simp] theorem setTarget_delayBuffer : (setTarget s v).delayBuffer = s.delayBuffer := rfl
@[simp] theorem setTarget_rngState : (setTarget s v).rngState = s.rngState := rfl
@[simp] theorem setTarget_wires : (setTarget s v).wires = s.wires := rfl
@[simp] theorem setTarget_response : (setTarget s v).response = s.response := rfl
@[simp] theorem setTarget_hostIn : (setTarget s v).hostIn = s.hostIn := rfl
@[simp] theorem setTarget_slots : (setTarget s v).slots = s.slots := rfl
end setTarget

section setCountdown
variable (s : Gen.State α σ) (v : BitVec 32)
@[simp] theorem setCountdown_cfg : (setCountdown s v).cfg = s.cfg := rfl
@[simp] theorem setCountdown_P : (setCountdown s v).P = s.P := rfl
@[simp] theorem setCountdown_envelope : (setCountdown s v).envelope = s.envelope := rfl
@[simp] theorem setCountdown_lfoPhase : (setCountdown s v).lfoPhase = s.lfoPhase := rfl
@[simp] theorem setCountdown_writePos : (setCountdown s v).writePos = s.writePos := rfl
@[simp] theorem setCountdown_variationSmoothed : (setCountdown s v).variationSmoothed = s.variationSmoothed := rfl
@[simp] theorem setCountdown_variationTarget : (setCountdown s v).variationTarget = s.variationTarget := rfl
@[simp] theorem setCountdown_variationCountdown : (setCountdown s v).variationCountdown = v := rfl
@[simp] theorem setCountdown_formantUpdateCounter : (setCountdown s v).formantUpdateCounter = s.formantUpdateCounter := rfl
@[simp] theorem setCountdown_filt : (setCountdown s v).filt = s.filt := rfl
@[simp] theorem setCountdown_delayBuffer : (setCountdown s v).delayBuffer = s.delayBuffer := rfl
@[simp] theorem setCountdown_rngState : (setCountdown s v).rngState = s.rngState := rfl
@[simp] theorem setCountdown_wires : (setCountdown s v).wires = s.wires := rfl
@[simp] theorem setCountdown_response : (setCountdown s v).response = s.response := rfl
@[simp] theorem setCountdown_hostIn : (setCountdown s v).hostIn = s.hostIn := rfl
@[simp] theorem setCountdown_slots : (setCountdown s v).slots = s.slots := rfl
end setCountdown

section setRefresh
variable (s : Gen.State α σ) (v : BitVec 32)
@[simp] theorem setRefresh_cfg : (setRefresh s v).cfg = s.cfg := rfl
@[simp] theorem setRefresh_P : (setRefresh s v).P = s.P := rfl
@[simp] theorem setRefresh_envelope : (setRefresh s v).envelope = s.envelope := rfl
@[simp] theorem setRefresh_lfoPhase : (setRefresh s v).lfoPhase = s.lfoPhase := rfl
@[simp] theorem setRefresh_writePos : (setRefresh s v).writePos = s.writePos := rfl
@[simp] theorem setRefresh_variationSmoothed : (setRefresh s v).variationSmoothed = s.variationSmoothed := rfl
@[simp] theorem setRefresh_variationTarget : (setRefresh s v).variationTarget = s.variationTarget := rfl
@[simp] theorem setRefresh_variationCountdown : (setRefresh s v).variationCountdown = s.variationCountdown := rfl
@[simp] theorem setRefresh_formantUpdateCounter : (setRefresh s v).formantUpdateCounter = v := rfl
@[simp] theorem setRefresh_filt : (setRefresh s v).filt = s.filt := rfl
@[simp] theorem setRefresh_delayBuffer : (setRefresh s v).delayBuffer = s.delayBuffer := rfl
@[simp] theorem setRefresh_rngState : (setRefresh s v).rngState = s.rngState := rfl
@[simp] theorem setRefresh_wires : (setRefresh s v).wires = s.wires := rfl
@[simp] theorem setRefresh_response : (setRefresh s v).response = s.response := rfl
@[simp] theorem setRefresh_hostIn : (setRefresh s v).hostIn = s.hostIn := rfl
@[simp] theorem setRefresh_slots : (setRefresh s v).slots = s.slots := rfl
end setRefresh

section setFilt
variable (s : Gen.State α σ) (v : PerLane (Bank α))
@[simp] theorem setFilt_cfg : (setFilt s v).cfg = s.cfg := rfl
@[simp] theorem setFilt_P : (setFilt s v).P = s.P := rfl
@[simp] theorem setFilt_envelope : (setFilt s v).envelope = s.envelope := rfl
@[simp] theorem setFilt_lfoPhase : (setFilt s v).lfoPhase = s.lfoPhase := rfl
@[simp] theorem setFilt_writePos : (setFilt s v).writePos = s.writePos := rfl
@[simp] theorem setFilt_variationSmoothed : (setFilt s v).variationSmoothed = s.variationSmoothed := rfl
@[simp] theorem setFilt_variationTarget : (setFilt s v).variationTarget = s.variationTarget := rfl
@[simp] theorem setFilt_variationCountdown : (setFilt s v).variationCountdown = s.variationCountdown := rfl
@[simp] theorem setFilt_formantUpdateCounter : (setFilt s v).formantUpdateCounter = s.formantUpdateCounter := rfl
@[simp] theorem setFilt_filt : (setFilt s v).filt = v := rfl
@[simp] theorem setFilt_delayBuffer : (setFilt s v).delayBuffer = s.delayBuffer := rfl
@[simp] theorem setFilt_rngState : (setFilt s v).rngState = s.rngState := rfl
@[simp] theorem setFilt_wires : (setFilt s v).wires = s.wires := rfl
@[simp] theorem setFilt_response : (setFilt s v).response = s.response := rfl
@[simp] theorem setFilt_hostIn : (setFilt s v).hostIn = s.hostIn := rfl
@[simp] theorem setFilt_slots : (setFilt s v).slots = s.slots := rfl
end setFilt

section setDelay
variable (s : Gen.State α σ) (v : PerLane (DelayMem α))
@[simp] theorem setDelay_cfg : (setDelay s v).cfg = s.cfg := rfl
@[simp] theorem setDelay_P : (setDelay s v).P = s.P := rfl
@[simp] theorem setDelay_envelope : (setDelay s v).envelope = s.envelope := rfl
@[simp] theorem setDelay_lfoPhase : (setDelay s v).lfoPhase = s.lfoPhase := rfl
@[simp] theorem setDelay_writePos : (setDelay s v).writePos = s.writePos := rfl
@[simp] theorem setDelay_variationSmoothed : (setDelay s v).variationSmoothed = s.variationSmoothed := rfl
@[simp] theorem setDelay_variationTarget : (setDelay s v).variationTarget = s.variationTarget := rfl
@[simp] theorem setDelay_variationCountdown : (setDelay s v).variationCountdown = s.variationCountdown := rfl
@[simp] theorem setDelay_formantUpdateCounter : (setDelay s v).formantUpdateCounter = s.formantUpdateCounter := rfl
@[simp] theorem setDelay_filt : (setDelay s v).filt = s.filt := rfl
@[simp] theorem setDelay_delayBuffer : (setDelay s v).delayBuffer = v := rfl
@[simp] theorem setDelay_rngState : (setDelay s v).rngState = s.rngState := rfl
@[simp] theorem setDelay_wires : (setDelay s v).wires = s.wires := rfl
@[simp] theorem setDelay_response : (setDelay s v).response = s.response := rfl
@[simp] theorem setDelay_hostIn : (setDelay s v).hostIn = s.hostIn := rfl
@[simp] theorem setDelay_slots : (setDelay s v).slots = s.slots := rfl
end setDelay

section setRng
variable (s : Gen.State α σ) (v : σ)
@[simp] theorem setRng_cfg : (setRng s v).cfg = s.cfg := rfl
@[simp] theorem setRng_P : (setRng s v).P = s.P := rfl
@[simp] theorem setRng_envelope : (setRng s v).envelope = s.envelope := rfl
@[simp] theorem setRng_lfoPhase : (setRng s v).lfoPhase = s.lfoPhase := rfl
@[simp] theorem setRng_writePos : (setRng s v).writePos = s.writePos := rfl
@[simp] theorem setRng_variationSmoothed : (setRng s v).variationSmoothed = s.variationSmoothed := rfl
@[simp] theorem setRng_variationTarget : (setRng s v).variationTarget = s.variationTarget := rfl
@[simp] theorem setRng_variationCountdown : (setRng s v).variationCountdown = s.variationCountdown := rfl
@[simp] theorem setRng_formantUpdateCounter : (setRng s v).formantUpdateCounter = s.formantUpdateCounter := rfl
@[simp] theorem setRng_filt : (setRng s v).filt = s.filt := rfl
@[simp] theorem setRng_delayBuffer : (setRng s v).delayBuffer = s.delayBuffer := rfl
@[simp] theorem setRng_rngState : (setRng s v).rngState = v := rfl
@[simp] theorem setRng_wires : (setRng s v).wires = s.wires := rfl
@[simp] theorem setRng_response : (setRng s v).response = s.response := rfl
@[simp] theorem setRng_hostIn : (setRng s v).hostIn = s.hostIn := rfl
@[simp] theorem setRng_slots : (setRng s v).slots = s.slots := rfl
end setRng

section setWires
variable (s : Gen.State α σ) (v : Wires α)
@[simp] theorem setWires_cfg : (setWires s v).cfg = s.cfg := rfl
@[simp] theorem setWires_P : (setWires s v).P = s.P := rfl
@[simp] theorem setWires_envelope : (setWires s v).envelope = s.envelope := rfl
@[simp] theorem setWires_lfoPhase : (setWires s v).lfoPhase = s.lfoPhase := rfl
@[simp] theorem setWires_writePos : (setWires s v).writePos = s.writePos := rfl
@[simp] theorem setWires_variationSmoothed : (setWires s v).variationSmoothed = s.variationSmoothed := rfl
@[simp] theorem setWires_variationTarget : (setWires s v).variationTarget = s.variationTarget := rfl
@[simp] theorem setWires_variationCountdown : (setWires s v).variationCountdown = s.variationCountdown := rfl
@[simp] theorem setWires_formantUpdateCounter : (setWires s v).formantUpdateCounter = s.formantUpdateCounter := rfl
@[simp] theorem setWires_filt : (setWires s v).filt = s.filt := rfl
@[simp] theorem setWires_delayBuffer : (setWires s v).delayBuffer = s.delayBuffer := rfl
@[simp] theorem setWires_rngState : (setWires s v).rngState = s.rngState := rfl
@[simp] theorem setWires_wires : (setWires s v).wires = v := rfl
@[simp] theorem setWires_response : (setWires s v).response = s.response := rfl
@[simp] theorem setWires_hostIn : (setWires s v).hostIn = s.hostIn := rfl
@[simp] theorem setWires_slots : (setWires s v).slots = s.slots := rfl
end setWires

section setResponse
variable (s : Gen.State α σ) (v : List α)
@[simp] theorem setResponse_cfg : (setResponse s v).cfg = s.cfg := rfl
@[simp] theorem setResponse_P : (setResponse s v).P = s.P := rfl
@[simp] theorem setResponse_envelope : (setResponse s v).envelope = s.envelope := rfl
@[simp] theorem setResponse_lfoPhase : (setResponse s v).lfoPhase = s.lfoPhase := rfl
@[simp] theorem setResponse_writePos : (setResponse s v).writePos = s.writePos := rfl
@[simp] theorem setResponse_variationSmoothed : (setResponse s v).variationSmoothed = s.variationSmoothed := rfl
@[simp] theorem setResponse_variationTarget : (setResponse s v).variationTarget = s.variationTarget := rfl
@[simp] theorem setResponse_variationCountdown : (setResponse s v).variationCountdown = s.variationCountdown := rfl
@[simp] theorem setResponse_formantUpdateCounter : (setResponse s v).formantUpdateCounter = s.formantUpdateCounter := rfl
@[simp] theorem setResponse_filt : (setResponse s v).filt = s.filt := rfl
@[simp] theorem setResponse_delayBuffer : (setResponse s v).delayBuffer = s.delayBuffer := rfl
@[simp] theorem setResponse_rngState : (setResponse s v).rngState = s.rngState := rfl
@[simp] theorem setResponse_wires : (setResponse s v).wires = s.wires := rfl
@[simp] theorem setResponse_response : (setResponse s v).response = v := rfl
@[simp] theorem setResponse_hostIn : (setResponse s v).hostIn = s.hostIn := rfl
@[simp] theorem setResponse_slots : (setResponse s v).slots = s.slots := rfl
end setResponse

section setHostIn
variable (s : Gen.State α σ) (v : List Byte)
@[simp] theorem setHostIn_cfg : (setHostIn s v).cfg = s.cfg := rfl
@[simp] theorem setHostIn_P : (setHostIn s v).P = s.P := rfl
@[simp] theorem setHostIn_envelope : (setHostIn s v).envelope = s.envelope := rfl
@[simp] theorem setHostIn_lfoPhase : (setHostIn s v).lfoPhase = s.lfoPhase := rfl
@[simp] theorem setHostIn_writePos : (setHostIn s v).writePos = s.writePos := rfl
@[simp] theorem setHostIn_variationSmoothed : (setHostIn s v).variationSmoothed = s.variationSmoothed := rfl
@[simp] theorem setHostIn_variationTarget : (setHostIn s v).variationTarget = s.variationTarget := rfl
@[simp] theorem setHostIn_variationCountdown : (setHostIn s v).variationCountdown = s.variationCountdown := rfl
@[simp] theorem setHostIn_formantUpdateCounter : (setHostIn s v).formantUpdateCounter = s.formantUpdateCounter := rfl
@[simp] theorem setHostIn_filt : (setHostIn s v).filt = s.filt := rfl
@[simp] theorem setHostIn_delayBuffer : (setHostIn s v).delayBuffer = s.delayBuffer := rfl
@[simp] theorem setHostIn_rngState : (setHostIn s v).rngState = s.rngState := rfl
@[simp] theorem setHostIn_wires : (setHostIn s v).wires = s.wires := rfl
@[simp] theorem setHostIn_response : (setHostIn s v).response = s.response := rfl
@[simp] theorem setHostIn_hostIn : (setHostIn s v).hostIn = v := rfl
@[simp] theorem setHostIn_slots : (setHostIn s v).slots = s.slots := rfl
end setHostIn

section setSlots
variable (s : Gen.State α σ) (v : List MicroId)
@[simp] theorem setSlots_cfg : (setSlots s v).cfg = s.cfg := rfl
@[simp] theorem setSlots_P : (setSlots s v).P = s.P := rfl
@[simp] theorem setSlots_envelope : (setSlots s v).envelope = s.envelope := rfl
@[simp] theorem setSlots_lfoPhase : (setSlots s v).lfoPhase = s.lfoPhase := rfl
@[simp] theorem setSlots_writePos : (setSlots s v).writePos = s.writePos := rfl
@[simp] theorem setSlots_variationSmoothed : (setSlots s v).variationSmoothed = s.variationSmoothed := rfl
@[simp] theorem setSlots_variationTarget : (setSlots s v).variationTarget = s.variationTarget := rfl
@[simp] theorem setSlots_variationCountdown : (setSlots s v).variationCountdown = s.variationCountdown := rfl
@[simp] theorem setSlots_formantUpdateCounter : (setSlots s v).formantUpdateCounter = s.formantUpdateCounter := rfl
@[simp] theorem setSlots_filt : (setSlots s v).filt = s.filt := rfl
@[simp] theorem setSlots_delayBuffer : (setSlots s v).delayBuffer = s.delayBuffer := rfl
@[simp] theorem setSlots_rngState : (setSlots s v).rngState = s.rngState := rfl
@[simp] theorem setSlots_wires : (setSlots s v).wires = s.wires := rfl
@[simp] theorem setSlots_response : (setSlots s v).response = s.response := rfl
@[simp] theorem setSlots_hostIn : (setSlots s v).hostIn = s.hostIn := rfl
@[simp] theorem setSlots_slots : (setSlots s v).slots = v := rfl
end setSlots

section wireLfo
variable (w : Wires α) (a b d : α)
@[simp] theorem wireLfo_input : (wireLfo w a b d).input = w.input := rfl
@[simp] theorem wireLfo_vmod : (wireLfo w a b d).vmod = a := rfl
@[simp] theorem wireLfo_effectiveRate : (wireLfo w a b d).effectiveRate = b := rfl
@[simp] theorem wireLfo_lfo : (wireLfo w a b d).lfo = d := rfl
@[simp] theorem wireLfo_totalDelay : (wireLfo w a b d).totalDelay = w.totalDelay := rfl
@[simp] theorem wireLfo_delayed : (wireLfo w a b d).delayed = w.delayed := rfl
@[simp] theorem wireLfo_processed : (wireLfo w a b d).processed = w.processed := rfl
@[simp] theorem wireLfo_out : (wireLfo w a b d).out = w.out := rfl
end wireLfo

section wireDelay
variable (w : Wires α) (a : α)
@[simp] theorem wireDelay_input : (wireDelay w a).input = w.input := rfl
@[simp] theorem wireDelay_vmod : (wireDelay w a).vmod = w.vmod := rfl
@[simp] theorem wireDelay_effectiveRate : (wireDelay w a).effectiveRate = w.effectiveRate := rfl
@[simp] theorem wireDelay_lfo : (wireDelay w a).lfo = w.lfo := rfl
@[simp] theorem wireDelay_totalDelay : (wireDelay w a).totalDelay = a := rfl
@[simp] theorem wireDelay_delayed : (wireDelay w a).delayed = w.delayed := rfl
@[simp] theorem wireDelay_processed : (wireDelay w a).processed = w.processed := rfl
@[simp] theorem wireDelay_out : (wireDelay w a).out = w.out := rfl
end wireDelay

section wireDelayed
variable (w : Wires α) (c : Lane) (a : α)
@[simp] theorem wireDelayed_input : (wireDelayed w c a).input = w.input := rfl
@[simp] theorem wireDelayed_vmod : (wireDelayed w c a).vmod = w.vmod := rfl
@[simp] theorem wireDelayed_effectiveRate : (wireDelayed w c a).effectiveRate = w.effectiveRate := rfl
@[simp] theorem wireDelayed_lfo : (wireDelayed w c a).lfo = w.lfo := rfl
@[simp] theorem wireDelayed_totalDelay : (wireDelayed w c a).totalDelay = w.totalDelay := rfl
@[simp] theorem wireDelayed_delayed : (wireDelayed w c a).delayed = w.delayed.set c a := rfl
@[simp] theorem wireDelayed_processed : (wireDelayed w c a).processed = w.processed := rfl
@[simp] theorem wireDelayed_out : (wireDelayed w c a).out = w.out := rfl
end wireDelayed

section wireProcessed
variable (w : Wires α) (c : Lane) (a : α)
@[simp] theorem wireProcessed_input : (wireProcessed w c a).input = w.input := rfl
@[simp] theorem wireProcessed_vmod : (wireProcessed w c a).vmod = w.vmod := rfl
@[simp] theorem wireProcessed_effectiveRate : (wireProcessed w c a).effectiveRate = w.effectiveRate := rfl
@[simp] theorem wireProcessed_lfo : (wireProcessed w c a).lfo = w.lfo := rfl
@[simp] theorem wireProcessed_totalDelay : (wireProcessed w c a).totalDelay = w.totalDelay := rfl
@[simp] theorem wireProcessed_delayed : (wireProcessed w c a).delayed = w.delayed := rfl
@[simp] theorem wireProcessed_processed : (wireProcessed w c a).processed = w.processed.set c a := rfl
@[simp] theorem wireProcessed_out : (wireProcessed w c a).out = w.out := rfl
end wireProcessed

section wireOut
variable (w : Wires α) (c : Lane) (a : α)
@[simp] theorem wireOut_input : (wireOut w c a).input = w.input := rfl
@[simp] theorem wireOut_vmod : (wireOut w c a).vmod = w.vmod := rfl
@[simp] theorem wireOut_effectiveRate : (wireOut w c a).effectiveRate = w.effectiveRate := rfl
@[simp] theorem wireOut_lfo : (wireOut w c a).lfo = w.lfo := rfl
@[simp] theorem wireOut_totalDelay : (wireOut w c a).totalDelay = w.totalDelay := rfl
@[simp] theorem wireOut_delayed : (wireOut w c a).delayed = w.delayed := rfl
@[simp] theorem wireOut_processed : (wireOut w c a).processed = w.processed := rfl
@[simp] theorem wireOut_out : (wireOut w c a).out = w.out.set c a := rfl
end wireOut

section memWrite
variable [DecidableEq α] [Inhabited α]
variable (s : Gen.State α σ) (c : Lane) (j : BitVec 12) (v : α)
@[simp] theorem memWrite_cfg : (memWrite s c j v).cfg = s.cfg := rfl
@[simp] theorem memWrite_P : (memWrite s c j v).P = s.P := rfl
@[simp] theorem memWrite_envelope : (memWrite s c j v).envelope = s.envelope := rfl
@[simp] theorem memWrite_lfoPhase : (memWrite s c j v).lfoPhase = s.lfoPhase := rfl
@[simp] theorem memWrite_writePos : (memWrite s c j v).writePos = s.writePos := rfl
@[simp] theorem memWrite_variationSmoothed : (memWrite s c j v).variationSmoothed = s.variationSmoothed := rfl
@[simp] theorem memWrite_variationTarget : (memWrite s c j v).variationTarget = s.variationTarget := rfl
@[simp] theorem memWrite_variationCountdown : (memWrite s c j v).variationCountdown = s.variationCountdown := rfl
@[simp] theorem memWrite_formantUpdateCounter : (memWrite s c j v).formantUpdateCounter = s.formantUpdateCounter := rfl
@[simp] theorem memWrite_filt : (memWrite s c j v).filt = s.filt := rfl
@[simp] theorem memWrite_rngState : (memWrite s c j v).rngState = s.rngState := rfl
@[simp] theorem memWrite_wires : (memWrite s c j v).wires = s.wires := rfl
@[simp] theorem memWrite_response : (memWrite s c j v).response = s.response := rfl
@[simp] theorem memWrite_hostIn : (memWrite s c j v).hostIn = s.hostIn := rfl
@[simp] theorem memWrite_slots : (memWrite s c j v).slots = s.slots := rfl
@[simp] theorem memWrite_delayBuffer :
    (memWrite s c j v).delayBuffer = s.delayBuffer.set c (delayWrite c (s.delayBuffer.get c) j.toNat v) := rfl
end memWrite

end Sys2Proof.Machine
end

