-- ==== Sys2Proof/Laws/Memory.lean ====
section
/-! SUPPORT. The delay memory: a read after a write, and the canonical form every operation keeps. -/

namespace Sys2Proof.Machine

variable {α σ : Type}

/-! ### Cells -/

theorem cellsFind_put_same (l : List (Nat × α)) (j : Nat) (v : α) : cellsFind (cellsPut l j v) j = some v := by
  induction l with
  | nil => simp [cellsPut, cellsFind]
  | cons e l ih =>
    obtain ⟨k, w⟩ := e
    simp only [cellsPut]
    split
    · simp [cellsFind]
    · split
      · simp [cellsFind]
      · rename_i h1 h2
        have : ¬ k = j := fun h => h2 h.symm
        simp [cellsFind, this, ih]

theorem cellsFind_put_other (l : List (Nat × α)) (j k : Nat) (v : α) (h : k ≠ j) :
    cellsFind (cellsPut l j v) k = cellsFind l k := by
  induction l with
  | nil => simp [cellsPut, cellsFind, h.symm]
  | cons e l ih =>
    obtain ⟨i, w⟩ := e
    simp only [cellsPut]
    split
    · simp [cellsFind, h.symm]
    · split
      · rename_i h2
        subst h2
        simp [cellsFind, h.symm]
      · simp [cellsFind, ih]

theorem risingFrom_mono {lo lo' : Nat} {l : List (Nat × α)} (h : lo' ≤ lo) (hl : risingFrom lo l = true) :
    risingFrom lo' l = true := by
  cases l with
  | nil => rfl
  | cons e l =>
    simp only [risingFrom, Bool.and_eq_true, decide_eq_true_eq] at hl ⊢
    exact ⟨le_trans h hl.1, hl.2⟩

theorem cellsFind_below {lo : Nat} {l : List (Nat × α)} (hl : risingFrom lo l = true) {j : Nat} (h : j < lo) :
    cellsFind l j = none := by
  induction l generalizing lo with
  | nil => rfl
  | cons e l ih =>
    obtain ⟨k, w⟩ := e
    simp only [risingFrom, Bool.and_eq_true, decide_eq_true_eq] at hl
    have hk : ¬ k = j := by omega
    simp only [cellsFind, hk, if_false]
    exact ih hl.2 (by omega)

theorem cellsFind_drop_same {lo : Nat} {l : List (Nat × α)} (hl : risingFrom lo l = true) (j : Nat) :
    cellsFind (cellsDrop l j) j = none := by
  induction l generalizing lo with
  | nil => rfl
  | cons e l ih =>
    obtain ⟨k, w⟩ := e
    simp only [risingFrom, Bool.and_eq_true, decide_eq_true_eq] at hl
    simp only [cellsDrop]
    split
    · rename_i h
      exact cellsFind_below hl.2 (by omega)
    · rename_i h
      simp only [cellsFind, h, if_false]
      exact ih hl.2

theorem cellsFind_drop_other (l : List (Nat × α)) (j k : Nat) (h : k ≠ j) :
    cellsFind (cellsDrop l j) k = cellsFind l k := by
  induction l with
  | nil => rfl
  | cons e l ih =>
    obtain ⟨i, w⟩ := e
    simp only [cellsDrop]
    split
    · rename_i h2
      subst h2
      simp [cellsFind, h.symm]
    · simp [cellsFind, ih]

theorem risingFrom_put {lo : Nat} {l : List (Nat × α)} (hl : risingFrom lo l = true) {j : Nat} (hj : lo ≤ j) (v : α) :
    risingFrom lo (cellsPut l j v) = true := by
  induction l generalizing lo with
  | nil => simp [cellsPut, risingFrom, hj]
  | cons e l ih =>
    obtain ⟨k, w⟩ := e
    simp only [risingFrom, Bool.and_eq_true, decide_eq_true_eq] at hl
    simp only [cellsPut]
    split
    · simp only [risingFrom, Bool.and_eq_true, decide_eq_true_eq]
      exact ⟨hj, by omega, hl.2⟩
    · split
      · rename_i h2
        subst h2
        simp only [risingFrom, Bool.and_eq_true, decide_eq_true_eq]
        exact ⟨hj, hl.2⟩
      · simp only [risingFrom, Bool.and_eq_true, decide_eq_true_eq]
        exact ⟨hl.1, ih hl.2 (by omega)⟩

theorem risingFrom_drop {lo : Nat} {l : List (Nat × α)} (hl : risingFrom lo l = true) (j : Nat) :
    risingFrom lo (cellsDrop l j) = true := by
  induction l generalizing lo with
  | nil => rfl
  | cons e l ih =>
    obtain ⟨k, w⟩ := e
    simp only [risingFrom, Bool.and_eq_true, decide_eq_true_eq] at hl
    simp only [cellsDrop]
    split
    · exact risingFrom_mono (by omega) hl.2
    · simp only [risingFrom, Bool.and_eq_true, decide_eq_true_eq]
      exact ⟨hl.1, ih hl.2⟩

theorem mem_put {l : List (Nat × α)} {j : Nat} {v : α} {e : Nat × α} (h : e ∈ cellsPut l j v) :
    e = (j, v) ∨ e ∈ l := by
  induction l with
  | nil => simpa [cellsPut] using h
  | cons x l ih =>
    obtain ⟨k, w⟩ := x
    simp only [cellsPut] at h
    split at h
    · simpa using h
    · split at h
      · rcases List.mem_cons.mp h with h | h
        · exact .inl h
        · exact .inr (List.mem_cons_of_mem _ h)
      · rcases List.mem_cons.mp h with h | h
        · exact .inr (by simp [h])
        · rcases ih h with h | h
          · exact .inl h
          · exact .inr (List.mem_cons_of_mem _ h)

theorem mem_drop {l : List (Nat × α)} {j : Nat} {e : Nat × α} (h : e ∈ cellsDrop l j) : e ∈ l := by
  induction l with
  | nil => simp [cellsDrop] at h
  | cons x l ih =>
    obtain ⟨k, w⟩ := x
    simp only [cellsDrop] at h
    split at h
    · exact List.mem_cons_of_mem _ h
    · rcases List.mem_cons.mp h with h | h
      · simp [h]
      · exact List.mem_cons_of_mem _ (ih h)

/-! ### One lane's memory -/

variable [DecidableEq α] [Inhabited α]

/-- A write leaves what an unlisted word reads as alone. -/
@[simp] theorem delayWrite_fill (c : Lane) (m : DelayMem α) (j : Nat) (v : α) :
    (delayWrite c m j v).fill = m.fill := by
  unfold delayWrite; split <;> rfl

theorem unlistedWord_delayWrite (c d : Lane) (m : DelayMem α) (j k : Nat) (v : α) :
    unlistedWord d (delayWrite c m j v) k = unlistedWord d m k := by
  simp [unlistedWord]

theorem delayWrite_cells (c : Lane) (m : DelayMem α) (j : Nat) (v : α) :
    (delayWrite c m j v).cells = if v = unlistedWord c m j then cellsDrop m.cells j else cellsPut m.cells j v := by
  unfold delayWrite; split <;> rfl

/-- A read of the word written gives the value written. -/
theorem delayRead_write_same {c : Lane} {m : DelayMem α} (h : delayWf c m = true) (j : Nat) (v : α) :
    delayRead c (delayWrite c m j v) j = v := by
  have hr : risingFrom 0 m.cells = true := by
    simp only [delayWf, Bool.and_eq_true] at h; exact h.1
  unfold delayRead
  rw [unlistedWord_delayWrite, delayWrite_cells]
  by_cases hv : v = unlistedWord c m j
  · rw [if_pos hv, cellsFind_drop_same hr]; exact hv.symm
  · rw [if_neg hv, cellsFind_put_same]

/-- A write leaves every other word alone. -/
theorem delayRead_write_other (c : Lane) (m : DelayMem α) (j k : Nat) (v : α) (h : k ≠ j) :
    delayRead c (delayWrite c m j v) k = delayRead c m k := by
  unfold delayRead
  rw [unlistedWord_delayWrite, delayWrite_cells]
  by_cases hv : v = unlistedWord c m j
  · rw [if_pos hv, cellsFind_drop_other _ _ _ h]
  · rw [if_neg hv, cellsFind_put_other _ _ _ _ h]

/-- A write inside the memory keeps the canonical form. -/
theorem delayWf_write {c : Lane} {m : DelayMem α} (h : delayWf c m = true) {j : Nat} (hj : j < bufSize) (v : α) :
    delayWf c (delayWrite c m j v) = true := by
  simp only [delayWf, Bool.and_eq_true, List.all_eq_true, decide_eq_true_eq] at h ⊢
  obtain ⟨hr, ha⟩ := h
  constructor
  · unfold delayWrite
    split
    · exact risingFrom_drop hr j
    · exact risingFrom_put hr (Nat.zero_le j) v
  · intro e he
    rw [unlistedWord_delayWrite]
    unfold delayWrite at he
    split at he
    · exact ha e (mem_drop he)
    · rename_i hv
      rcases mem_put he with rfl | he
      · exact ⟨hj, hv⟩
      · exact ha e he

theorem delayWf_zeroed (c : Lane) (z : α) : delayWf c (.zeroed z) = true := rfl

theorem delayWf_powerOn (c : Lane) : delayWf c (DelayMem.powerOn : DelayMem α) = true := rfl

/-! ### The whole memory -/

theorem memoryWf_get {p : PerLane (DelayMem α)} (h : memoryWf p = true) (c : Lane) : delayWf c (p.get c) = true := by
  simp only [memoryWf, Bool.and_eq_true] at h
  cases c
  · exact h.1
  · exact h.2

theorem memoryWf_iff (p : PerLane (DelayMem α)) : memoryWf p = true ↔ ∀ c, delayWf c (p.get c) = true := by
  constructor
  · intro h c; exact memoryWf_get h c
  · intro h
    simp only [memoryWf, Bool.and_eq_true]
    exact ⟨h .lane0, h .lane1⟩

/-- `MemWrite` keeps the canonical form. -/
theorem memoryWf_memWrite {s : Gen.State α σ} (h : memoryWf s.delayBuffer = true) (c : Lane) (j : BitVec 12) (v : α) :
    memoryWf (memWrite s c j v).delayBuffer = true := by
  rw [memoryWf_iff] at h ⊢
  intro d
  rw [memWrite_delayBuffer]
  by_cases hd : d = c
  · subst hd
    rw [PerLane.get_set_same]
    exact delayWf_write (h d) j.isLt v
  · rw [PerLane.get_set_other _ _ _ _ hd]
    exact h d

theorem maskIndex_lt (j : Int) : maskIndex j < 4096 := (BitVec.ofInt 12 j).isLt

/-- `MemRead` after `MemWrite`, at the word written. -/
theorem memRead_memWrite_same {s : Gen.State α σ} (h : memoryWf s.delayBuffer = true) (c : Lane) (w : BitVec 12) (v : α)
    {j : Int} (hj : maskIndex j = w.toNat) : memRead (memWrite s c w v) c j = v := by
  unfold memRead
  rw [memWrite_delayBuffer, PerLane.get_set_same, hj]
  exact delayRead_write_same (memoryWf_get h c) _ _

/-- `MemRead` after `MemWrite`, at any other word of any lane. -/
theorem memRead_memWrite_other (s : Gen.State α σ) (c d : Lane) (w : BitVec 12) (v : α) {j : Int}
    (h : d ≠ c ∨ maskIndex j ≠ w.toNat) : memRead (memWrite s c w v) d j = memRead s d j := by
  unfold memRead
  rw [memWrite_delayBuffer]
  by_cases hd : d = c
  · subst hd
    rw [PerLane.get_set_same]
    rcases h with h | h
    · exact absurd rfl h
    · exact delayRead_write_other _ _ _ _ _ h
  · rw [PerLane.get_set_other _ _ _ _ hd]

omit [DecidableEq α] in
/-- `MemRead` depends on the memory alone. -/
theorem memRead_congr {s t : Gen.State α σ} (h : t.delayBuffer = s.delayBuffer) (c : Lane) (j : Int) :
    memRead t c j = memRead s c j := by
  unfold memRead; rw [h]

omit [DecidableEq α] in
/-- Every word of a memory RESET has zeroed reads as the zero it wrote. -/
theorem delayRead_zeroed (c : Lane) (z : α) (j : Nat) : delayRead c (.zeroed z) j = z := rfl

theorem memoryWf_reset : memoryWf State.reset.delayBuffer = true := rfl

end Sys2Proof.Machine
end

