-- ==== Sys2Proof/Laws/Exec.lean ====
section
/-! SUPPORT. What each shared operation leaves alone, field by field; the outcome of every instruction as an equation;
and, for the operations that can stop, one lemma that says everything an answer of `next` means. -/

namespace Sys2Proof.Machine

variable {α σ : Type}

/-! ### Fields an operation leaves alone -/

section envOp
variable (O : OpenParams α σ) (s : Gen.State α σ)
@[simp] theorem envOp_cfg : (envOp O s).cfg = s.cfg := rfl
@[simp] theorem envOp_P : (envOp O s).P = s.P := rfl
@[simp] theorem envOp_lfoPhase : (envOp O s).lfoPhase = s.lfoPhase := rfl
@[simp] theorem envOp_writePos : (envOp O s).writePos = s.writePos := rfl
@[simp] theorem envOp_variationSmoothed : (envOp O s).variationSmoothed = s.variationSmoothed := rfl
@[simp] theorem envOp_variationTarget : (envOp O s).variationTarget = s.variationTarget := rfl
@[simp] theorem envOp_variationCountdown : (envOp O s).variationCountdown = s.variationCountdown := rfl
@[simp] theorem envOp_formantUpdateCounter : (envOp O s).formantUpdateCounter = s.formantUpdateCounter := rfl
@[simp] theorem envOp_filt : (envOp O s).filt = s.filt := rfl
@[simp] theorem envOp_delayBuffer : (envOp O s).delayBuffer = s.delayBuffer := rfl
@[simp] theorem envOp_rngState : (envOp O s).rngState = s.rngState := rfl
@[simp] theorem envOp_wires : (envOp O s).wires = s.wires := rfl
@[simp] theorem envOp_response : (envOp O s).response = s.response := rfl
@[simp] theorem envOp_hostIn : (envOp O s).hostIn = s.hostIn := rfl
@[simp] theorem envOp_slots : (envOp O s).slots = s.slots := rfl
end envOp

section varOp
variable (O : OpenParams α σ) (s : Gen.State α σ)
@[simp] theorem varOp_cfg : (varOp O s).cfg = s.cfg := by unfold varOp varGlide varCount; (repeat' split) <;> rfl
@[simp] theorem varOp_P : (varOp O s).P = s.P := by unfold varOp varGlide varCount; (repeat' split) <;> rfl
@[simp] theorem varOp_envelope : (varOp O s).envelope = s.envelope := by unfold varOp varGlide varCount; (repeat' split) <;> rfl
@[simp] theorem varOp_lfoPhase : (varOp O s).lfoPhase = s.lfoPhase := by unfold varOp varGlide varCount; (repeat' split) <;> rfl
@[simp] theorem varOp_writePos : (varOp O s).writePos = s.writePos := by unfold varOp varGlide varCount; (repeat' split) <;> rfl
@[simp] theorem varOp_formantUpdateCounter : (varOp O s).formantUpdateCounter = s.formantUpdateCounter := by unfold varOp varGlide varCount; (repeat' split) <;> rfl
@[simp] theorem varOp_filt : (varOp O s).filt = s.filt := by unfold varOp varGlide varCount; (repeat' split) <;> rfl
@[simp] theorem varOp_delayBuffer : (varOp O s).delayBuffer = s.delayBuffer := by unfold varOp varGlide varCount; (repeat' split) <;> rfl
@[simp] theorem varOp_wires : (varOp O s).wires = s.wires := by unfold varOp varGlide varCount; (repeat' split) <;> rfl
@[simp] theorem varOp_response : (varOp O s).response = s.response := by unfold varOp varGlide varCount; (repeat' split) <;> rfl
@[simp] theorem varOp_hostIn : (varOp O s).hostIn = s.hostIn := by unfold varOp varGlide varCount; (repeat' split) <;> rfl
@[simp] theorem varOp_slots : (varOp O s).slots = s.slots := by unfold varOp varGlide varCount; (repeat' split) <;> rfl
end varOp

section lfoStore
variable (O : OpenParams α σ) (s : Gen.State α σ) (p : α)
@[simp] theorem lfoStore_cfg : (lfoStore O s p).cfg = s.cfg := rfl
@[simp] theorem lfoStore_P : (lfoStore O s p).P = s.P := rfl
@[simp] theorem lfoStore_envelope : (lfoStore O s p).envelope = s.envelope := rfl
@[simp] theorem lfoStore_writePos : (lfoStore O s p).writePos = s.writePos := rfl
@[simp] theorem lfoStore_variationSmoothed : (lfoStore O s p).variationSmoothed = s.variationSmoothed := rfl
@[simp] theorem lfoStore_variationTarget : (lfoStore O s p).variationTarget = s.variationTarget := rfl
@[simp] theorem lfoStore_variationCountdown : (lfoStore O s p).variationCountdown = s.variationCountdown := rfl
@[simp] theorem lfoStore_formantUpdateCounter : (lfoStore O s p).formantUpdateCounter = s.formantUpdateCounter := rfl
@[simp] theorem lfoStore_filt : (lfoStore O s p).filt = s.filt := rfl
@[simp] theorem lfoStore_delayBuffer : (lfoStore O s p).delayBuffer = s.delayBuffer := rfl
@[simp] theorem lfoStore_rngState : (lfoStore O s p).rngState = s.rngState := rfl
@[simp] theorem lfoStore_response : (lfoStore O s p).response = s.response := rfl
@[simp] theorem lfoStore_hostIn : (lfoStore O s p).hostIn = s.hostIn := rfl
@[simp] theorem lfoStore_slots : (lfoStore O s p).slots = s.slots := rfl
end lfoStore

section dmodOp
variable (O : OpenParams α σ) (s : Gen.State α σ)
@[simp] theorem dmodOp_cfg : (dmodOp O s).cfg = s.cfg := rfl
@[simp] theorem dmodOp_P : (dmodOp O s).P = s.P := rfl
@[simp] theorem dmodOp_envelope : (dmodOp O s).envelope = s.envelope := rfl
@[simp] theorem dmodOp_lfoPhase : (dmodOp O s).lfoPhase = s.lfoPhase := rfl
@[simp] theorem dmodOp_writePos : (dmodOp O s).writePos = s.writePos := rfl
@[simp] theorem dmodOp_variationSmoothed : (dmodOp O s).variationSmoothed = s.variationSmoothed := rfl
@[simp] theorem dmodOp_variationTarget : (dmodOp O s).variationTarget = s.variationTarget := rfl
@[simp] theorem dmodOp_variationCountdown : (dmodOp O s).variationCountdown = s.variationCountdown := rfl
@[simp] theorem dmodOp_formantUpdateCounter : (dmodOp O s).formantUpdateCounter = s.formantUpdateCounter := rfl
@[simp] theorem dmodOp_filt : (dmodOp O s).filt = s.filt := rfl
@[simp] theorem dmodOp_delayBuffer : (dmodOp O s).delayBuffer = s.delayBuffer := rfl
@[simp] theorem dmodOp_rngState : (dmodOp O s).rngState = s.rngState := rfl
@[simp] theorem dmodOp_response : (dmodOp O s).response = s.response := rfl
@[simp] theorem dmodOp_hostIn : (dmodOp O s).hostIn = s.hostIn := rfl
@[simp] theorem dmodOp_slots : (dmodOp O s).slots = s.slots := rfl
end dmodOp

section dwrOp
variable [DecidableEq α] [Inhabited α]
variable (c : Lane) (s : Gen.State α σ)
@[simp] theorem dwrOp_cfg : (dwrOp c s).cfg = s.cfg := rfl
@[simp] theorem dwrOp_P : (dwrOp c s).P = s.P := rfl
@[simp] theorem dwrOp_envelope : (dwrOp c s).envelope = s.envelope := rfl
@[simp] theorem dwrOp_lfoPhase : (dwrOp c s).lfoPhase = s.lfoPhase := rfl
@[simp] theorem dwrOp_writePos : (dwrOp c s).writePos = s.writePos := rfl
@[simp] theorem dwrOp_variationSmoothed : (dwrOp c s).variationSmoothed = s.variationSmoothed := rfl
@[simp] theorem dwrOp_variationTarget : (dwrOp c s).variationTarget = s.variationTarget := rfl
@[simp] theorem dwrOp_variationCountdown : (dwrOp c s).variationCountdown = s.variationCountdown := rfl
@[simp] theorem dwrOp_formantUpdateCounter : (dwrOp c s).formantUpdateCounter = s.formantUpdateCounter := rfl
@[simp] theorem dwrOp_filt : (dwrOp c s).filt = s.filt := rfl
@[simp] theorem dwrOp_rngState : (dwrOp c s).rngState = s.rngState := rfl
@[simp] theorem dwrOp_wires : (dwrOp c s).wires = s.wires := rfl
@[simp] theorem dwrOp_response : (dwrOp c s).response = s.response := rfl
@[simp] theorem dwrOp_hostIn : (dwrOp c s).hostIn = s.hostIn := rfl
@[simp] theorem dwrOp_slots : (dwrOp c s).slots = s.slots := rfl
end dwrOp

section drdOp
variable [Inhabited α]
variable (O : OpenParams α σ) (c : Lane) (s : Gen.State α σ)
@[simp] theorem drdOp_cfg : (drdOp O c s).cfg = s.cfg := rfl
@[simp] theorem drdOp_P : (drdOp O c s).P = s.P := rfl
@[simp] theorem drdOp_envelope : (drdOp O c s).envelope = s.envelope := rfl
@[simp] theorem drdOp_lfoPhase : (drdOp O c s).lfoPhase = s.lfoPhase := rfl
@[simp] theorem drdOp_writePos : (drdOp O c s).writePos = s.writePos := rfl
@[simp] theorem drdOp_variationSmoothed : (drdOp O c s).variationSmoothed = s.variationSmoothed := rfl
@[simp] theorem drdOp_variationTarget : (drdOp O c s).variationTarget = s.variationTarget := rfl
@[simp] theorem drdOp_variationCountdown : (drdOp O c s).variationCountdown = s.variationCountdown := rfl
@[simp] theorem drdOp_formantUpdateCounter : (drdOp O c s).formantUpdateCounter = s.formantUpdateCounter := rfl
@[simp] theorem drdOp_filt : (drdOp O c s).filt = s.filt := rfl
@[simp] theorem drdOp_delayBuffer : (drdOp O c s).delayBuffer = s.delayBuffer := rfl
@[simp] theorem drdOp_rngState : (drdOp O c s).rngState = s.rngState := rfl
@[simp] theorem drdOp_response : (drdOp O c s).response = s.response := rfl
@[simp] theorem drdOp_hostIn : (drdOp O c s).hostIn = s.hostIn := rfl
@[simp] theorem drdOp_slots : (drdOp O c s).slots = s.slots := rfl
end drdOp

section wadvOp
variable (s : Gen.State α σ)
@[simp] theorem wadvOp_cfg : (wadvOp s).cfg = s.cfg := rfl
@[simp] theorem wadvOp_P : (wadvOp s).P = s.P := rfl
@[simp] theorem wadvOp_envelope : (wadvOp s).envelope = s.envelope := rfl
@[simp] theorem wadvOp_lfoPhase : (wadvOp s).lfoPhase = s.lfoPhase := rfl
@[simp] theorem wadvOp_variationSmoothed : (wadvOp s).variationSmoothed = s.variationSmoothed := rfl
@[simp] theorem wadvOp_variationTarget : (wadvOp s).variationTarget = s.variationTarget := rfl
@[simp] theorem wadvOp_variationCountdown : (wadvOp s).variationCountdown = s.variationCountdown := rfl
@[simp] theorem wadvOp_formantUpdateCounter : (wadvOp s).formantUpdateCounter = s.formantUpdateCounter := rfl
@[simp] theorem wadvOp_filt : (wadvOp s).filt = s.filt := rfl
@[simp] theorem wadvOp_delayBuffer : (wadvOp s).delayBuffer = s.delayBuffer := rfl
@[simp] theorem wadvOp_rngState : (wadvOp s).rngState = s.rngState := rfl
@[simp] theorem wadvOp_wires : (wadvOp s).wires = s.wires := rfl
@[simp] theorem wadvOp_response : (wadvOp s).response = s.response := rfl
@[simp] theorem wadvOp_hostIn : (wadvOp s).hostIn = s.hostIn := rfl
@[simp] theorem wadvOp_slots : (wadvOp s).slots = s.slots := rfl
end wadvOp

section fcoefOp
variable (O : OpenParams α σ) (s : Gen.State α σ)
@[simp] theorem fcoefOp_cfg : (fcoefOp O s).cfg = s.cfg := by unfold fcoefOp; split <;> rfl
@[simp] theorem fcoefOp_P : (fcoefOp O s).P = s.P := by unfold fcoefOp; split <;> rfl
@[simp] theorem fcoefOp_envelope : (fcoefOp O s).envelope = s.envelope := by unfold fcoefOp; split <;> rfl
@[simp] theorem fcoefOp_lfoPhase : (fcoefOp O s).lfoPhase = s.lfoPhase := by unfold fcoefOp; split <;> rfl
@[simp] theorem fcoefOp_writePos : (fcoefOp O s).writePos = s.writePos := by unfold fcoefOp; split <;> rfl
@[simp] theorem fcoefOp_variationSmoothed : (fcoefOp O s).variationSmoothed = s.variationSmoothed := by unfold fcoefOp; split <;> rfl
@[simp] theorem fcoefOp_variationTarget : (fcoefOp O s).variationTarget = s.variationTarget := by unfold fcoefOp; split <;> rfl
@[simp] theorem fcoefOp_variationCountdown : (fcoefOp O s).variationCountdown = s.variationCountdown := by unfold fcoefOp; split <;> rfl
@[simp] theorem fcoefOp_delayBuffer : (fcoefOp O s).delayBuffer = s.delayBuffer := by unfold fcoefOp; split <;> rfl
@[simp] theorem fcoefOp_rngState : (fcoefOp O s).rngState = s.rngState := by unfold fcoefOp; split <;> rfl
@[simp] theorem fcoefOp_wires : (fcoefOp O s).wires = s.wires := by unfold fcoefOp; split <;> rfl
@[simp] theorem fcoefOp_response : (fcoefOp O s).response = s.response := by unfold fcoefOp; split <;> rfl
@[simp] theorem fcoefOp_hostIn : (fcoefOp O s).hostIn = s.hostIn := by unfold fcoefOp; split <;> rfl
@[simp] theorem fcoefOp_slots : (fcoefOp O s).slots = s.slots := by unfold fcoefOp; split <;> rfl
end fcoefOp

section fmixOp
variable (O : OpenParams α σ) (c : Lane) (s : Gen.State α σ)
@[simp] theorem fmixOp_cfg : (fmixOp O c s).cfg = s.cfg := by unfold fmixOp; split <;> rfl
@[simp] theorem fmixOp_P : (fmixOp O c s).P = s.P := by unfold fmixOp; split <;> rfl
@[simp] theorem fmixOp_envelope : (fmixOp O c s).envelope = s.envelope := by unfold fmixOp; split <;> rfl
@[simp] theorem fmixOp_lfoPhase : (fmixOp O c s).lfoPhase = s.lfoPhase := by unfold fmixOp; split <;> rfl
@[simp] theorem fmixOp_writePos : (fmixOp O c s).writePos = s.writePos := by unfold fmixOp; split <;> rfl
@[simp] theorem fmixOp_variationSmoothed : (fmixOp O c s).variationSmoothed = s.variationSmoothed := by unfold fmixOp; split <;> rfl
@[simp] theorem fmixOp_variationTarget : (fmixOp O c s).variationTarget = s.variationTarget := by unfold fmixOp; split <;> rfl
@[simp] theorem fmixOp_variationCountdown : (fmixOp O c s).variationCountdown = s.variationCountdown := by unfold fmixOp; split <;> rfl
@[simp] theorem fmixOp_formantUpdateCounter : (fmixOp O c s).formantUpdateCounter = s.formantUpdateCounter := by unfold fmixOp; split <;> rfl
@[simp] theorem fmixOp_delayBuffer : (fmixOp O c s).delayBuffer = s.delayBuffer := by unfold fmixOp; split <;> rfl
@[simp] theorem fmixOp_rngState : (fmixOp O c s).rngState = s.rngState := by unfold fmixOp; split <;> rfl
@[simp] theorem fmixOp_response : (fmixOp O c s).response = s.response := by unfold fmixOp; split <;> rfl
@[simp] theorem fmixOp_hostIn : (fmixOp O c s).hostIn = s.hostIn := by unfold fmixOp; split <;> rfl
@[simp] theorem fmixOp_slots : (fmixOp O c s).slots = s.slots := by unfold fmixOp; split <;> rfl
end fmixOp

section tremOp
variable (O : OpenParams α σ) (c : Lane) (s : Gen.State α σ)
@[simp] theorem tremOp_cfg : (tremOp O c s).cfg = s.cfg := rfl
@[simp] theorem tremOp_P : (tremOp O c s).P = s.P := rfl
@[simp] theorem tremOp_envelope : (tremOp O c s).envelope = s.envelope := rfl
@[simp] theorem tremOp_lfoPhase : (tremOp O c s).lfoPhase = s.lfoPhase := rfl
@[simp] theorem tremOp_writePos : (tremOp O c s).writePos = s.writePos := rfl
@[simp] theorem tremOp_variationSmoothed : (tremOp O c s).variationSmoothed = s.variationSmoothed := rfl
@[simp] theorem tremOp_variationTarget : (tremOp O c s).variationTarget = s.variationTarget := rfl
@[simp] theorem tremOp_variationCountdown : (tremOp O c s).variationCountdown = s.variationCountdown := rfl
@[simp] theorem tremOp_formantUpdateCounter : (tremOp O c s).formantUpdateCounter = s.formantUpdateCounter := rfl
@[simp] theorem tremOp_filt : (tremOp O c s).filt = s.filt := rfl
@[simp] theorem tremOp_delayBuffer : (tremOp O c s).delayBuffer = s.delayBuffer := rfl
@[simp] theorem tremOp_rngState : (tremOp O c s).rngState = s.rngState := rfl
@[simp] theorem tremOp_response : (tremOp O c s).response = s.response := rfl
@[simp] theorem tremOp_hostIn : (tremOp O c s).hostIn = s.hostIn := rfl
@[simp] theorem tremOp_slots : (tremOp O c s).slots = s.slots := rfl
end tremOp

section laneOps
variable [DecidableEq α] [Inhabited α]
variable (O : OpenParams α σ) (s : Gen.State α σ) (c : Lane)
@[simp] theorem laneOps_cfg : (laneOps O s c).cfg = s.cfg := by simp [laneOps]
@[simp] theorem laneOps_P : (laneOps O s c).P = s.P := by simp [laneOps]
@[simp] theorem laneOps_envelope : (laneOps O s c).envelope = s.envelope := by simp [laneOps]
@[simp] theorem laneOps_lfoPhase : (laneOps O s c).lfoPhase = s.lfoPhase := by simp [laneOps]
@[simp] theorem laneOps_writePos : (laneOps O s c).writePos = s.writePos := by simp [laneOps]
@[simp] theorem laneOps_variationSmoothed : (laneOps O s c).variationSmoothed = s.variationSmoothed := by simp [laneOps]
@[simp] theorem laneOps_variationTarget : (laneOps O s c).variationTarget = s.variationTarget := by simp [laneOps]
@[simp] theorem laneOps_variationCountdown : (laneOps O s c).variationCountdown = s.variationCountdown := by simp [laneOps]
@[simp] theorem laneOps_formantUpdateCounter : (laneOps O s c).formantUpdateCounter = s.formantUpdateCounter := by simp [laneOps]
@[simp] theorem laneOps_rngState : (laneOps O s c).rngState = s.rngState := by simp [laneOps]
@[simp] theorem laneOps_response : (laneOps O s c).response = s.response := by simp [laneOps]
@[simp] theorem laneOps_hostIn : (laneOps O s c).hostIn = s.hostIn := by simp [laneOps]
@[simp] theorem laneOps_slots : (laneOps O s c).slots = s.slots := by simp [laneOps]
end laneOps

section finishStep
variable (z : α) (lanes : List Lane) (s : Gen.State α σ)
@[simp] theorem finishStep_cfg : (finishStep z lanes s).cfg = s.cfg := rfl
@[simp] theorem finishStep_P : (finishStep z lanes s).P = s.P := rfl
@[simp] theorem finishStep_envelope : (finishStep z lanes s).envelope = s.envelope := rfl
@[simp] theorem finishStep_lfoPhase : (finishStep z lanes s).lfoPhase = s.lfoPhase := rfl
@[simp] theorem finishStep_writePos : (finishStep z lanes s).writePos = s.writePos := rfl
@[simp] theorem finishStep_variationSmoothed : (finishStep z lanes s).variationSmoothed = s.variationSmoothed := rfl
@[simp] theorem finishStep_variationTarget : (finishStep z lanes s).variationTarget = s.variationTarget := rfl
@[simp] theorem finishStep_variationCountdown : (finishStep z lanes s).variationCountdown = s.variationCountdown := rfl
@[simp] theorem finishStep_formantUpdateCounter : (finishStep z lanes s).formantUpdateCounter = s.formantUpdateCounter := rfl
@[simp] theorem finishStep_filt : (finishStep z lanes s).filt = s.filt := rfl
@[simp] theorem finishStep_delayBuffer : (finishStep z lanes s).delayBuffer = s.delayBuffer := rfl
@[simp] theorem finishStep_rngState : (finishStep z lanes s).rngState = s.rngState := rfl
@[simp] theorem finishStep_hostIn : (finishStep z lanes s).hostIn = s.hostIn := rfl
@[simp] theorem finishStep_slots : (finishStep z lanes s).slots = s.slots := rfl
end finishStep

section resetOp
variable (O : OpenParams α σ) (s : Gen.State α σ)
@[simp] theorem resetOp_cfg : (resetOp O s).cfg = s.cfg := rfl
@[simp] theorem resetOp_P : (resetOp O s).P = s.P := rfl
@[simp] theorem resetOp_wires : (resetOp O s).wires = s.wires := rfl
@[simp] theorem resetOp_hostIn : (resetOp O s).hostIn = s.hostIn := rfl
@[simp] theorem resetOp_slots : (resetOp O s).slots = s.slots := rfl
@[simp] theorem resetOp_envelope : (resetOp O s).envelope = O.num.lit .zero := rfl
@[simp] theorem resetOp_lfoPhase : (resetOp O s).lfoPhase = O.num.lit .zero := rfl
@[simp] theorem resetOp_writePos : (resetOp O s).writePos = 0 := rfl
@[simp] theorem resetOp_variationSmoothed : (resetOp O s).variationSmoothed = O.num.lit .zero := rfl
@[simp] theorem resetOp_variationTarget : (resetOp O s).variationTarget = O.num.lit .zero := rfl
@[simp] theorem resetOp_variationCountdown : (resetOp O s).variationCountdown = 0 := rfl
@[simp] theorem resetOp_formantUpdateCounter : (resetOp O s).formantUpdateCounter = 0 := rfl
@[simp] theorem resetOp_filt : (resetOp O s).filt = { l0 := .zero (O.num.lit .zero), l1 := .zero (O.num.lit .zero) } := rfl
@[simp] theorem resetOp_delayBuffer : (resetOp O s).delayBuffer
    = { l0 := .zeroed (O.num.lit .zero), l1 := .zeroed (O.num.lit .zero) } := rfl
@[simp] theorem resetOp_response : (resetOp O s).response = [] := rfl
end resetOp

/-- The machine's `RESET_RESEEDS_RNG` is the default, false: RESET leaves the generator (R149). -/
theorem resetOp_machine_rngState (s : State) : (resetOp machineParams s).rngState = s.rngState := rfl

section foldLanes
variable [DecidableEq α] [Inhabited α]
variable (O : OpenParams α σ) (lanes : List Lane) (s : Gen.State α σ)
@[simp] theorem foldLanes_cfg : (lanes.foldl (laneOps O) s).cfg = s.cfg := by
  induction lanes generalizing s with
  | nil => rfl
  | cons c rest ih => simp [ih]
@[simp] theorem foldLanes_P : (lanes.foldl (laneOps O) s).P = s.P := by
  induction lanes generalizing s with
  | nil => rfl
  | cons c rest ih => simp [ih]
@[simp] theorem foldLanes_envelope : (lanes.foldl (laneOps O) s).envelope = s.envelope := by
  induction lanes generalizing s with
  | nil => rfl
  | cons c rest ih => simp [ih]
@[simp] theorem foldLanes_lfoPhase : (lanes.foldl (laneOps O) s).lfoPhase = s.lfoPhase := by
  induction lanes generalizing s with
  | nil => rfl
  | cons c rest ih => simp [ih]
@[simp] theorem foldLanes_writePos : (lanes.foldl (laneOps O) s).writePos = s.writePos := by
  induction lanes generalizing s with
  | nil => rfl
  | cons c rest ih => simp [ih]
@[simp] theorem foldLanes_variationSmoothed : (lanes.foldl (laneOps O) s).variationSmoothed = s.variationSmoothed := by
  induction lanes generalizing s with
  | nil => rfl
  | cons c rest ih => simp [ih]
@[simp] theorem foldLanes_variationTarget : (lanes.foldl (laneOps O) s).variationTarget = s.variationTarget := by
  induction lanes generalizing s with
  | nil => rfl
  | cons c rest ih => simp [ih]
@[simp] theorem foldLanes_variationCountdown : (lanes.foldl (laneOps O) s).variationCountdown = s.variationCountdown := by
  induction lanes generalizing s with
  | nil => rfl
  | cons c rest ih => simp [ih]
@[simp] theorem foldLanes_formantUpdateCounter : (lanes.foldl (laneOps O) s).formantUpdateCounter = s.formantUpdateCounter := by
  induction lanes generalizing s with
  | nil => rfl
  | cons c rest ih => simp [ih]
@[simp] theorem foldLanes_rngState : (lanes.foldl (laneOps O) s).rngState = s.rngState := by
  induction lanes generalizing s with
  | nil => rfl
  | cons c rest ih => simp [ih]
@[simp] theorem foldLanes_response : (lanes.foldl (laneOps O) s).response = s.response := by
  induction lanes generalizing s with
  | nil => rfl
  | cons c rest ih => simp [ih]
@[simp] theorem foldLanes_hostIn : (lanes.foldl (laneOps O) s).hostIn = s.hostIn := by
  induction lanes generalizing s with
  | nil => rfl
  | cons c rest ih => simp [ih]
@[simp] theorem foldLanes_slots : (lanes.foldl (laneOps O) s).slots = s.slots := by
  induction lanes generalizing s with
  | nil => rfl
  | cons c rest ih => simp [ih]
end foldLanes

section afterLfo
variable [DecidableEq α] [Inhabited α]
variable (O : OpenParams α σ) (lanes : List Lane) (s : Gen.State α σ)
@[simp] theorem afterLfo_cfg : (afterLfo O lanes s).cfg = s.cfg := by simp [afterLfo]
@[simp] theorem afterLfo_P : (afterLfo O lanes s).P = s.P := by simp [afterLfo]
@[simp] theorem afterLfo_envelope : (afterLfo O lanes s).envelope = s.envelope := by simp [afterLfo]
@[simp] theorem afterLfo_lfoPhase : (afterLfo O lanes s).lfoPhase = s.lfoPhase := by simp [afterLfo]
@[simp] theorem afterLfo_variationSmoothed : (afterLfo O lanes s).variationSmoothed = s.variationSmoothed := by simp [afterLfo]
@[simp] theorem afterLfo_variationTarget : (afterLfo O lanes s).variationTarget = s.variationTarget := by simp [afterLfo]
@[simp] theorem afterLfo_variationCountdown : (afterLfo O lanes s).variationCountdown = s.variationCountdown := by simp [afterLfo]
@[simp] theorem afterLfo_rngState : (afterLfo O lanes s).rngState = s.rngState := by simp [afterLfo]
@[simp] theorem afterLfo_response : (afterLfo O lanes s).response = s.response := by simp [afterLfo]
@[simp] theorem afterLfo_hostIn : (afterLfo O lanes s).hostIn = s.hostIn := by simp [afterLfo]
@[simp] theorem afterLfo_slots : (afterLfo O lanes s).slots = s.slots := by simp [afterLfo]
@[simp] theorem afterLfo_writePos : (afterLfo O lanes s).writePos = s.writePos + 1 := by
  simp [afterLfo, wadvOp]
@[simp] theorem afterLfo_formantUpdateCounter :
    (afterLfo O lanes s).formantUpdateCounter = (fcoefOp O s).formantUpdateCounter := by
  simp only [afterLfo, wadvOp_formantUpdateCounter, foldLanes_formantUpdateCounter]
  by_cases h : countExpired (countDown s.formantUpdateCounter) = true <;> simp [fcoefOp, h]
end afterLfo

/-! ### The outcome of each instruction -/

section outcome
variable (s : State) (c : Lane)
theorem exec_prepare (sr : F) (mbs : Word) : exec (.prepare sr mbs) s = prepareOp machineParams sr mbs s := rfl
theorem exec_reset : exec .reset s = .next (resetOp machineParams s) := rfl
theorem exec_loadp (t : Bool) (w1 w2 w3 w4 w5 w6 : F) :
    exec (.loadp t w1 w2 w3 w4 w5 w6) s = loadpOp machineParams (snapshotOf t w1 w2 w3 w4 w5 w6) s := rfl
theorem exec_step (frame : List F) : exec (.step frame) s = stepOp machineParams frame s := rfl
theorem exec_env : exec .env s = .next (envOp machineParams s) := rfl
theorem exec_var : exec .var s = .next (varOp machineParams s) := rfl
theorem exec_lfo : exec .lfo s = lfoOp machineParams s := rfl
theorem exec_dmod : exec .dmod s = .next (dmodOp machineParams s) := rfl
theorem exec_fcoef : exec .fcoef s = .next (fcoefOp machineParams s) := rfl
theorem exec_dwr : exec (.dwr c) s = .next (dwrOp c s) := rfl
theorem exec_drd : exec (.drd c) s = .next (drdOp machineParams c s) := rfl
theorem exec_fmix : exec (.fmix c) s = .next (fmixOp machineParams c s) := rfl
theorem exec_trem : exec (.trem c) s = .next (tremOp machineParams c s) := rfl
theorem exec_wadv : exec .wadv s = .next (wadvOp s) := rfl
end outcome

/-! ### What an answer of `next` means -/

section answers
variable {O : OpenParams α σ} {s t : Gen.State α σ}

theorem andThen_next {r : Gen.Result α σ} {k : Gen.State α σ → Gen.Result α σ} :
    andThen r k = .next t ↔ ∃ u, r = .next u ∧ k u = .next t := by
  cases r <;> simp [andThen]

theorem lfoOp_next : lfoOp O s = .next t ↔ ∃ p, statePhase O s = some p ∧ t = lfoStore O s p := by
  unfold lfoOp
  cases statePhase O s <;> simp [eq_comm]

theorem prepareOp_next {sr : α} {mbs : Word} :
    prepareOp O sr mbs s = .next t ↔ admitRate O sr = true
      ∧ t = resetOp O (setCfg s { prepared := true, sampleRate := sr, maxBlockSize := mbs }) := by
  unfold prepareOp
  cases admitRate O sr <;> simp [refuse, eq_comm]

theorem loadpOp_next {p : ParamRegs α} :
    loadpOp O p s = .next t ↔ admitSnapshot O.num p = true ∧ t = setResponse (setParams s p) [] := by
  unfold loadpOp
  cases admitSnapshot O.num p <;> simp [refuse, eq_comm]

variable [DecidableEq α] [Inhabited α]

theorem runSchedule_next {lanes : List Lane} :
    runSchedule O lanes s = .next t ↔ ∃ p, statePhase O (varOp O (envOp O s)) = some p
      ∧ t = afterLfo O lanes (lfoStore O (varOp O (envOp O s)) p) := by
  simp only [runSchedule, andThen_next, lfoOp_next, Host.Outcome.next.injEq]
  constructor
  · rintro ⟨_, ⟨p, hp, rfl⟩, rfl⟩
    exact ⟨p, hp, rfl⟩
  · rintro ⟨p, hp, rfl⟩
    exact ⟨_, ⟨p, hp, rfl⟩, rfl⟩

/-- Everything a completed STEP says. -/
theorem stepOp_next {frame : List α} :
    stepOp O frame s = .next t ↔ ∃ lanes p, lanesOfCount frame.length = some lanes ∧ s.cfg.prepared = true
      ∧ s.P.valid = true ∧ admitFrame O.num frame = true
      ∧ statePhase O (varOp O (envOp O (setWires s (frameWires (O.num.lit .zero) frame)))) = some p
      ∧ t = finishStep (O.num.lit .zero) lanes
          (afterLfo O lanes (lfoStore O (varOp O (envOp O (setWires s (frameWires (O.num.lit .zero) frame)))) p)) := by
  unfold stepOp
  cases hl : lanesOfCount frame.length with
  | none => simp [refuse]
  | some lanes =>
    cases hp : s.cfg.prepared
    · simp [refuse]
    cases hv : s.P.valid
    · simp [refuse]
    cases ha : admitFrame O.num frame
    · simp [refuse]
    simp only [admittedStep, andThen_next, runSchedule_next, Host.Outcome.next.injEq, Bool.not_true,
      Bool.false_eq_true, if_false, Option.some.injEq, true_and]
    constructor
    · rintro ⟨_, ⟨p, h, rfl⟩, rfl⟩
      exact ⟨_, p, rfl, h, rfl⟩
    · rintro ⟨_, p, rfl, h, rfl⟩
      exact ⟨_, ⟨p, h, rfl⟩, rfl⟩

/-- Where a STEP is refused. -/
theorem stepOp_refused {frame : List α} {r : Refusal} (h : stepOp O frame s = .refused r) :
    (lanesOfCount frame.length = none ∧ r = .reservedCommand)
    ∨ (s.cfg.prepared = false ∧ r = .notPrepared) ∨ (s.P.valid = false ∧ r = .noSnapshot)
    ∨ (admitFrame O.num frame = false ∧ r = .badSample) := by
  unfold stepOp at h
  cases hl : lanesOfCount frame.length with
  | none => simp_all [refuse]
  | some lanes =>
    cases hp : s.cfg.prepared
    · simp_all [refuse]
    cases hv : s.P.valid
    · simp_all [refuse]
    cases ha : admitFrame O.num frame
    · simp_all [refuse]
    simp only [hl, hp, hv, ha, Bool.not_true, Bool.false_eq_true, if_false, admittedStep, runSchedule, lfoOp] at h
    split at h <;> simp_all [andThen]

/-- Everything a step of the machine that answers a next state says. -/
theorem step_next {s t : State} (h : step s = .next t) :
    (∃ id ids i, s.slots = id :: ids ∧ decodeMicro id = some i ∧ exec i (setSlots s ids) = .next t)
    ∨ (s.slots = [] ∧ decode s.hostIn = .incomplete ∧ t = s)
    ∨ (∃ i rest, s.slots = [] ∧ decode s.hostIn = .command i rest ∧ exec i (setHostIn s rest) = .next t) := by
  unfold step runNext at h
  split at h
  · rename_i id ids hs
    unfold runSlot at h
    cases hd : decodeMicro id with
    | none => simp [hd, refuse] at h
    | some i => exact .inl ⟨id, ids, i, hs, hd, by simpa [hd] using h⟩
  · rename_i hs
    unfold runHost at h
    cases hd : decode s.hostIn with
    | command i rest => exact .inr (.inr ⟨i, rest, hs, rfl, by simpa [hd] using h⟩)
    | incomplete => exact .inr (.inl ⟨hs, rfl, by simpa [hd, eq_comm] using h⟩)
    | reserved cw => simp [hd, refuse] at h
end answers

end Sys2Proof.Machine
end

