-- ==== Sys2Proof/Laws/Float.lean ====
section
/-! SUPPORT. Binary32: the order of patterns is the order of the values they denote, and rounding is monotone: an exact
result between two representable values rounds to something between them. -/

namespace Sys2Proof.Machine

/-! ### Magnitude patterns -/

theorem f32CodeMag_low {c : Nat} (h : c < 2 ^ 24) : f32CodeMag c = c := by
  unfold f32CodeMag
  split
  · omega
  · have h1 : c / 2 ^ 23 = 1 := by omega
    rw [h1]
    simp
    omega

/-- A pattern as a significand `m` and an exponent shift `e`. -/
theorem f32CodeMag_split (e m : Nat) (hm : m < 2 ^ 24) (he : e = 0 ∨ 2 ^ 23 ≤ m) :
    f32CodeMag (e * 2 ^ 23 + m) = m * 2 ^ e := by
  rcases he with rfl | he
  · simpa using f32CodeMag_low hm
  · unfold f32CodeMag
    have h1 : (e * 2 ^ 23 + m) / 2 ^ 23 = e + 1 := by omega
    have h2 : (e * 2 ^ 23 + m) % 2 ^ 23 = m - 2 ^ 23 := by omega
    rw [h1, h2, if_neg (by omega)]
    have h3 : m - 2 ^ 23 + 2 ^ 23 = m := by omega
    rw [h3]; rfl

/-- Every pattern has a significand and an exponent shift. -/
theorem exists_split (c : Nat) : ∃ e m, c = e * 2 ^ 23 + m ∧ m < 2 ^ 24 ∧ (e = 0 ∨ 2 ^ 23 ≤ m) := by
  by_cases h : c < 2 ^ 23
  · exact ⟨0, c, by omega, by omega, .inl rfl⟩
  · exact ⟨c / 2 ^ 23 - 1, c % 2 ^ 23 + 2 ^ 23, by omega, by omega, .inr (by omega)⟩

theorem f32CodeMag_lt_succ (c : Nat) : f32CodeMag c < f32CodeMag (c + 1) := by
  obtain ⟨e, m, rfl, hm, he⟩ := exists_split c
  rw [f32CodeMag_split e m hm he]
  by_cases h : m + 1 < 2 ^ 24
  · rw [add_assoc, f32CodeMag_split e (m + 1) h (by omega)]
    exact Nat.mul_lt_mul_of_pos_right (Nat.lt_succ_self m) (Nat.two_pow_pos e)
  · have hm' : m = 2 ^ 24 - 1 := by omega
    have : e * 2 ^ 23 + m + 1 = (e + 1) * 2 ^ 23 + 2 ^ 23 := by omega
    rw [this, f32CodeMag_split (e + 1) (2 ^ 23) (by norm_num) (.inr le_rfl), hm', pow_succ 2 e]
    have := Nat.two_pow_pos e
    calc (2 ^ 24 - 1) * 2 ^ e < 2 ^ 24 * 2 ^ e := Nat.mul_lt_mul_of_pos_right (by norm_num) this
      _ = 2 ^ 23 * (2 ^ e * 2) := by ring

theorem f32CodeMag_strictMono : StrictMono f32CodeMag := strictMono_nat_of_lt_succ f32CodeMag_lt_succ

theorem f32CodeMag_zero : f32CodeMag 0 = 0 := rfl

/-! ### The nearest integer -/

theorem rneDiv_le {n d m : Nat} (hd : 0 < d) (h : n ≤ m * d) : rneDiv n d ≤ m := by
  have hdiv := Nat.div_add_mod n d
  have hmod := Nat.mod_lt n hd
  have hq : n / d ≤ m := Nat.div_le_of_le_mul (by rw [Nat.mul_comm]; exact h)
  unfold rneDiv
  rcases Nat.lt_or_ge (n / d) m with hlt | hge
  · split
    · omega
    · split
      · omega
      · have := Nat.mod_lt (n / d) (by norm_num : 0 < 2); omega
  · have hqm : n / d = m := le_antisymm hq hge
    have hr : n % d = 0 := by
      have : d * (n / d) + n % d ≤ m * d := by omega
      rw [hqm, Nat.mul_comm] at this
      omega
    rw [if_pos (by omega)]
    omega

theorem le_rneDiv {n d m : Nat} (hd : 0 < d) (h : m * d ≤ n) : m ≤ rneDiv n d := by
  have hq : m ≤ n / d := (Nat.le_div_iff_mul_le hd).mpr h
  unfold rneDiv
  split
  · exact hq
  · split <;> omega

/-! ### Rounding is monotone -/

theorem shift_lt {q : Nat} : q < 2 ^ 24 * 2 ^ (Nat.log2 q - 23) := by
  rcases Nat.eq_zero_or_pos q with rfl | hq
  · positivity
  · have h := Nat.lt_log2_self (n := q)
    rw [← pow_add]
    exact lt_of_lt_of_le h (Nat.pow_le_pow_right (by norm_num) (by omega))

theorem le_shift {q : Nat} (h : Nat.log2 q - 23 ≠ 0) : 2 ^ 23 * 2 ^ (Nat.log2 q - 23) ≤ q := by
  have hq : q ≠ 0 := by rintro rfl; simp at h
  have := Nat.log2_self_le hq
  rw [← pow_add]
  exact le_trans (Nat.pow_le_pow_right (by norm_num) (by omega)) this

/-- The significand a rounding gives has at most 24 bits, or carries to exactly `2^24`. -/
theorem significand_le {n d : Nat} (hd : 0 < d) :
    rneDiv n (d * 2 ^ (Nat.log2 (n / d) - 23)) ≤ 2 ^ 24 := by
  apply rneDiv_le (Nat.mul_pos hd (Nat.two_pow_pos _))
  have h := shift_lt (q := n / d)
  have h2 : n < (n / d + 1) * d := by
    have := Nat.div_add_mod n d
    have := Nat.mod_lt n hd
    nlinarith
  have : (n / d + 1) * d ≤ (2 ^ 24 * 2 ^ (Nat.log2 (n / d) - 23)) * d := Nat.mul_le_mul_right d h
  calc n ≤ (2 ^ 24 * 2 ^ (Nat.log2 (n / d) - 23)) * d := by omega
    _ = 2 ^ 24 * (d * 2 ^ (Nat.log2 (n / d) - 23)) := by ring

theorem le_significand {n d : Nat} (hd : 0 < d) (h : Nat.log2 (n / d) - 23 ≠ 0) :
    2 ^ 23 ≤ rneDiv n (d * 2 ^ (Nat.log2 (n / d) - 23)) := by
  apply le_rneDiv (Nat.mul_pos hd (Nat.two_pow_pos _))
  have h1 := le_shift h
  calc 2 ^ 23 * (d * 2 ^ (Nat.log2 (n / d) - 23)) = (2 ^ 23 * 2 ^ (Nat.log2 (n / d) - 23)) * d := by ring
    _ ≤ n / d * d := Nat.mul_le_mul_right d h1
    _ ≤ n := Nat.div_mul_le_self n d

/-- An exact result not above a pattern's value rounds to a pattern not above it. -/
theorem f32RoundCode_le {n d c : Nat} (hd : 0 < d) (h : n ≤ f32CodeMag c * d) : f32RoundCode n d ≤ c := by
  obtain ⟨ec, mc, rfl, hmc, hec⟩ := exists_split c
  rw [f32CodeMag_split ec mc hmc hec] at h
  have hq : n / d ≤ mc * 2 ^ ec := Nat.div_le_of_le_mul (by rw [Nat.mul_comm]; exact h)
  have hs := significand_le (n := n) hd
  have hl := le_significand (n := n) hd
  have hlow := le_shift (q := n / d)
  unfold f32RoundCode
  generalize he : Nat.log2 (n / d) - 23 = e at *
  rcases Nat.lt_trichotomy e ec with hlt | rfl | hgt
  · have : 2 ^ 23 ≤ mc := by omega
    nlinarith
  · have : rneDiv n (d * 2 ^ e) ≤ mc := by
      apply rneDiv_le (Nat.mul_pos hd (Nat.two_pow_pos _))
      calc n ≤ mc * 2 ^ e * d := h
        _ = mc * (d * 2 ^ e) := by ring
    omega
  · exfalso
    have h1 := hlow (by omega)
    have h2 : mc * 2 ^ ec < 2 ^ 24 * 2 ^ ec := Nat.mul_lt_mul_of_pos_right hmc (Nat.two_pow_pos _)
    have h3 : 2 ^ 24 * 2 ^ ec ≤ 2 ^ 23 * 2 ^ e := by
      rw [← pow_add, ← pow_add]
      exact Nat.pow_le_pow_right (by norm_num) (by omega)
    omega

/-- An exact result not below a pattern's value rounds to a pattern not below it. -/
theorem le_f32RoundCode {n d c : Nat} (hd : 0 < d) (h : f32CodeMag c * d ≤ n) : c ≤ f32RoundCode n d := by
  obtain ⟨ec, mc, rfl, hmc, hec⟩ := exists_split c
  rw [f32CodeMag_split ec mc hmc hec] at h
  have hq : mc * 2 ^ ec ≤ n / d := (Nat.le_div_iff_mul_le hd).mpr h
  have hl := le_significand (n := n) hd
  have hup := shift_lt (q := n / d)
  unfold f32RoundCode
  generalize he : Nat.log2 (n / d) - 23 = e at *
  rcases Nat.lt_trichotomy e ec with hlt | rfl | hgt
  · exfalso
    have : 2 ^ 23 ≤ mc := by omega
    have h2 : 2 ^ 23 * 2 ^ ec ≤ mc * 2 ^ ec := Nat.mul_le_mul_right _ this
    have h3 : 2 ^ 24 * 2 ^ e ≤ 2 ^ 23 * 2 ^ ec := by
      rw [← pow_add, ← pow_add]
      exact Nat.pow_le_pow_right (by norm_num) (by omega)
    omega
  · have : mc ≤ rneDiv n (d * 2 ^ e) := by
      apply le_rneDiv (Nat.mul_pos hd (Nat.two_pow_pos _))
      calc mc * (d * 2 ^ e) = mc * 2 ^ e * d := by ring
        _ ≤ n := h
    omega
  · have := hl (by omega)
    nlinarith

/-! ### Fields of a pattern made from a sign and a magnitude -/

theorem f32Code_lt (x : F) : f32Code x < 2 ^ 31 := Nat.mod_lt _ (by norm_num)

@[simp] theorem f32Code_make (neg : Bool) {c : Nat} (h : c < 2 ^ 31) : f32Code (f32Make neg c) = c := by
  unfold f32Code f32Make
  cases neg <;> simp only [BitVec.toNat_ofNat] <;> simp <;> omega

@[simp] theorem f32Sign_make (neg : Bool) {c : Nat} (h : c < 2 ^ 31) : f32Sign (f32Make neg c) = neg := by
  unfold f32Sign f32Make
  cases neg <;> simp only [BitVec.toNat_ofNat] <;> simp <;> omega

/-- A pattern is its sign and its magnitude. -/
theorem f32Make_sign_code (x : F) : f32Make (f32Sign x) (f32Code x) = x := by
  apply BitVec.eq_of_toNat_eq
  have := x.isLt
  unfold f32Make f32Sign f32Code
  simp only [BitVec.toNat_ofNat]
  by_cases h : 2 ^ 31 ≤ x.toNat
  · simp only [h, decide_true, if_true]; omega
  · simp only [h, decide_false]; simp; omega

theorem f32Round_code (neg : Bool) (n d : Nat) :
    f32Code (f32Round neg n d) = min (f32RoundCode n d) f32InfCode := by
  unfold f32Round
  exact f32Code_make _ (lt_of_le_of_lt (min_le_right _ _) (by decide))

theorem f32Round_sign (neg : Bool) (n d : Nat) : f32Sign (f32Round neg n d) = neg := by
  unfold f32Round
  exact f32Sign_make _ (lt_of_le_of_lt (min_le_right _ _) (by decide))

theorem f32Round_not_nan (neg : Bool) (n d : Nat) : f32IsNaN (f32Round neg n d) = false := by
  unfold f32IsNaN
  rw [f32Round_code]
  simp

theorem f32Finite_not_nan {x : F} (h : f32Finite x = true) : f32IsNaN x = false := by
  unfold f32Finite at h; unfold f32IsNaN
  simp only [decide_eq_true_eq] at h
  simp only [decide_eq_false_iff_not]
  omega

theorem f32Finite_not_inf {x : F} (h : f32Finite x = true) : f32IsInf x = false := by
  unfold f32Finite at h; unfold f32IsInf
  simp only [decide_eq_true_eq] at h
  simp only [decide_eq_false_iff_not]
  omega

/-! ### Order and value -/

/-- The value a signed pattern number denotes. -/
def ordVal (k : Int) : Int := if k < 0 then -(f32CodeMag k.natAbs : Int) else (f32CodeMag k.natAbs : Int)

theorem f32Val_eq (x : F) : f32Val x = ordVal (f32Ord x) := by
  unfold f32Val f32Ord f32Mag ordVal
  by_cases hs : f32Sign x = true
  · simp only [hs, if_true]
    by_cases h0 : f32Code x = 0
    · simp [h0, f32CodeMag_zero]
    · rw [if_pos (by omega)]; simp
  · simp only [hs]
    simp

theorem ordVal_strictMono : StrictMono ordVal := by
  intro a b h
  unfold ordVal
  have hm := f32CodeMag_strictMono
  split <;> split
  · have : b.natAbs < a.natAbs := by omega
    have := hm this
    omega
  · have : f32CodeMag 0 < f32CodeMag a.natAbs := hm (by omega)
    rw [f32CodeMag_zero] at this
    omega
  · omega
  · have : a.natAbs < b.natAbs := by omega
    have := hm this
    omega

theorem f32Lt_iff {a b : F} (ha : f32Finite a = true) (hb : f32Finite b = true) :
    f32Lt a b = true ↔ f32Val a < f32Val b := by
  rw [f32Val_eq, f32Val_eq, ordVal_strictMono.lt_iff_lt]
  simp [f32Lt, f32Finite_not_nan ha, f32Finite_not_nan hb]

theorem f32Le_iff {a b : F} (ha : f32Finite a = true) (hb : f32Finite b = true) :
    f32Le a b = true ↔ f32Val a ≤ f32Val b := by
  rw [f32Val_eq, f32Val_eq, ordVal_strictMono.le_iff_le]
  simp [f32Le, f32Finite_not_nan ha, f32Finite_not_nan hb]

theorem f32Eq_iff {a b : F} (ha : f32Finite a = true) (hb : f32Finite b = true) :
    f32Eq a b = true ↔ f32Val a = f32Val b := by
  rw [f32Val_eq, f32Val_eq, ordVal_strictMono.injective.eq_iff]
  simp [f32Eq, f32Finite_not_nan ha, f32Finite_not_nan hb]

theorem f32Le_trans {a b c : F} (h1 : f32Le a b = true) (h2 : f32Le b c = true) : f32Le a c = true := by
  simp only [f32Le, Bool.and_eq_true, Bool.not_eq_true', decide_eq_true_eq] at *
  exact ⟨⟨h1.1.1, h2.1.2⟩, le_trans h1.2 h2.2⟩

/-- A value between two finite values is finite. -/
theorem finite_of_between {lo hi x : F} (hlo : f32Finite lo = true) (hhi : f32Finite hi = true)
    (h1 : f32Le lo x = true) (h2 : f32Le x hi = true) : f32Finite x = true := by
  simp only [f32Le, Bool.and_eq_true, Bool.not_eq_true', decide_eq_true_eq] at h1 h2
  unfold f32Finite at *
  simp only [decide_eq_true_eq] at *
  have := h1.2; have := h2.2
  unfold f32Ord at *
  split at * <;> split at * <;> split at * <;> omega

/-- Where a strict order fails between finite values, the other order holds. -/
theorem f32Le_of_not_lt {a b : F} (ha : f32Finite a = true) (hb : f32Finite b = true) (h : f32Lt a b = false) :
    f32Le b a = true := by
  rw [f32Le_iff hb ha]
  by_contra hc
  have : f32Lt a b = true := (f32Lt_iff ha hb).mpr (by omega)
  rw [h] at this; exact absurd this (by decide)

/-! ### A rounded result between representable values -/

/-- The exact value `±n/d` as a signed numerator. -/
def signedNum (neg : Bool) (n : Nat) : Int := if neg then -(n : Int) else (n : Int)

theorem f32Round_ord (neg : Bool) (n d : Nat) :
    f32Ord (f32Round neg n d) = signedNum neg (min (f32RoundCode n d) f32InfCode) := by
  unfold f32Ord signedNum
  rw [f32Round_sign, f32Round_code]

theorem f32Round_le {neg : Bool} {n d : Nat} (hd : 0 < d) {y : F} (hy : f32Finite y = true)
    (h : signedNum neg n ≤ f32Val y * d) : f32Le (f32Round neg n d) y = true := by
  unfold f32Le
  rw [f32Round_not_nan, f32Finite_not_nan hy, f32Round_ord]
  simp only [Bool.not_false, Bool.true_and, decide_eq_true_eq]
  have hfin : f32Code y < f32InfCode := by simpa [f32Finite] using hy
  unfold signedNum f32Val f32Mag at *
  unfold f32Ord
  cases neg with
  | false =>
    simp only [Bool.false_eq_true, if_false] at *
    by_cases hs : f32Sign y = true
    · simp only [hs, if_true] at *
      have h0 : (f32CodeMag (f32Code y) : Int) * d = 0 ∧ n = 0 := by
        have : (0 : Int) ≤ (f32CodeMag (f32Code y) : Int) * d := by positivity
        constructor <;> nlinarith
      have h1 : f32CodeMag (f32Code y) = 0 := by
        rcases Int.mul_eq_zero.mp h0.1 with h | h <;> omega
      have h2 : f32Code y = 0 := by
        by_contra hne
        have := f32CodeMag_strictMono (Nat.pos_of_ne_zero hne)
        rw [f32CodeMag_zero] at this; omega
      have h3 : f32RoundCode n d ≤ 0 := f32RoundCode_le hd (by rw [h0.2]; exact Nat.zero_le _)
      omega
    · simp only [hs, Bool.false_eq_true, if_false] at *
      have : f32RoundCode n d ≤ f32Code y := f32RoundCode_le hd (by exact_mod_cast h)
      omega
  | true =>
    simp only [if_true] at *
    by_cases hs : f32Sign y = true
    · simp only [hs, if_true] at *
      have h' : f32CodeMag (f32Code y) * d ≤ n := by
        have : (f32CodeMag (f32Code y) : Int) * d ≤ n := by nlinarith
        exact_mod_cast this
      have := le_f32RoundCode hd h'
      omega
    · simp only [hs]
      simp only [Bool.false_eq_true, if_false]
      omega

theorem signedNum_neg (neg : Bool) (n : Nat) : signedNum (!neg) n = -signedNum neg n := by
  cases neg <;> simp [signedNum]

theorem le_f32Round {neg : Bool} {n d : Nat} (hd : 0 < d) {y : F} (hy : f32Finite y = true)
    (h : f32Val y * d ≤ signedNum neg n) : f32Le y (f32Round neg n d) = true := by
  unfold f32Le
  rw [f32Round_not_nan, f32Finite_not_nan hy, f32Round_ord]
  simp only [Bool.not_false, Bool.true_and, decide_eq_true_eq]
  have hfin : f32Code y < f32InfCode := by simpa [f32Finite] using hy
  unfold signedNum f32Val f32Mag at *
  unfold f32Ord
  cases neg with
  | true =>
    simp only [if_true] at *
    by_cases hs : f32Sign y = true
    · simp only [hs, if_true] at *
      have h' : n ≤ f32CodeMag (f32Code y) * d := by
        have : (n : Int) ≤ (f32CodeMag (f32Code y) : Int) * d := by nlinarith
        exact_mod_cast this
      have := f32RoundCode_le hd h'
      omega
    · simp only [hs] at *
      simp only [Bool.false_eq_true, if_false] at *
      have h0 : (f32CodeMag (f32Code y) : Int) * d = 0 ∧ n = 0 := by
        have : (0 : Int) ≤ (f32CodeMag (f32Code y) : Int) * d := by positivity
        constructor <;> nlinarith
      have h1 : f32CodeMag (f32Code y) = 0 := by
        rcases Int.mul_eq_zero.mp h0.1 with h | h <;> omega
      have h2 : f32Code y = 0 := by
        by_contra hne
        have := f32CodeMag_strictMono (Nat.pos_of_ne_zero hne)
        rw [f32CodeMag_zero] at this; omega
      have h3 : f32RoundCode n d ≤ 0 := f32RoundCode_le hd (by rw [h0.2]; exact Nat.zero_le _)
      omega
  | false =>
    simp only [Bool.false_eq_true, if_false] at *
    by_cases hs : f32Sign y = true
    · simp only [hs, if_true]
      omega
    · simp only [hs, Bool.false_eq_true, if_false] at *
      have h' : f32CodeMag (f32Code y) * d ≤ n := by exact_mod_cast h
      have := le_f32RoundCode hd h'
      omega

/-- A result that is exactly representable is not rounded away: it compares equal to the representable value. -/
theorem f32Round_exact {neg : Bool} {n d : Nat} (hd : 0 < d) {y : F} (hy : f32Finite y = true)
    (h : signedNum neg n = f32Val y * d) : f32Eq (f32Round neg n d) y = true := by
  have h1 := f32Round_le hd hy (le_of_eq h)
  have h2 := le_f32Round hd hy (le_of_eq h.symm)
  simp only [f32Le, f32Eq, Bool.and_eq_true, Bool.not_eq_true', decide_eq_true_eq] at *
  exact ⟨h1.1, le_antisymm h1.2 h2.2⟩

/-- A number of at most 24 significant bits is representable. -/
theorem exists_scaled {n k : Nat} (hn : n < 2 ^ 24) (hk : 23 ≤ k) (hk2 : k ≤ 252) :
    ∃ y : F, f32Finite y = true ∧ f32Val y = (n : Int) * 2 ^ k := by
  obtain ⟨e, m, hm, he, hem, hc⟩ : ∃ e m, m < 2 ^ 24 ∧ (e = 0 ∨ 2 ^ 23 ≤ m) ∧ m * 2 ^ e = n * 2 ^ k
      ∧ e * 2 ^ 23 + m < f32InfCode := by
    rcases Nat.eq_zero_or_pos n with rfl | hpos
    · exact ⟨0, 0, by norm_num, .inl rfl, by simp, by decide⟩
    · have hl := Nat.log2_self_le (by omega : n ≠ 0)
      have hu : n < 2 ^ (Nat.log2 n + 1) := Nat.lt_log2_self
      have h23 : Nat.log2 n ≤ 23 := by
        have := Nat.log2_lt (by omega : n ≠ 0) (k := 24); omega
      refine ⟨k - (23 - Nat.log2 n), n * 2 ^ (23 - Nat.log2 n), ?_, .inr ?_, ?_, ?_⟩
      · calc n * 2 ^ (23 - Nat.log2 n) < 2 ^ (Nat.log2 n + 1) * 2 ^ (23 - Nat.log2 n) :=
              Nat.mul_lt_mul_of_pos_right hu (Nat.two_pow_pos _)
          _ = 2 ^ 24 := by rw [← pow_add]; congr 1; omega
      · calc 2 ^ 23 = 2 ^ Nat.log2 n * 2 ^ (23 - Nat.log2 n) := by rw [← pow_add]; congr 1; omega
          _ ≤ n * 2 ^ (23 - Nat.log2 n) := Nat.mul_le_mul_right _ hl
      · rw [mul_assoc, ← pow_add]; congr 2; omega
      · have h1 : n * 2 ^ (23 - Nat.log2 n) < 2 ^ 24 := by
          calc n * 2 ^ (23 - Nat.log2 n) < 2 ^ (Nat.log2 n + 1) * 2 ^ (23 - Nat.log2 n) :=
                Nat.mul_lt_mul_of_pos_right hu (Nat.two_pow_pos _)
            _ = 2 ^ 24 := by rw [← pow_add]; congr 1; omega
        unfold f32InfCode; omega
  have hlt : e * 2 ^ 23 + m < 2 ^ 31 := lt_trans hc (by decide)
  refine ⟨f32Make false (e * 2 ^ 23 + m), ?_, ?_⟩
  · unfold f32Finite; rw [f32Code_make _ hlt]; simpa using hc
  · unfold f32Val f32Mag
    rw [f32Sign_make _ hlt, f32Code_make _ hlt, f32CodeMag_split e m hm he, hem]
    simp

/-- A rounding of a representable value is exact: finite, and with that value. -/
theorem f32Round_value {neg : Bool} {n d : Nat} (hd : 0 < d) {y : F} (hy : f32Finite y = true)
    (h : signedNum neg n = f32Val y * d) :
    f32Finite (f32Round neg n d) = true ∧ f32Val (f32Round neg n d) = f32Val y := by
  have h1 := f32Round_le hd hy (le_of_eq h)
  have h2 := le_f32Round hd hy (le_of_eq h.symm)
  have hf := finite_of_between hy hy h2 h1
  exact ⟨hf, le_antisymm ((f32Le_iff hf hy).mp h1) ((f32Le_iff hy hf).mp h2)⟩

/-- An integer of at most 24 bits converts exactly (R21). -/
theorem f32OfInt_value {n : Nat} (hn : n < 2 ^ 24) :
    f32Finite (f32OfInt n) = true ∧ f32Val (f32OfInt n) = n * 2 ^ 149 := by
  obtain ⟨y, hy, hv⟩ := exists_scaled hn (k := 149) (by norm_num) (by norm_num)
  have h := f32Round_value (neg := decide ((n : Int) < 0)) (n := (n : Int).natAbs * 2 ^ 149) (d := 1) (by norm_num) hy (by
    rw [hv]; simp [signedNum])
  rw [hv] at h
  exact h

/-! ### The operations on finite operands -/

theorem signedNum_natAbs (k : Int) : signedNum (decide (k < 0)) k.natAbs = k := by
  unfold signedNum
  by_cases h : k < 0
  · rw [decide_eq_true h, if_pos rfl]; omega
  · rw [decide_eq_false h, if_neg (by decide)]; omega

theorem f32Val_make_zero (neg : Bool) : f32Val (f32Make neg 0) = 0 := by cases neg <;> rfl

theorem f32Finite_make_zero (neg : Bool) : f32Finite (f32Make neg 0) = true := by cases neg <;> rfl

theorem f32AddNum_le {a b y : F} (ha : f32Finite a = true) (hb : f32Finite b = true) (hy : f32Finite y = true)
    (h : f32Val a + f32Val b ≤ f32Val y) : f32Le (f32AddNum a b) y = true := by
  unfold f32AddNum
  rw [f32Finite_not_inf ha, f32Finite_not_inf hb]
  simp only [Bool.false_eq_true, if_false]
  split
  · rename_i h0
    rw [f32Le_iff (f32Finite_make_zero _) hy, f32Val_make_zero]; omega
  · apply f32Round_le (by norm_num) hy
    rw [signedNum_natAbs]; simpa using h

theorem le_f32AddNum {a b y : F} (ha : f32Finite a = true) (hb : f32Finite b = true) (hy : f32Finite y = true)
    (h : f32Val y ≤ f32Val a + f32Val b) : f32Le y (f32AddNum a b) = true := by
  unfold f32AddNum
  rw [f32Finite_not_inf ha, f32Finite_not_inf hb]
  simp only [Bool.false_eq_true, if_false]
  split
  · rename_i h0
    rw [f32Le_iff hy (f32Finite_make_zero _), f32Val_make_zero]; omega
  · apply le_f32Round (by norm_num) hy
    rw [signedNum_natAbs]; simpa using h

theorem f32Add_eq (f : FreeFns) {a b : F} (ha : f32Finite a = true) (hb : f32Finite b = true) :
    f32Add f a b = f32AddNum a b := by
  unfold f32Add
  simp [f32Finite_not_nan ha, f32Finite_not_nan hb, f32Finite_not_inf ha]

theorem f32Sub_eq (f : FreeFns) {a b : F} (ha : f32Finite a = true) (hb : f32Finite b = true) :
    f32Sub f a b = f32AddNum a (f32Flip b) := by
  unfold f32Sub
  simp [f32Finite_not_nan ha, f32Finite_not_nan hb, f32Finite_not_inf ha]

theorem f32Code_flip (b : F) : f32Code (f32Flip b) = f32Code b := f32Code_make _ (f32Code_lt b)

theorem f32Sign_flip (b : F) : f32Sign (f32Flip b) = !f32Sign b := f32Sign_make _ (f32Code_lt b)

theorem f32Finite_flip (b : F) : f32Finite (f32Flip b) = f32Finite b := by
  unfold f32Finite; rw [f32Code_flip]

theorem f32Val_flip (b : F) : f32Val (f32Flip b) = -f32Val b := by
  unfold f32Val f32Mag
  rw [f32Sign_flip, f32Code_flip]
  cases f32Sign b <;> simp

theorem f32Add_le (f : FreeFns) {a b y : F} (ha : f32Finite a = true) (hb : f32Finite b = true)
    (hy : f32Finite y = true) (h : f32Val a + f32Val b ≤ f32Val y) : f32Le (f32Add f a b) y = true := by
  rw [f32Add_eq f ha hb]; exact f32AddNum_le ha hb hy h

theorem le_f32Add (f : FreeFns) {a b y : F} (ha : f32Finite a = true) (hb : f32Finite b = true)
    (hy : f32Finite y = true) (h : f32Val y ≤ f32Val a + f32Val b) : f32Le y (f32Add f a b) = true := by
  rw [f32Add_eq f ha hb]; exact le_f32AddNum ha hb hy h

theorem f32Sub_le (f : FreeFns) {a b y : F} (ha : f32Finite a = true) (hb : f32Finite b = true)
    (hy : f32Finite y = true) (h : f32Val a - f32Val b ≤ f32Val y) : f32Le (f32Sub f a b) y = true := by
  rw [f32Sub_eq f ha hb]
  exact f32AddNum_le ha (by rw [f32Finite_flip]; exact hb) hy (by rw [f32Val_flip]; omega)

theorem le_f32Sub (f : FreeFns) {a b y : F} (ha : f32Finite a = true) (hb : f32Finite b = true)
    (hy : f32Finite y = true) (h : f32Val y ≤ f32Val a - f32Val b) : f32Le y (f32Sub f a b) = true := by
  rw [f32Sub_eq f ha hb]
  exact le_f32AddNum ha (by rw [f32Finite_flip]; exact hb) hy (by rw [f32Val_flip]; omega)

theorem f32Mul_eq (f : FreeFns) {a b : F} (ha : f32Finite a = true) (hb : f32Finite b = true) :
    f32Mul f a b = f32Round (f32Sign a != f32Sign b) (f32Mag a * f32Mag b) (2 ^ 149) := by
  unfold f32Mul
  simp [f32Finite_not_nan ha, f32Finite_not_nan hb, f32Finite_not_inf ha, f32Finite_not_inf hb]

theorem signedNum_mul (a b : F) : signedNum (f32Sign a != f32Sign b) (f32Mag a * f32Mag b) = f32Val a * f32Val b := by
  unfold signedNum f32Val
  cases f32Sign a <;> cases f32Sign b <;> simp

theorem f32Mul_le (f : FreeFns) {a b y : F} (ha : f32Finite a = true) (hb : f32Finite b = true)
    (hy : f32Finite y = true) (h : f32Val a * f32Val b ≤ f32Val y * 2 ^ 149) : f32Le (f32Mul f a b) y = true := by
  rw [f32Mul_eq f ha hb]
  apply f32Round_le (by positivity) hy
  rw [signedNum_mul]; exact_mod_cast h

theorem le_f32Mul (f : FreeFns) {a b y : F} (ha : f32Finite a = true) (hb : f32Finite b = true)
    (hy : f32Finite y = true) (h : f32Val y * 2 ^ 149 ≤ f32Val a * f32Val b) : f32Le y (f32Mul f a b) = true := by
  rw [f32Mul_eq f ha hb]
  apply le_f32Round (by positivity) hy
  rw [signedNum_mul]; exact_mod_cast h

theorem f32Mag_eq_zero (b : F) : f32Mag b = 0 ↔ f32Code b = 0 := by
  unfold f32Mag
  constructor
  · intro h
    by_contra hne
    have := f32CodeMag_strictMono (Nat.pos_of_ne_zero hne)
    rw [f32CodeMag_zero] at this; omega
  · intro h; rw [h, f32CodeMag_zero]

theorem f32Val_pos_iff (b : F) : 0 < f32Val b ↔ f32Sign b = false ∧ 0 < f32Mag b := by
  unfold f32Val
  cases f32Sign b <;> simp

theorem f32Div_eq (f : FreeFns) {a b : F} (ha : f32Finite a = true) (hb : f32Finite b = true) (hb0 : 0 < f32Val b) :
    f32Div f a b = f32Round (f32Sign a) (f32Mag a * 2 ^ 149) (f32Mag b) := by
  have h := (f32Val_pos_iff b).mp hb0
  have hz : f32IsZero b = false := by
    unfold f32IsZero
    simp only [decide_eq_false_iff_not]
    rw [← f32Mag_eq_zero]; omega
  unfold f32Div
  simp [f32Finite_not_nan ha, f32Finite_not_nan hb, f32Finite_not_inf ha, f32Finite_not_inf hb, hz, h.1]

theorem f32Div_le (f : FreeFns) {a b y : F} (ha : f32Finite a = true) (hb : f32Finite b = true)
    (hb0 : 0 < f32Val b) (hy : f32Finite y = true) (h : f32Val a * 2 ^ 149 ≤ f32Val y * f32Val b) :
    f32Le (f32Div f a b) y = true := by
  have hm := (f32Val_pos_iff b).mp hb0
  rw [f32Div_eq f ha hb hb0]
  apply f32Round_le hm.2 hy
  have hv : f32Val b = f32Mag b := by unfold f32Val; simp [hm.1]
  rw [hv] at h
  refine le_trans (le_of_eq ?_) h
  unfold signedNum f32Val
  cases f32Sign a <;> simp

theorem le_f32Div (f : FreeFns) {a b y : F} (ha : f32Finite a = true) (hb : f32Finite b = true)
    (hb0 : 0 < f32Val b) (hy : f32Finite y = true) (h : f32Val y * f32Val b ≤ f32Val a * 2 ^ 149) :
    f32Le y (f32Div f a b) = true := by
  have hm := (f32Val_pos_iff b).mp hb0
  rw [f32Div_eq f ha hb hb0]
  apply le_f32Round hm.2 hy
  have hv : f32Val b = f32Mag b := by unfold f32Val; simp [hm.1]
  rw [hv] at h
  refine le_trans h (le_of_eq ?_)
  unfold signedNum f32Val
  cases f32Sign a <;> simp

/-! ### The instance's fields -/

section fields
variable (f : FreeFns)

@[simp] theorem binary32_lit (l : Lit) : (binary32 f).lit l = f32Lit l := rfl
@[simp] theorem binary32_add : (binary32 f).add = f32Add f := rfl
@[simp] theorem binary32_sub : (binary32 f).sub = f32Sub f := rfl
@[simp] theorem binary32_mul : (binary32 f).mul = f32Mul f := rfl
@[simp] theorem binary32_div : (binary32 f).div = f32Div f := rfl
@[simp] theorem binary32_lt : (binary32 f).lt = f32Lt := rfl
@[simp] theorem binary32_le : (binary32 f).le = f32Le := rfl
@[simp] theorem binary32_eq : (binary32 f).eq = f32Eq := rfl
@[simp] theorem binary32_ofInt : (binary32 f).ofInt = f32OfInt := rfl
@[simp] theorem binary32_floorInt : (binary32 f).floorInt = f32Floor f := rfl
@[simp] theorem binary32_truncInt : (binary32 f).truncInt = f32Trunc f := rfl
@[simp] theorem binary32_sin : (binary32 f).sin = f.sin := rfl
@[simp] theorem binary32_tan : (binary32 f).tan = f.tan := rfl
@[simp] theorem binary32_exp2 : (binary32 f).exp2 = f.exp2 := rfl
@[simp] theorem binary32_finite : (binary32 f).finite = f32Finite := rfl

end fields

theorem machineParams_num : machineParams.num = binary32 Config.freeValues.fns := rfl

theorem machineParams_wrapTurns (x : F) : machineParams.wrapTurns x = wrapFuel := rfl

end Sys2Proof.Machine
end

