-- ==== Sys2Proof/Laws/PerInstr.lean ====
section
/-! SUPPORT. A statement about every instruction as syntax, constructor by constructor: which of the two encodings it
has, and how long its words are. -/

namespace Sys2Proof.Laws.Encodes

open Sys2Proof

/-- A host command has words and no micro-operation identifier, a micro-operation an identifier and no words (R100, R112);
and no command is longer than seven words (R106). -/
def Statement (i : Instr) : Prop :=
  (encodeWords i).isSome = i.isCommand ∧ (encodeMicro i).isSome = !i.isCommand
  ∧ (i.wellFormed = true → ∀ ws, encodeWords i = some ws → ws.length ≤ 7)

theorem prepare (sr : F) (mbs : Word) : Statement (.prepare sr mbs) :=
  ⟨rfl, rfl, fun _ ws h => by cases h; simp⟩

theorem reset : Statement .reset := ⟨rfl, rfl, fun _ ws h => by cases h; simp⟩

theorem loadp (t : Bool) (w1 w2 w3 w4 w5 w6 : F) : Statement (.loadp t w1 w2 w3 w4 w5 w6) :=
  ⟨rfl, rfl, fun _ ws h => by cases h; simp⟩

theorem step (frame : List F) : Statement (.step frame) :=
  ⟨rfl, rfl, fun hw ws h => by
    cases h
    simp only [Instr.wellFormed, frameOk, Bool.or_eq_true, beq_iff_eq] at hw
    simp only [List.length_cons]
    omega⟩

theorem env : Statement .env := ⟨rfl, rfl, fun _ ws h => by cases h⟩

theorem var : Statement .var := ⟨rfl, rfl, fun _ ws h => by cases h⟩

theorem lfo : Statement .lfo := ⟨rfl, rfl, fun _ ws h => by cases h⟩

theorem dmod : Statement .dmod := ⟨rfl, rfl, fun _ ws h => by cases h⟩

theorem fcoef : Statement .fcoef := ⟨rfl, rfl, fun _ ws h => by cases h⟩

theorem dwr (c : Lane) : Statement (.dwr c) := ⟨rfl, rfl, fun _ ws h => by cases h⟩

theorem drd (c : Lane) : Statement (.drd c) := ⟨rfl, rfl, fun _ ws h => by cases h⟩

theorem fmix (c : Lane) : Statement (.fmix c) := ⟨rfl, rfl, fun _ ws h => by cases h⟩

theorem trem (c : Lane) : Statement (.trem c) := ⟨rfl, rfl, fun _ ws h => by cases h⟩

theorem wadv : Statement .wadv := ⟨rfl, rfl, fun _ ws h => by cases h⟩

end Sys2Proof.Laws.Encodes
end

