-- ==== Sys2Proof/Laws/Ranges.lean ====
section
/-! SUPPORT. The ranges the datapath functions keep under binary32, one lemma per function (R55, R133, R144, R157, R159,
R172, R232). -/

namespace Sys2Proof.Machine

/-! ### Intervals -/

theorem within_iff {lo hi x : F} (hlo : f32Finite lo = true) (hhi : f32Finite hi = true) :
    within lo hi x = true ↔ f32Finite x = true ∧ f32Val lo ≤ f32Val x ∧ f32Val x ≤ f32Val hi := by
  unfold within
  rw [Bool.and_eq_true]
  constructor
  · rintro ⟨h1, h2⟩
    have hx := finite_of_between hlo hhi h1 h2
    exact ⟨hx, (f32Le_iff hlo hx).mp h1, (f32Le_iff hx hhi).mp h2⟩
  · rintro ⟨hx, h1, h2⟩
    exact ⟨(f32Le_iff hlo hx).mpr h1, (f32Le_iff hx hhi).mpr h2⟩

theorem unitRange_iff (x : F) :
    unitRange x = true ↔ f32Finite x = true ∧ 0 ≤ f32Val x ∧ f32Val x ≤ 2 ^ 149 :=
  within_iff (by decide) (by decide)

theorem signedUnit_iff (x : F) :
    signedUnit x = true ↔ f32Finite x = true ∧ -2 ^ 149 ≤ f32Val x ∧ f32Val x ≤ 2 ^ 149 :=
  within_iff (by decide) (by decide)

theorem phaseRange_iff (x : F) :
    phaseRange x = true ↔ f32Finite x = true ∧ 0 ≤ f32Val x ∧ f32Val x < 2 ^ 149 := by
  unfold phaseRange
  rw [Bool.and_eq_true]
  constructor
  · rintro ⟨h1, h2⟩
    have h3 : f32Le x 0x3F800000 = true := by
      simp only [f32Le, f32Lt, Bool.and_eq_true, decide_eq_true_eq] at *
      exact ⟨h2.1, le_of_lt h2.2⟩
    have hx := finite_of_between (by decide) (by decide) h1 h3
    exact ⟨hx, (f32Le_iff (by decide) hx).mp h1, (f32Lt_iff hx (by decide)).mp h2⟩
  · rintro ⟨hx, h1, h2⟩
    exact ⟨(f32Le_iff (by decide) hx).mpr h1, (f32Lt_iff hx (by decide)).mpr h2⟩

theorem legalRate_iff (x : F) :
    legalRate x = true ↔ f32Finite x = true ∧ 8000 * 2 ^ 149 ≤ f32Val x ∧ f32Val x ≤ 384000 * 2 ^ 149 :=
  within_iff (by decide) (by decide)

section ops
variable (f : FreeFns) {a b lo hi : F}

theorem add_within (ha : f32Finite a = true) (hb : f32Finite b = true) (hlo : f32Finite lo = true)
    (hhi : f32Finite hi = true) (h1 : f32Val lo ≤ f32Val a + f32Val b) (h2 : f32Val a + f32Val b ≤ f32Val hi) :
    within lo hi (f32Add f a b) = true := by
  unfold within; rw [Bool.and_eq_true]
  exact ⟨le_f32Add f ha hb hlo h1, f32Add_le f ha hb hhi h2⟩

theorem sub_within (ha : f32Finite a = true) (hb : f32Finite b = true) (hlo : f32Finite lo = true)
    (hhi : f32Finite hi = true) (h1 : f32Val lo ≤ f32Val a - f32Val b) (h2 : f32Val a - f32Val b ≤ f32Val hi) :
    within lo hi (f32Sub f a b) = true := by
  unfold within; rw [Bool.and_eq_true]
  exact ⟨le_f32Sub f ha hb hlo h1, f32Sub_le f ha hb hhi h2⟩

theorem mul_within (ha : f32Finite a = true) (hb : f32Finite b = true) (hlo : f32Finite lo = true)
    (hhi : f32Finite hi = true) (h1 : f32Val lo * 2 ^ 149 ≤ f32Val a * f32Val b)
    (h2 : f32Val a * f32Val b ≤ f32Val hi * 2 ^ 149) : within lo hi (f32Mul f a b) = true := by
  unfold within; rw [Bool.and_eq_true]
  exact ⟨le_f32Mul f ha hb hlo h1, f32Mul_le f ha hb hhi h2⟩

theorem div_within (ha : f32Finite a = true) (hb : f32Finite b = true) (hb0 : 0 < f32Val b)
    (hlo : f32Finite lo = true) (hhi : f32Finite hi = true) (h1 : f32Val lo * f32Val b ≤ f32Val a * 2 ^ 149)
    (h2 : f32Val a * 2 ^ 149 ≤ f32Val hi * f32Val b) : within lo hi (f32Div f a b) = true := by
  unfold within; rw [Bool.and_eq_true]
  exact ⟨le_f32Div f ha hb hb0 hlo h1, f32Div_le f ha hb hb0 hhi h2⟩

end ops

/-! ### Interval arithmetic: operands between representable bounds give a result between representable bounds -/

theorem finite_bounds {lo hi x : F} (h : within lo hi x = true) (hlo : f32Finite lo = true)
    (hhi : f32Finite hi = true) : f32Finite x = true ∧ f32Val lo ≤ f32Val x ∧ f32Val x ≤ f32Val hi :=
  (within_iff hlo hhi).mp h

/-- A product is least and greatest at corners. -/
theorem le_mul_of_corners {a a0 a1 b b0 b1 L : Int} (ha0 : a0 ≤ a) (ha1 : a ≤ a1) (hb0 : b0 ≤ b) (hb1 : b ≤ b1)
    (h00 : L ≤ a0 * b0) (h01 : L ≤ a0 * b1) (h10 : L ≤ a1 * b0) (h11 : L ≤ a1 * b1) : L ≤ a * b := by
  have lin : ∀ c : Int, L ≤ c * b0 → L ≤ c * b1 → L ≤ c * b := by
    intro c h0 h1
    rcases le_or_gt 0 c with hc | hc
    · exact le_trans h0 (Int.mul_le_mul_of_nonneg_left hb0 hc)
    · exact le_trans h1 (Int.mul_le_mul_of_nonpos_left (le_of_lt hc) hb1)
  have hA := lin a0 h00 h01
  have hB := lin a1 h10 h11
  rcases le_or_gt 0 b with hb | hb
  · exact le_trans hA (Int.mul_le_mul_of_nonneg_right ha0 hb)
  · exact le_trans hB (Int.mul_le_mul_of_nonpos_right ha1 (le_of_lt hb))

theorem mul_le_of_corners {a a0 a1 b b0 b1 U : Int} (ha0 : a0 ≤ a) (ha1 : a ≤ a1) (hb0 : b0 ≤ b) (hb1 : b ≤ b1)
    (h00 : a0 * b0 ≤ U) (h01 : a0 * b1 ≤ U) (h10 : a1 * b0 ≤ U) (h11 : a1 * b1 ≤ U) : a * b ≤ U := by
  have := le_mul_of_corners (L := -U) (b := b) (b0 := b0) (b1 := b1)
    (neg_le_neg ha1) (neg_le_neg ha0) hb0 hb1 (by linarith [neg_mul a1 b0]) (by linarith [neg_mul a1 b1])
    (by linarith [neg_mul a0 b0]) (by linarith [neg_mul a0 b1])
  linarith [neg_mul a b]

/-- All six bounds are finite. -/
def finite6 (a0 a1 b0 b1 lo hi : F) : Bool :=
  f32Finite a0 && f32Finite a1 && f32Finite b0 && f32Finite b1 && f32Finite lo && f32Finite hi

def addOk (a0 a1 b0 b1 lo hi : F) : Bool :=
  finite6 a0 a1 b0 b1 lo hi && decide (f32Val lo ≤ f32Val a0 + f32Val b0) && decide (f32Val a1 + f32Val b1 ≤ f32Val hi)

def subOk (a0 a1 b0 b1 lo hi : F) : Bool :=
  finite6 a0 a1 b0 b1 lo hi && decide (f32Val lo ≤ f32Val a0 - f32Val b1) && decide (f32Val a1 - f32Val b0 ≤ f32Val hi)

def mulOk (a0 a1 b0 b1 lo hi : F) : Bool :=
  finite6 a0 a1 b0 b1 lo hi
  && ([(a0, b0), (a0, b1), (a1, b0), (a1, b1)].all fun p =>
    decide (f32Val lo * 2 ^ 149 ≤ f32Val p.1 * f32Val p.2) && decide (f32Val p.1 * f32Val p.2 ≤ f32Val hi * 2 ^ 149))

def divOk (a0 a1 b0 b1 lo hi : F) : Bool :=
  finite6 a0 a1 b0 b1 lo hi && decide (0 < f32Val b0)
  && decide (f32Val lo * f32Val b0 ≤ f32Val a0 * 2 ^ 149) && decide (f32Val lo * f32Val b1 ≤ f32Val a0 * 2 ^ 149)
  && decide (f32Val a1 * 2 ^ 149 ≤ f32Val hi * f32Val b0) && decide (f32Val a1 * 2 ^ 149 ≤ f32Val hi * f32Val b1)

section intervals
variable (f : FreeFns) {a a0 a1 b b0 b1 lo hi : F}

theorem add_in (ha : within a0 a1 a = true) (hb : within b0 b1 b = true) (h : addOk a0 a1 b0 b1 lo hi = true) :
    within lo hi (f32Add f a b) = true := by
  simp only [addOk, finite6, Bool.and_eq_true, decide_eq_true_eq] at h
  obtain ⟨⟨⟨⟨⟨⟨⟨f1, f2⟩, f3⟩, f4⟩, f5⟩, f6⟩, h1⟩, h2⟩ := h
  have ia := finite_bounds ha f1 f2
  have ib := finite_bounds hb f3 f4
  exact add_within f ia.1 ib.1 f5 f6 (by omega) (by omega)

theorem sub_in (ha : within a0 a1 a = true) (hb : within b0 b1 b = true) (h : subOk a0 a1 b0 b1 lo hi = true) :
    within lo hi (f32Sub f a b) = true := by
  simp only [subOk, finite6, Bool.and_eq_true, decide_eq_true_eq] at h
  obtain ⟨⟨⟨⟨⟨⟨⟨f1, f2⟩, f3⟩, f4⟩, f5⟩, f6⟩, h1⟩, h2⟩ := h
  have ia := finite_bounds ha f1 f2
  have ib := finite_bounds hb f3 f4
  exact sub_within f ia.1 ib.1 f5 f6 (by omega) (by omega)

theorem mul_in (ha : within a0 a1 a = true) (hb : within b0 b1 b = true) (h : mulOk a0 a1 b0 b1 lo hi = true) :
    within lo hi (f32Mul f a b) = true := by
  simp only [mulOk, finite6, List.all_cons, List.all_nil, Bool.and_true, Bool.and_eq_true, decide_eq_true_eq] at h
  obtain ⟨⟨⟨⟨⟨⟨f1, f2⟩, f3⟩, f4⟩, f5⟩, f6⟩, ⟨l1, u1⟩, ⟨l2, u2⟩, ⟨l3, u3⟩, ⟨l4, u4⟩⟩ := h
  have ia := finite_bounds ha f1 f2
  have ib := finite_bounds hb f3 f4
  exact mul_within f ia.1 ib.1 f5 f6 (le_mul_of_corners ia.2.1 ia.2.2 ib.2.1 ib.2.2 l1 l2 l3 l4)
    (mul_le_of_corners ia.2.1 ia.2.2 ib.2.1 ib.2.2 u1 u2 u3 u4)

theorem div_in (ha : within a0 a1 a = true) (hb : within b0 b1 b = true) (h : divOk a0 a1 b0 b1 lo hi = true) :
    within lo hi (f32Div f a b) = true := by
  simp only [divOk, finite6, Bool.and_eq_true, decide_eq_true_eq] at h
  obtain ⟨⟨⟨⟨⟨⟨⟨⟨⟨⟨f1, f2⟩, f3⟩, f4⟩, f5⟩, f6⟩, hb0⟩, l1⟩, l2⟩, u1⟩, u2⟩ := h
  have ia := finite_bounds ha f1 f2
  have ib := finite_bounds hb f3 f4
  have lin : ∀ (c B : Int), c * f32Val b0 ≤ B → c * f32Val b1 ≤ B → c * f32Val b ≤ B := by
    intro c B h0 h1
    rcases le_or_gt 0 c with hc | hc
    · exact le_trans (Int.mul_le_mul_of_nonneg_left ib.2.2 hc) h1
    · exact le_trans (Int.mul_le_mul_of_nonpos_left (le_of_lt hc) ib.2.1) h0
  have linL : ∀ (c B : Int), B ≤ c * f32Val b0 → B ≤ c * f32Val b1 → B ≤ c * f32Val b := by
    intro c B h0 h1
    have := lin (-c) (-B) (by linarith [neg_mul c (f32Val b0)]) (by linarith [neg_mul c (f32Val b1)])
    linarith [neg_mul c (f32Val b)]
  exact div_within f ia.1 ib.1 (by omega) f5 f6
    (le_trans (lin _ _ l1 l2) (by nlinarith [ia.2.1]))
    (le_trans (by nlinarith [ia.2.2]) (linL _ _ u1 u2))

/-- A literal lies between itself and itself. -/
theorem within_lit (h : f32Finite a = true) : within a a a = true := by
  rw [within_iff h h]; exact ⟨h, le_refl _, le_refl _⟩

theorem within_weaken (ha : within a0 a1 a = true) (h : addOk a0 a1 0 0 lo hi = true) : within lo hi a = true := by
  simp only [addOk, finite6, Bool.and_eq_true, decide_eq_true_eq] at h
  obtain ⟨⟨⟨⟨⟨⟨⟨f1, f2⟩, _⟩, _⟩, f5⟩, f6⟩, h1⟩, h2⟩ := h
  have ia := finite_bounds ha f1 f2
  have z : f32Val 0 = 0 := rfl
  rw [within_iff f5 f6]
  exact ⟨ia.1, by omega, by omega⟩

end intervals

/-! ### max, min and clamp -/

section choose
variable (f : FreeFns)

theorem numMax_finite {a b : F} (ha : f32Finite a = true) (hb : f32Finite b = true) :
    f32Finite (numMax (binary32 f) a b) = true
    ∧ f32Val (numMax (binary32 f) a b) = max (f32Val a) (f32Val b) := by
  have h := f32Lt_iff ha hb
  unfold numMax binary32
  simp only
  by_cases hlt : f32Lt a b = true
  · rw [if_pos hlt]; exact ⟨hb, by have := h.mp hlt; omega⟩
  · rw [if_neg hlt]; exact ⟨ha, by have := mt h.mpr hlt; omega⟩

theorem numMin_finite {a b : F} (ha : f32Finite a = true) (hb : f32Finite b = true) :
    f32Finite (numMin (binary32 f) a b) = true
    ∧ f32Val (numMin (binary32 f) a b) = min (f32Val a) (f32Val b) := by
  have h := f32Lt_iff hb ha
  unfold numMin binary32
  simp only
  by_cases hlt : f32Lt b a = true
  · rw [if_pos hlt]; exact ⟨hb, by have := h.mp hlt; omega⟩
  · rw [if_neg hlt]; exact ⟨ha, by have := mt h.mpr hlt; omega⟩

/-- `clamp` of a finite value is the mathematical clamp (R20). -/
theorem numClamp_finite {x lo hi : F} (hx : f32Finite x = true) (hlo : f32Finite lo = true)
    (hhi : f32Finite hi = true) :
    f32Finite (numClamp (binary32 f) x lo hi) = true
    ∧ f32Val (numClamp (binary32 f) x lo hi) = min (max (f32Val x) (f32Val lo)) (f32Val hi) := by
  have h1 := numMax_finite f hx hlo
  have h2 := numMin_finite f h1.1 hhi
  unfold numClamp
  exact ⟨h2.1, by rw [h2.2, h1.2]⟩

/-- A clamped finite value lies in the bounds. -/
theorem numClamp_within {x lo hi : F} (hx : f32Finite x = true) (hlo : f32Finite lo = true)
    (hhi : f32Finite hi = true) (h : f32Val lo ≤ f32Val hi) :
    within lo hi (numClamp (binary32 f) x lo hi) = true := by
  have hc := numClamp_finite f hx hlo hhi
  rw [within_iff hlo hhi]
  exact ⟨hc.1, by omega, by omega⟩

end choose

theorem max_in (f : FreeFns) {a a0 a1 b b0 b1 lo hi : F} (ha : within a0 a1 a = true) (hb : within b0 b1 b = true)
    (h : (finite6 a0 a1 b0 b1 lo hi && decide (f32Val lo ≤ max (f32Val a0) (f32Val b0))
      && decide (max (f32Val a1) (f32Val b1) ≤ f32Val hi)) = true) :
    within lo hi (numMax (binary32 f) a b) = true := by
  simp only [finite6, Bool.and_eq_true, decide_eq_true_eq] at h
  obtain ⟨⟨⟨⟨⟨⟨⟨f1, f2⟩, f3⟩, f4⟩, f5⟩, f6⟩, h1⟩, h2⟩ := h
  have ia := finite_bounds ha f1 f2
  have ib := finite_bounds hb f3 f4
  have hm := numMax_finite f ia.1 ib.1
  rw [within_iff f5 f6]
  exact ⟨hm.1, by omega, by omega⟩

theorem min_in (f : FreeFns) {a a0 a1 b b0 b1 lo hi : F} (ha : within a0 a1 a = true) (hb : within b0 b1 b = true)
    (h : (finite6 a0 a1 b0 b1 lo hi && decide (f32Val lo ≤ min (f32Val a0) (f32Val b0))
      && decide (min (f32Val a1) (f32Val b1) ≤ f32Val hi)) = true) :
    within lo hi (numMin (binary32 f) a b) = true := by
  simp only [finite6, Bool.and_eq_true, decide_eq_true_eq] at h
  obtain ⟨⟨⟨⟨⟨⟨⟨f1, f2⟩, f3⟩, f4⟩, f5⟩, f6⟩, h1⟩, h2⟩ := h
  have ia := finite_bounds ha f1 f2
  have ib := finite_bounds hb f3 f4
  have hm := numMin_finite f ia.1 ib.1
  rw [within_iff f5 f6]
  exact ⟨hm.1, by omega, by omega⟩

theorem clamp_in (f : FreeFns) {a a0 a1 lo hi : F} (ha : within a0 a1 a = true)
    (h : (f32Finite a0 && f32Finite a1 && f32Finite lo && f32Finite hi && decide (f32Val lo ≤ f32Val hi)) = true) :
    within lo hi (numClamp (binary32 f) a lo hi) = true := by
  simp only [Bool.and_eq_true, decide_eq_true_eq] at h
  obtain ⟨⟨⟨⟨f1, f2⟩, f3⟩, f4⟩, h⟩ := h
  exact numClamp_within f (finite_bounds ha f1 f2).1 f3 f4 h

/-! ### Derived per-block values -/

section derived
variable (f : FreeFns)

/-- An amount lies in `[0, 1]` (R44, R45, R46). -/
theorem amountOf_range {pct : F} (h : within 0x00000000 0x42C80000 pct = true) :
    unitRange (amountOf (binary32 f) pct) = true := by
  simp only [unitRange, amountOf, binary32_lit, binary32_div, f32Lit]
  exact div_in f h (within_lit (a := 0x42C80000) (by decide)) (by decide)

/-- The attack rate lies in `[2^-20, 1]`, so it is positive (R47). -/
theorem attackRate_range {onset rate : F} (ho : within 0x41200000 0x44FA0000 onset = true)
    (hr : legalRate rate = true) : within 0x35800000 0x3F800000 (attackRate (binary32 f) onset rate) = true := by
  have h1 : within 0x00000000 0x40000000 (f32Div f onset 0x447A0000) = true :=
    div_in f ho (within_lit (by decide)) (by decide)
  have h2 : within 0x00000000 0x493B8000 (f32Mul f (f32Div f onset 0x447A0000) rate) = true :=
    mul_in f h1 hr (by decide)
  have h3 := max_in f (within_lit (a := 0x3F800000) (by decide)) h2 (lo := 0x3F800000) (hi := 0x493B8000) (by decide)
  simp only [attackRate, binary32_lit, binary32_div, binary32_mul, f32Lit]
  exact div_in f (within_lit (a := 0x3F800000) (by decide)) h3 (by decide)

/-- The release rate lies in `[2^-13, 1]` (R48). -/
theorem releaseRate_range {rate : F} (hr : legalRate rate = true) :
    within 0x39000000 0x3F800000 (releaseRate (binary32 f) rate) = true := by
  have h2 : within 0x00000000 0x45B40000 (f32Mul f 0x3C75C28F rate) = true :=
    mul_in f (within_lit (by decide)) hr (by decide)
  have h3 := max_in f (within_lit (a := 0x3F800000) (by decide)) h2 (lo := 0x3F800000) (hi := 0x45B40000) (by decide)
  simp only [releaseRate, binary32_lit, binary32_div, binary32_mul, f32Lit]
  exact div_in f (within_lit (a := 0x3F800000) (by decide)) h3 (by decide)

/-- The variation period lies in `[319, 15360]` (R49). -/
theorem varPeriod_range {rate : F} (hr : legalRate rate = true) :
    319 ≤ varPeriod (binary32 f) rate ∧ varPeriod (binary32 f) rate ≤ 15360 := by
  have h1 : within 0x439F8000 0x46700000 (f32Mul f rate 0x3D23D70A) = true :=
    mul_in f hr (within_lit (by decide)) (by decide)
  have hb := finite_bounds h1 (by decide) (by decide)
  have v1 : f32Val 0x439F8000 = 319 * 2 ^ 149 := by decide
  have v2 : f32Val 0x46700000 = 15360 * 2 ^ 149 := by decide
  rw [v1, v2] at hb
  have he : varPeriod (binary32 f) rate = (f32Val (f32Mul f rate 0x3D23D70A)).tdiv (2 ^ 149) := by
    simp only [varPeriod, binary32_lit, binary32_mul, binary32_truncInt, f32Lit]
    unfold f32Trunc; rw [if_pos hb.1]
  rw [he, Int.tdiv_eq_ediv_of_nonneg (by omega)]
  constructor
  · exact (Int.le_ediv_iff_mul_le (by positivity)).mpr hb.2.1
  · have := Int.ediv_le_ediv (by positivity : (0 : Int) < 2 ^ 149) hb.2.2
    rwa [Int.mul_ediv_cancel _ (by positivity)] at this

/-! ### ENV -/

/-- ENV keeps the envelope in `[0, 1]` (R133). -/
theorem envNext_range {attack release envelope : F} (trig : Bool) (ha : within 0x35800000 0x3F800000 attack = true)
    (hr : within 0x39000000 0x3F800000 release = true) (he : unitRange envelope = true) :
    unitRange (envNext (binary32 f) trig attack release envelope) = true := by
  cases trig with
  | true =>
    have h1 : within 0x00000000 0x40000000 (f32Add f envelope attack) = true := add_in f he ha (by decide)
    simp only [envNext, if_true, unitRange, binary32_lit, binary32_add, f32Lit]
    exact min_in f h1 (within_lit (a := 0x3F800000) (by decide)) (by decide)
  | false =>
    have h1 : within 0xBF800000 0x3F800000 (f32Sub f envelope release) = true := sub_in f he hr (by decide)
    simp only [envNext, Bool.false_eq_true, if_false, unitRange, binary32_lit, binary32_sub, f32Lit]
    exact max_in f h1 (within_lit (a := 0x00000000) (by decide)) (by decide)

end derived

/-! ### VAR -/

/-- A power of two is representable. -/
theorem exists_pow2 (k : Nat) (hk : k ≤ 276) : ∃ y : F, f32Finite y = true ∧ f32Val y = 2 ^ k := by
  obtain ⟨e, m, hm, he, hem, hc⟩ : ∃ e m, m < 2 ^ 24 ∧ (e = 0 ∨ 2 ^ 23 ≤ m) ∧ m * 2 ^ e = 2 ^ k ∧ e * 2 ^ 23 + m < f32InfCode := by
    by_cases h : k ≤ 23
    · refine ⟨0, 2 ^ k, Nat.pow_lt_pow_right (by norm_num) (by omega), .inl rfl, by simp, ?_⟩
      have : 2 ^ k ≤ 2 ^ 23 := Nat.pow_le_pow_right (by norm_num) h
      unfold f32InfCode; omega
    · refine ⟨k - 23, 2 ^ 23, by norm_num, .inr le_rfl, ?_, by unfold f32InfCode; omega⟩
      rw [← pow_add]; congr 1; omega
  have hlt : e * 2 ^ 23 + m < 2 ^ 31 := lt_trans hc (by decide)
  refine ⟨f32Make false (e * 2 ^ 23 + m), ?_, ?_⟩
  · unfold f32Finite; rw [f32Code_make _ hlt]; simpa using hc
  · unfold f32Val f32Mag
    rw [f32Sign_make _ hlt, f32Code_make _ hlt, f32CodeMag_split e m hm he, hem]
    simp

section variation
variable (f : FreeFns)

/-- The product `0.002 * d` of a rounded difference does not pass the exact difference, upward. -/
theorem glide_up {s t : F} (hs : f32Finite s = true) (ht : f32Finite t = true)
    (hst : f32Val s ≤ f32Val t) (hb : f32Val t - f32Val s < 2 ^ 200) :
    ∃ p : F, f32Mul f 0x3B03126F (f32Sub f t s) = p ∧ f32Finite p = true ∧ 0 ≤ f32Val p
      ∧ f32Val p ≤ f32Val t - f32Val s := by
  have v0 : f32Val 0x00000000 = 0 := rfl
  have vc : f32Val 0x3B03126F = 8589935 * 2 ^ 117 := by decide
  rcases Int.lt_or_eq_of_le hst with hlt | heq
  · obtain ⟨N, hN⟩ : ∃ N : Nat, (N : Int) = f32Val t - f32Val s := ⟨(f32Val t - f32Val s).toNat, by omega⟩
    have hN0 : N ≠ 0 := by omega
    have hk1 := Nat.log2_self_le hN0
    have hk2 := Nat.lt_log2_self (n := N)
    have hk : Nat.log2 N < 200 := by
      have : N < 2 ^ 200 := by have : (N : Int) < 2 ^ 200 := by omega
                               exact_mod_cast this
      exact (Nat.log2_lt hN0).mpr this
    obtain ⟨y1, fy1, vy1⟩ := exists_pow2 (Nat.log2 N + 1) (by omega)
    obtain ⟨y0, fy0, vy0⟩ := exists_pow2 (Nat.log2 N) (by omega)
    have hk1' : (2 : Int) ^ Nat.log2 N ≤ N := by exact_mod_cast hk1
    have hk2' : (N : Int) < 2 ^ (Nat.log2 N + 1) := by exact_mod_cast hk2
    have hd : within 0x00000000 y1 (f32Sub f t s) = true :=
      sub_within f ht hs (by decide) fy1 (by rw [v0]; omega) (by rw [vy1]; omega)
    have hdb := finite_bounds hd (by decide) fy1
    rw [v0, vy1] at hdb
    have hp : within 0x00000000 y0 (f32Mul f 0x3B03126F (f32Sub f t s)) = true := by
      refine mul_within f (by decide) hdb.1 (by decide) fy0 ?_ ?_
      · rw [v0, vc]; have := hdb.2.1; positivity
      · rw [vy0, vc]
        have h1 := hdb.2.2
        rw [pow_succ] at h1
        have h2 : (8589935 * 2 ^ 117 : Int) * f32Val (f32Sub f t s) ≤ 8589935 * 2 ^ 117 * (2 ^ Nat.log2 N * 2) :=
          Int.mul_le_mul_of_nonneg_left h1 (by norm_num)
        refine le_trans h2 ?_
        have h3 : (0 : Int) ≤ 2 ^ Nat.log2 N := by positivity
        nlinarith
    have hpb := finite_bounds hp (by decide) fy0
    rw [v0, vy0] at hpb
    exact ⟨_, rfl, hpb.1, hpb.2.1, by omega⟩
  · have hd : within 0x00000000 0x00000000 (f32Sub f t s) = true :=
      sub_within f ht hs (by decide) (by decide) (by rw [v0]; omega) (by rw [v0]; omega)
    have hp : within 0x00000000 0x00000000 (f32Mul f 0x3B03126F (f32Sub f t s)) = true :=
      mul_in f (within_lit (by decide)) hd (by decide)
    have hpb := finite_bounds hp (by decide) (by decide)
    rw [v0] at hpb
    exact ⟨_, rfl, hpb.1, by omega, by omega⟩

/-- The same downward. -/
theorem glide_down {s t : F} (hs : f32Finite s = true) (ht : f32Finite t = true)
    (hst : f32Val t ≤ f32Val s) (hb : f32Val s - f32Val t < 2 ^ 200) :
    ∃ p : F, f32Mul f 0x3B03126F (f32Sub f t s) = p ∧ f32Finite p = true ∧ f32Val p ≤ 0
      ∧ f32Val t - f32Val s ≤ f32Val p := by
  have v0 : f32Val 0x00000000 = 0 := rfl
  have vc : f32Val 0x3B03126F = 8589935 * 2 ^ 117 := by decide
  rcases Int.lt_or_eq_of_le hst with hlt | heq
  · obtain ⟨N, hN⟩ : ∃ N : Nat, (N : Int) = f32Val s - f32Val t := ⟨(f32Val s - f32Val t).toNat, by omega⟩
    have hN0 : N ≠ 0 := by omega
    have hk1 := Nat.log2_self_le hN0
    have hk2 := Nat.lt_log2_self (n := N)
    have hk : Nat.log2 N < 200 := by
      have : N < 2 ^ 200 := by have : (N : Int) < 2 ^ 200 := by omega
                               exact_mod_cast this
      exact (Nat.log2_lt hN0).mpr this
    obtain ⟨y1, fy1, vy1⟩ := exists_pow2 (Nat.log2 N + 1) (by omega)
    obtain ⟨y0, fy0, vy0⟩ := exists_pow2 (Nat.log2 N) (by omega)
    have fn1 : f32Finite (f32Flip y1) = true := by rw [f32Finite_flip]; exact fy1
    have fn0 : f32Finite (f32Flip y0) = true := by rw [f32Finite_flip]; exact fy0
    have hk1' : (2 : Int) ^ Nat.log2 N ≤ N := by exact_mod_cast hk1
    have hk2' : (N : Int) < 2 ^ (Nat.log2 N + 1) := by exact_mod_cast hk2
    have hd : within (f32Flip y1) 0x00000000 (f32Sub f t s) = true :=
      sub_within f ht hs fn1 (by decide) (by rw [f32Val_flip, vy1]; omega) (by rw [v0]; omega)
    have hdb := finite_bounds hd fn1 (by decide)
    rw [v0, f32Val_flip, vy1] at hdb
    have hp : within (f32Flip y0) 0x00000000 (f32Mul f 0x3B03126F (f32Sub f t s)) = true := by
      refine mul_within f (by decide) hdb.1 fn0 (by decide) ?_ ?_
      · rw [f32Val_flip, vy0, vc]
        have h1 := hdb.2.1
        rw [pow_succ] at h1
        have h2 : (8589935 * 2 ^ 117 : Int) * (-(2 ^ Nat.log2 N * 2)) ≤ 8589935 * 2 ^ 117 * f32Val (f32Sub f t s) :=
          Int.mul_le_mul_of_nonneg_left h1 (by norm_num)
        refine le_trans ?_ h2
        have h3 : (0 : Int) ≤ 2 ^ Nat.log2 N := by positivity
        nlinarith
      · rw [v0, vc]; have := hdb.2.2; nlinarith
    have hpb := finite_bounds hp fn0 (by decide)
    rw [v0, f32Val_flip, vy0] at hpb
    exact ⟨_, rfl, hpb.1, hpb.2.2, by omega⟩
  · have hd : within 0x00000000 0x00000000 (f32Sub f t s) = true :=
      sub_within f ht hs (by decide) (by decide) (by rw [v0]; omega) (by rw [v0]; omega)
    have hp : within 0x00000000 0x00000000 (f32Mul f 0x3B03126F (f32Sub f t s)) = true :=
      mul_in f (within_lit (by decide)) hd (by decide)
    have hpb := finite_bounds hp (by decide) (by decide)
    rw [v0] at hpb
    exact ⟨_, rfl, hpb.1, by omega, by omega⟩

/-- The smoother stays between its state and its target, so in `[-1, 1]` (R144). -/
theorem varSmooth_range {s t : F} (hs : signedUnit s = true) (ht : signedUnit t = true) :
    signedUnit (varSmooth (binary32 f) s t) = true := by
  rw [signedUnit_iff] at hs ht
  have v1 : f32Val 0x3F800000 = 2 ^ 149 := by decide
  have v2 : f32Val 0xBF800000 = -2 ^ 149 := by decide
  rcases le_total (f32Val s) (f32Val t) with h | h
  · obtain ⟨p, hp, fp, p0, p1⟩ := glide_up f hs.1 ht.1 h (by omega)
    simp only [signedUnit, varSmooth, binary32_lit, binary32_add, binary32_mul, binary32_sub, f32Lit]
    rw [hp]
    exact add_within f hs.1 fp (by decide) (by decide) (by rw [v2]; omega) (by rw [v1]; omega)
  · obtain ⟨p, hp, fp, p0, p1⟩ := glide_down f hs.1 ht.1 h (by omega)
    simp only [signedUnit, varSmooth, binary32_lit, binary32_add, binary32_mul, binary32_sub, f32Lit]
    rw [hp]
    exact add_within f hs.1 fp (by decide) (by decide) (by rw [v2]; omega) (by rw [v1]; omega)

end variation

/-! ### LFO -/

/-- A phase below 1 is not wrapped. -/
theorem phaseWrap_stop {α : Type} (N : Num α) (n : Nat) {x : α} (h : N.le (N.lit .one) x = false) :
    phaseWrap N n x = some x := by
  cases n <;> simp [phaseWrap, h]

/-- A phase of 1 or more loses 1, and the test is made again. -/
theorem phaseWrap_turn {α : Type} (N : Num α) (n : Nat) {x : α} (h : N.le (N.lit .one) x = true) :
    phaseWrap N (n + 1) x = phaseWrap N n (N.sub x (N.lit .one)) := by
  simp [phaseWrap, h]

section lfo
variable (f : FreeFns)

theorem lfoVmod_range {smoothed pct : F} (hs : signedUnit smoothed = true)
    (hp : within 0x00000000 0x42C80000 pct = true) : signedUnit (lfoVmod (binary32 f) smoothed pct) = true := by
  simp only [signedUnit, lfoVmod, binary32_mul]
  exact mul_in f hs (amountOf_range f hp) (by decide)

/-- The effective rate lies in `[0.375, 18.75]` (R157). -/
theorem lfoRate_range {rateHz vmod : F} (hr : within 0x3F000000 0x41700000 rateHz = true)
    (hv : signedUnit vmod = true) : within 0x3EC00000 0x41960000 (lfoRate (binary32 f) rateHz vmod) = true := by
  have h1 : within 0xBE800000 0x3E800000 (f32Mul f vmod 0x3E800000) = true :=
    mul_in f hv (within_lit (by decide)) (by decide)
  have h2 : within 0x3F400000 0x3FA00000 (f32Add f 0x3F800000 (f32Mul f vmod 0x3E800000)) = true :=
    add_in f (within_lit (by decide)) h1 (by decide)
  have h3 : within 0x3EC00000 0x41960000 (f32Mul f rateHz (f32Add f 0x3F800000 (f32Mul f vmod 0x3E800000))) = true :=
    mul_in f hr h2 (by decide)
  simp only [lfoRate, binary32_lit, binary32_add, binary32_mul, f32Lit]
  exact max_in f h3 (within_lit (a := 0x3C23D70A) (by decide)) (by decide)

/-- The phase after the advance lies in `[0, 1 + 2^-8]` (R159). -/
theorem lfoAdvance_range {phase eff rate : F} (hp : phaseRange phase = true)
    (he : within 0x3EC00000 0x41960000 eff = true) (hr : legalRate rate = true) :
    within 0x00000000 0x3F808000 (lfoAdvance (binary32 f) phase eff rate) = true := by
  have hu : unitRange phase = true := by
    rw [phaseRange_iff] at hp; rw [unitRange_iff]; exact ⟨hp.1, hp.2.1, le_of_lt hp.2.2⟩
  have h1 : within 0x00000000 0x3B800000 (f32Div f eff rate) = true := div_in f he hr (by decide)
  simp only [lfoAdvance, binary32_add, binary32_div]
  exact add_in f hu h1 (by decide)

/-- The wrap of such a phase takes at most one turn and ends in `[0, 1)` (R159). -/
theorem phaseWrap_range {x : F} (hx : within 0x00000000 0x3F808000 x = true) (n : Nat) :
    ∃ p, phaseWrap (binary32 f) (n + 2) x = some p ∧ phaseRange p = true := by
  have hb := finite_bounds hx (by decide) (by decide)
  have v0 : f32Val 0x00000000 = 0 := rfl
  have v1 : f32Val 0x3F800000 = 2 ^ 149 := by decide
  have v2 : f32Val 0x3F808000 = 2 ^ 149 + 2 ^ 141 := by decide
  have v3 : f32Val 0x3B800000 = 2 ^ 141 := by decide
  rw [v0, v2] at hb
  by_cases h : f32Le 0x3F800000 x = true
  · have hge : (2 : Int) ^ 149 ≤ f32Val x := by
      have := (f32Le_iff (by decide) hb.1).mp h; rwa [v1] at this
    have hs : within 0x00000000 0x3B800000 (f32Sub f x 0x3F800000) = true :=
      sub_within f hb.1 (by decide) (by decide) (by decide) (by rw [v0, v1]; omega) (by rw [v3, v1]; omega)
    have hsb := finite_bounds hs (by decide) (by decide)
    rw [v0, v3] at hsb
    refine ⟨f32Sub f x 0x3F800000, ?_, ?_⟩
    · rw [phaseWrap_turn (binary32 f) (n + 1) h]
      apply phaseWrap_stop
      rw [Bool.eq_false_iff]
      intro hc
      simp only [binary32_le, binary32_lit, binary32_sub, f32Lit] at hc
      have := (f32Le_iff (by decide) hsb.1).mp hc
      rw [v1] at this
      norm_num at this hsb; omega
    · rw [phaseRange_iff]
      refine ⟨hsb.1, hsb.2.1, lt_of_le_of_lt hsb.2.2 (by norm_num)⟩
  · refine ⟨x, ?_, ?_⟩
    · exact phaseWrap_stop (binary32 f) (n + 2) (Bool.eq_false_iff.mpr h)
    · rw [phaseRange_iff]
      refine ⟨hb.1, hb.2.1, ?_⟩
      by_contra hc
      exact h ((f32Le_iff (by decide) hb.1).mpr (by rw [v1]; omega))

/-- The wave lies in `[-1, 1]` (R157, R158). -/
theorem lfoWave_range (hl : f.Lawful) {phase vmod : F} (hp : phaseRange phase = true) (hv : signedUnit vmod = true) :
    signedUnit (lfoWave (binary32 f) phase vmod) = true := by
  have hu : unitRange phase = true := by
    rw [phaseRange_iff] at hp; rw [unitRange_iff]; exact ⟨hp.1, hp.2.1, le_of_lt hp.2.2⟩
  have h1 : within 0x00000000 0x40C90FDB (f32Mul f 0x40C90FDB phase) = true :=
    mul_in f (within_lit (by decide)) hu (by decide)
  have hf := (finite_bounds h1 (by decide) (by decide)).1
  have h2 : signedUnit (f.sin (f32Mul f 0x40C90FDB phase)) = true := by
    unfold signedUnit within; rw [Bool.and_eq_true]; exact hl.sin_range _ hf
  have h3 : within 0xBF800000 0x3F800000 (f32Mul f vmod 0x3E19999A) = true :=
    mul_in f hv (within_lit (by decide)) (by decide)
  have h4 : within 0xC0000000 0x40000000
      (f32Add f (f.sin (f32Mul f 0x40C90FDB phase)) (f32Mul f vmod 0x3E19999A)) = true :=
    add_in f h2 h3 (by decide)
  simp only [signedUnit, lfoWave, binary32_lit, binary32_add, binary32_mul, binary32_sin, f32Lit]
  exact clamp_in f h4 (by decide)

end lfo

/-! ### DMOD and TREM -/

section delay
variable (f : FreeFns)

/-- The delay offset is finite for legal inputs (R172, R284). -/
theorem delayMod_finite (hl : f.Lawful) {cents rate env vmod eff lfo : F}
    (hc : within 0x00000000 0x43480000 cents = true) (hr : legalRate rate = true) (he : unitRange env = true)
    (hv : signedUnit vmod = true) (hf : within 0x3EC00000 0x41960000 eff = true) (hw : signedUnit lfo = true) :
    within 0xC8000000 0x48000000 (delayMod (binary32 f) cents rate env vmod eff lfo) = true := by
  unfold delayMod
  split
  · have h1 : within 0xBE19999A 0x3E19999A (f32Mul f vmod 0x3E19999A) = true :=
      mul_in f hv (within_lit (by decide)) (by decide)
    have h2 : within 0x3F000000 0x3F933334 (f32Add f 0x3F800000 (f32Mul f vmod 0x3E19999A)) = true :=
      add_in f (within_lit (by decide)) h1 (by decide)
    have h3 : within 0x00000000 0x43660002 (f32Mul f cents (f32Add f 0x3F800000 (f32Mul f vmod 0x3E19999A))) = true :=
      mul_in f hc h2 (by decide)
    have h4 : within 0x00000000 0x43660002 (effPitch (binary32 f) cents vmod) = true := by
      simp only [effPitch, binary32_lit, binary32_add, binary32_mul, f32Lit]
      exact max_in f h3 (within_lit (a := 0x00000000) (by decide)) (by decide)
    have h5 : within 0x00000000 exp2ArgMax (f32Div f (effPitch (binary32 f) cents vmod) 0x44960000) = true :=
      div_in f h4 (within_lit (by decide)) (by decide)
    have h5' := h5
    unfold within at h5'; rw [Bool.and_eq_true] at h5'
    have h6 : within 0x3F800000 exp2Max (f.exp2 (f32Div f (effPitch (binary32 f) cents vmod) 0x44960000)) = true := by
      unfold within; rw [Bool.and_eq_true]; exact hl.exp2_range _ h5'.1 h5'.2
    have h7 : within 0x00000000 0x3E800000
        (f32Sub f (f.exp2 (f32Div f (effPitch (binary32 f) cents vmod) 0x44960000)) 0x3F800000) = true :=
      sub_in f h6 (within_lit (by decide)) (by decide)
    have h8 : within 0x00000000 0x48000000
        (f32Mul f (f32Sub f (f.exp2 (f32Div f (effPitch (binary32 f) cents vmod) 0x44960000)) 0x3F800000) rate) = true :=
      mul_in f h7 hr (by decide)
    have h9 : within 0x3F800000 0x43000000 (f32Mul f 0x40C90FDB eff) = true :=
      mul_in f (within_lit (by decide)) hf (by decide)
    have h10 : within 0x00000000 0x48000000 (modAmp (binary32 f) (effPitch (binary32 f) cents vmod) rate eff) = true := by
      simp only [modAmp, binary32_lit, binary32_sub, binary32_mul, binary32_div, binary32_exp2, f32Lit]
      exact div_in f h8 h9 (by decide)
    have h11 : within 0xC8000000 0x48000000
        (f32Mul f lfo (modAmp (binary32 f) (effPitch (binary32 f) cents vmod) rate eff)) = true :=
      mul_in f hw h10 (by decide)
    simp only [binary32_mul]
    exact mul_in f h11 he (by decide)
  · simp only [binary32_lit, f32Lit]
    decide

/-- `totalDelay` of a finite offset lies in `[2, 4092]` (R172). -/
theorem totalDelayOf_range {d : F} (hd : within 0xC8000000 0x48000000 d = true) :
    within 0x40000000 0x457FC000 (totalDelayOf (binary32 f) d) = true := by
  have h1 : within 0xC9000000 0x49000000 (f32Add f 0x44800000 d) = true :=
    add_in f (within_lit (by decide)) hd (by decide)
  simp only [totalDelayOf, binary32_lit, binary32_add, f32Lit]
  exact clamp_in f h1 (by decide)

/-- `ampMod` lies in `[0, 1]` (R232). -/
theorem ampMod_range {pct env lfo : F} (hp : within 0x00000000 0x42C80000 pct = true) (he : unitRange env = true)
    (hw : signedUnit lfo = true) : unitRange (ampMod (binary32 f) pct env lfo) = true := by
  have h1 : within 0x00000000 0x3F800000 (f32Mul f (amountOf (binary32 f) pct) env) = true :=
    mul_in f (amountOf_range f hp) he (by decide)
  have h2 : within 0x00000000 0x40000000 (f32Sub f 0x3F800000 lfo) = true :=
    sub_in f (within_lit (by decide)) hw (by decide)
  have h3 : within 0x00000000 0x40000000
      (f32Mul f (f32Mul f (amountOf (binary32 f) pct) env) (f32Sub f 0x3F800000 lfo)) = true := mul_in f h1 h2 (by decide)
  have h4 : within 0x00000000 0x3F800000
      (f32Mul f (f32Mul f (f32Mul f (amountOf (binary32 f) pct) env) (f32Sub f 0x3F800000 lfo)) 0x3F000000) = true :=
    mul_in f h3 (within_lit (by decide)) (by decide)
  simp only [unitRange, ampMod, binary32_lit, binary32_sub, binary32_mul, f32Lit]
  exact sub_in f (within_lit (a := 0x3F800000) (by decide)) h4 (by decide)

end delay

end Sys2Proof.Machine
end

