-- ==== Sys2Proof/Laws/Real.lean ====
section
/-! SUPPORT. The machine's parameters over the reals: its source is lawful, and its phase wrap always ends. -/

namespace Sys2Proof.Machine

theorem realNum_le_one_iff (x : ℝ) : realNum.le (realNum.lit .one) x = true ↔ 1 ≤ x := by
  simp [realNum, realLit, Lit.decimal]

theorem realNum_sub_one (x : ℝ) : realNum.sub x (realNum.lit .one) = x - 1 := by
  simp [realNum, realLit, Lit.decimal]

/-- With as many turns as its integer part the wrap of a real phase ends, below 1 (R156). -/
theorem phaseWrap_real (n : Nat) (x : ℝ) (h : x < n + 1) :
    ∃ p, phaseWrap realNum n x = some p ∧ p < 1 ∧ (0 ≤ x → 0 ≤ p) := by
  induction n generalizing x with
  | zero =>
    have h1 : ¬ 1 ≤ x := by push_cast at h; linarith
    exact ⟨x, by simp [phaseWrap, realNum_le_one_iff, h1], lt_of_not_ge h1, id⟩
  | succ n ih =>
    by_cases h1 : 1 ≤ x
    · obtain ⟨p, hp, hlt, h0⟩ := ih (x - 1) (by push_cast at h; linarith)
      exact ⟨p, by simp [phaseWrap, realNum_le_one_iff, realNum_sub_one, h1, hp], hlt, fun _ => h0 (by linarith)⟩
    · exact ⟨x, by simp [phaseWrap, realNum_le_one_iff, h1], lt_of_not_ge h1, id⟩

/-- Over the reals LFO never stops (R156, R284). -/
theorem statePhase_real (s : Gen.State ℝ (BitVec 32)) : ∃ p, statePhase realParams s = some p ∧ p < 1 := by
  obtain ⟨p, hp, hlt, -⟩ := phaseWrap_real ⌊stateAdvance realParams s⌋.toNat (stateAdvance realParams s) (by
    have h1 := Int.lt_floor_add_one (stateAdvance realParams s)
    have h2 : (⌊stateAdvance realParams s⌋ : ℝ) ≤ (⌊stateAdvance realParams s⌋.toNat : ℝ) := by
      exact_mod_cast Int.self_le_toNat _
    linarith)
  exact ⟨p, hp, hlt⟩

/-- The default source over the reals draws from `[-1, 1]` (R145, R146). -/
theorem realParams_lawful : realParams.Lawful where
  draws s := by
    have hlt : ((lcgState s >>> 8).toNat : ℝ) ≤ 16777215 := by
      have : (lcgState s >>> 8).toNat ≤ 16777215 := by
        rw [BitVec.toNat_ushiftRight, Nat.shiftRight_eq_div_pow]
        have := (lcgState s).isLt
        omega
      exact_mod_cast this
    have hge : (0 : ℝ) ≤ ((lcgState s >>> 8).toNat : ℝ) := Nat.cast_nonneg _
    simp only [realParams, lcg, lcgValue, realNum, realLit, Lit.decimal, decide_eq_true_eq, Int.cast_natCast]
    generalize ((lcgState s >>> 8).toNat : ℝ) = x at *
    constructor <;> norm_num <;> linarith
  rates := by
    simp only [realParams, realNum, realLit, Lit.decimal, decide_eq_true_eq]
    norm_num

end Sys2Proof.Machine
end

