-- ==== Sys2Proof/Laws/Steps.lean ====
section
/-! SUPPORT. The machine's operations on legal states: which commands are admitted, what the default generator draws,
and that ENV, VAR and LFO keep their registers in range. -/

namespace Sys2Proof.Machine

/-! ### Admission -/

/-- Finite and inside finite bounds is the same as inside the bounds. -/
theorem admitRange_eq (f : FreeFns) {lo hi x : F} (hlo : f32Finite lo = true) (hhi : f32Finite hi = true) :
    admitRange (binary32 f) lo hi x = within lo hi x := by
  rw [Bool.eq_iff_iff]
  constructor
  · intro h
    simp only [admitRange, binary32_finite, binary32_le, Bool.and_eq_true] at h
    simp only [within, Bool.and_eq_true]
    exact ⟨h.1.2, h.2⟩
  · intro h
    have hf := (finite_bounds h hlo hhi).1
    simp only [within, Bool.and_eq_true] at h
    simp only [admitRange, binary32_finite, binary32_le, Bool.and_eq_true]
    exact ⟨⟨hf, h.1⟩, h.2⟩

/-- PREPARE admits the legal rates (R42, R242). -/
theorem admitRate_eq (x : F) : admitRate machineParams x = legalRate x := by
  rw [admitRate, machineParams_num]
  exact admitRange_eq _ (by decide) (by decide)

/-- LOADP admits the legal snapshots (R41, R246). -/
theorem admitSnapshot_eq (p : ParamRegs F) : admitSnapshot machineParams.num p = legalSnapshot p := by
  rw [machineParams_num]
  simp only [admitSnapshot, binary32_lit, f32Lit, legalSnapshot]
  rw [admitRange_eq _ (by decide) (by decide), admitRange_eq _ (by decide) (by decide),
    admitRange_eq _ (by decide) (by decide), admitRange_eq _ (by decide) (by decide),
    admitRange_eq _ (by decide) (by decide), admitRange_eq _ (by decide) (by decide)]

/-- The fields of a legal snapshot, one by one (R41). -/
theorem legalSnapshot_iff (p : ParamRegs F) : legalSnapshot p = true ↔
    within 0x41200000 0x44FA0000 p.onsetMs = true ∧ within 0x3F000000 0x41700000 p.rateHz = true
    ∧ within 0x00000000 0x43480000 p.pitchCents = true ∧ within 0x00000000 0x42C80000 p.amplitudePct = true
    ∧ within 0x00000000 0x42C80000 p.formantPct = true ∧ within 0x00000000 0x42C80000 p.variationPct = true := by
  simp only [legalSnapshot, Bool.and_eq_true, and_assoc]

/-! ### The default generator -/

/-- A draw of the default generator is exact and lies in `[-1, 1]` (R145, R146). -/
theorem lcgValue_exact (f : FreeFns) (x : BitVec 32) :
    f32Finite (lcgValue (binary32 f) x) = true
    ∧ f32Val (lcgValue (binary32 f) x) = ((x.toNat / 256 : Nat) - 8388608 : Int) * 2 ^ 126 := by
  have hlt : x.toNat / 256 < 2 ^ 24 := by have := x.isLt; omega
  have hs : (x >>> 8).toNat = x.toNat / 256 := by
    rw [BitVec.toNat_ushiftRight, Nat.shiftRight_eq_div_pow]
  have hi := f32OfInt_value hlt
  generalize hn : x.toNat / 256 = n at *
  have hq : f32Finite (f32Div f (f32OfInt n) 0x4B000000) = true
      ∧ f32Val (f32Div f (f32OfInt n) 0x4B000000) = (n : Int) * 2 ^ 126 := by
    obtain ⟨y, hy, hv⟩ := exists_scaled hlt (k := 126) (by norm_num) (by norm_num)
    have hb : f32Val 0x4B000000 = 2 ^ 172 := by decide
    have h1 := f32Div_le f hi.1 (by decide : f32Finite 0x4B000000 = true) (by decide) hy
      (by rw [hi.2, hv, hb]; nlinarith)
    have h2 := le_f32Div f hi.1 (by decide : f32Finite 0x4B000000 = true) (by decide) hy
      (by rw [hi.2, hv, hb]; nlinarith)
    have hf := finite_of_between hy hy h2 h1
    exact ⟨hf, by rw [← hv]; exact le_antisymm ((f32Le_iff hf hy).mp h1) ((f32Le_iff hy hf).mp h2)⟩
  have hone : f32Val 0x3F800000 = 2 ^ 149 := by decide
  have hd : ∃ y : F, f32Finite y = true ∧ f32Val y = ((n : Int) - 8388608) * 2 ^ 126 := by
    rcases Nat.lt_or_ge n 8388608 with h | h
    · obtain ⟨y, hy, hv⟩ := exists_scaled (n := 8388608 - n) (by omega) (k := 126) (by norm_num) (by norm_num)
      refine ⟨f32Flip y, by rw [f32Finite_flip]; exact hy, ?_⟩
      rw [f32Val_flip, hv, Nat.cast_sub (by omega)]
      push_cast; ring
    · obtain ⟨y, hy, hv⟩ := exists_scaled (n := n - 8388608) (by omega) (k := 126) (by norm_num) (by norm_num)
      refine ⟨y, hy, ?_⟩
      rw [hv, Nat.cast_sub (by omega)]
      push_cast; ring
  obtain ⟨y, hy, hv⟩ := hd
  have he : lcgValue (binary32 f) x = f32Sub f (f32Div f (f32OfInt n) 0x4B000000) 0x3F800000 := by
    simp only [lcgValue, binary32_sub, binary32_div, binary32_ofInt, binary32_lit, f32Lit, hs]
  rw [he]
  have h1 := f32Sub_le f hq.1 (by decide : f32Finite 0x3F800000 = true) hy (by rw [hq.2, hv, hone]; nlinarith)
  have h2 := le_f32Sub f hq.1 (by decide : f32Finite 0x3F800000 = true) hy (by rw [hq.2, hv, hone]; nlinarith)
  have hf := finite_of_between hy hy h2 h1
  exact ⟨hf, by rw [← hv]; exact le_antisymm ((f32Le_iff hf hy).mp h1) ((f32Le_iff hy hf).mp h2)⟩

theorem lcgValue_range (f : FreeFns) (x : BitVec 32) : signedUnit (lcgValue (binary32 f) x) = true := by
  have h := lcgValue_exact f x
  have hlt : x.toNat / 256 < 2 ^ 24 := by have := x.isLt; omega
  rw [signedUnit_iff]
  generalize x.toNat / 256 = n at *
  refine ⟨h.1, ?_, ?_⟩ <;> rw [h.2] <;> norm_num <;> omega

/-- The generator's state after a draw, as a number (R146). -/
theorem lcgState_toNat (s : BitVec 32) : (lcgState s).toNat = (s.toNat * 1664525 + 1013904223) % 2 ^ 32 := by
  have h : lcgState s = BitVec.ofNat 32 (s.toNat * 1664525 + 1013904223) := by
    unfold lcgState; simp [BitVec.ofNat_add, BitVec.ofNat_mul]
  rw [h, BitVec.toNat_ofNat]

theorem defaultParams_next (f : FreeFns) (s : BitVec 32) :
    (defaultParams f).rng.next s = (lcgState s, lcgValue (binary32 f) (lcgState s)) := rfl

theorem machineParams_next (s : BitVec 32) :
    machineParams.rng.next s = (lcgState s, lcgValue (binary32 Config.freeValues.fns) (lcgState s)) := by
  unfold machineParams
  exact defaultParams_next _ s

theorem draw_range (s : BitVec 32) : signedUnit (machineParams.rng.next s).2 = true := by
  rw [machineParams_next]
  exact lcgValue_range _ _

/-- The default parameters meet what R145 and R42 ask of the open parameters. -/
theorem machineParams_lawful : machineParams.Lawful where
  draws s := by
    have h := draw_range s
    simp only [signedUnit, within, Bool.and_eq_true] at h
    rw [machineParams_num]
    exact h
  rates := by decide

/-- A draw of a lawful source over the machine's numerics lies in `[-1, 1]` (R145). -/
theorem lawful_draw {σ : Type} {R : Rng F σ} (h : R.Lawful machineParams.num) (s : σ) :
    signedUnit (R.next s).2 = true := by
  have hs := h s
  rw [machineParams_num] at hs
  simp only [signedUnit, within, Bool.and_eq_true]
  exact hs

theorem machine_zero : machineParams.num.lit .zero = 0x00000000 := rfl

/-! ### ENV, VAR and LFO on legal states -/

section legal
variable {s : State}

/-- ENV keeps the envelope in range (R133). -/
theorem envOp_range (hr : legalRate s.cfg.sampleRate = true) (hp : legalSnapshot s.P = true)
    (he : unitRange s.envelope = true) : unitRange (envOp machineParams s).envelope = true := by
  have hp' := (legalSnapshot_iff s.P).mp hp
  simp only [envOp, setEnvelope_envelope, machineParams_num]
  exact envNext_range _ _ (attackRate_range _ hp'.1 hr) (releaseRate_range _ hr) he

/-- The smoothed value VAR leaves (R141). -/
theorem varOp_smoothed {α σ : Type} (O : OpenParams α σ) (s : Gen.State α σ) : (varOp O s).variationSmoothed =
    if variationActive O.num s.P.variationPct = true then
      varSmooth O.num s.variationSmoothed (varCount O s).variationTarget
    else O.num.lit .zero := by
  unfold varOp
  split
  · have h : (varCount O s).variationSmoothed = s.variationSmoothed := by unfold varCount; split <;> rfl
    simp only [varGlide, setSmoothed_variationSmoothed, h]
  · rfl

/-- The target VAR counts down to (R141). -/
theorem varCount_target {α σ : Type} (O : OpenParams α σ) (s : Gen.State α σ) : (varCount O s).variationTarget =
    if countExpired (countDown s.variationCountdown) = true then (O.rng.next s.rngState).2 else s.variationTarget := by
  unfold varCount
  split <;> rfl

/-- With any lawful source VAR keeps the smoothed value in range (R144). -/
theorem varOp_smoothed_lawful {σ : Type} {O : OpenParams F σ} {u : Gen.State F σ} (hN : O.num = machineParams.num)
    (hR : O.rng.Lawful machineParams.num) (hs : signedUnit u.variationSmoothed = true)
    (ht : signedUnit u.variationTarget = true) : signedUnit (varOp O u).variationSmoothed = true := by
  have htt : signedUnit (varCount O u).variationTarget = true := by
    rw [varCount_target]
    split
    · exact lawful_draw hR _
    · exact ht
  rw [varOp_smoothed]
  generalize (varCount O u).variationTarget = t at *
  rw [hN, machineParams_num]
  split
  · exact varSmooth_range _ hs htt
  · simp only [binary32_lit, f32Lit]
    decide

/-- With any lawful source VAR keeps the target in range (R144). -/
theorem varOp_target_lawful {σ : Type} {O : OpenParams F σ} {u : Gen.State F σ}
    (hR : O.rng.Lawful machineParams.num) (ht : signedUnit u.variationTarget = true) :
    signedUnit (varOp O u).variationTarget = true := by
  unfold varOp varCount
  split
  · split
    · simp only [varGlide, varDraw, setSmoothed_variationTarget, setCountdown_variationTarget,
        setTarget_variationTarget]
      exact lawful_draw hR _
    · simpa [varGlide] using ht
  · simpa using ht

theorem varOp_smoothed_range (hs : signedUnit s.variationSmoothed = true) (ht : signedUnit s.variationTarget = true) :
    signedUnit (varOp machineParams s).variationSmoothed = true :=
  varOp_smoothed_lawful rfl machineParams_lawful.draws hs ht

theorem varOp_target_range (ht : signedUnit s.variationTarget = true) :
    signedUnit (varOp machineParams s).variationTarget = true :=
  varOp_target_lawful machineParams_lawful.draws ht

/-- VAR keeps the countdown in `[0, varPeriod]` (R36). -/
theorem varOp_countdown_range (hr : legalRate s.cfg.sampleRate = true)
    (hc : 0 ≤ s.variationCountdown.toInt ∧ s.variationCountdown.toInt ≤ varPeriod machineParams.num s.cfg.sampleRate) :
    0 ≤ (varOp machineParams s).variationCountdown.toInt
    ∧ (varOp machineParams s).variationCountdown.toInt ≤ varPeriod machineParams.num s.cfg.sampleRate := by
  have hv := varPeriod_range Config.freeValues.fns hr
  rw [← machineParams_num] at hv
  unfold varOp varCount
  split
  · split
    · simp only [varGlide, varDraw, setSmoothed_variationCountdown, setCountdown_variationCountdown, storeInt]
      generalize varPeriod machineParams.num s.cfg.sampleRate = n at *
      rw [BitVec.toInt_ofInt, Int.bmod_eq_of_le (by norm_num; omega) (by norm_num; omega)]
      omega
    · rename_i h
      simp only [varGlide, setSmoothed_variationCountdown, setCountdown_variationCountdown]
      have h0 : ¬ (s.variationCountdown - 1).toInt ≤ 0 := fun hc => h (decide_eq_true hc)
      unfold countDown
      have h1 : (s.variationCountdown - 1).toInt = s.variationCountdown.toInt - 1 := by
        rw [BitVec.toInt_sub]
        have : (1 : BitVec 32).toInt = 1 := rfl
        rw [this, Int.bmod_eq_of_le (by norm_num; omega) (by norm_num; omega)]
      omega
  · simpa using hc

/-- On a legal state the phase wrap ends, in `[0, 1)` (R159). -/
theorem statePhase_range (hr : legalRate s.cfg.sampleRate = true) (hp : legalSnapshot s.P = true)
    (hs : signedUnit s.variationSmoothed = true) (hph : phaseRange s.lfoPhase = true) :
    ∃ p, statePhase machineParams s = some p ∧ phaseRange p = true := by
  have hp' := (legalSnapshot_iff s.P).mp hp
  unfold statePhase stateAdvance stateRate stateVmod
  rw [machineParams_wrapTurns, machineParams_num]
  exact phaseWrap_range _ (lfoAdvance_range _ hph (lfoRate_range _ hp'.2.1 (lfoVmod_range _ hs hp'.2.2.2.2.2)) hr) _

end legal

end Sys2Proof.Machine
end

