-- ==== Sys2Proof/Machine/Assembler.lean ====
section
/-! DEFINITION. The assembler syntax (R115) and the pseudo-instructions `process` (R116, R253) and `repeat` (R117): from
the lines of a program to the commands it stands for.  It is the spec's notation for command sequences; no step of the
machine uses it. -/

namespace Sys2Proof.Machine

/-! ### Characters -/

def asmSpace (c : Char) : Bool := c == ' ' || c == '\t'

/-- Without the spaces at both ends. -/
def asmTrim (cs : List Char) : List Char := ((cs.dropWhile asmSpace).reverse.dropWhile asmSpace).reverse

/-- The parts of a text between separators. -/
def asmSplit (sep : Char) : List Char → List (List Char)
  | [] => [[]]
  | c :: cs =>
    match asmSplit sep cs with
    | [] => [[c]]
    | p :: ps => if c == sep then [] :: p :: ps else (c :: p) :: ps

/-- The text up to a separator, and the text after it; `none` where it does not occur. -/
def asmCut (sep : Char) : List Char → Option (List Char × List Char)
  | [] => none
  | c :: cs =>
    if c == sep then some ([], cs)
    else match asmCut sep cs with
      | some (a, b) => some (c :: a, b)
      | none => none

/-- A line without its comment (`;` starts one), in lower case, trimmed (R115).  R115 makes mnemonics case-insensitive;
that field names, the `x` of a pattern, its digits and the `e` of an exponent are so too is a DESIGN CHOICE (log entry
14). -/
def asmLine (cs : List Char) : List Char := asmTrim ((cs.takeWhile (· != ';')).map Char.toLower)

/-! ### Numbers (R115) -/

def asmDigit (c : Char) : Option Nat :=
  if '0'.toNat ≤ c.toNat && c.toNat ≤ '9'.toNat then some (c.toNat - '0'.toNat) else none

def asmHexDigit (c : Char) : Option Nat :=
  match asmDigit c with
  | some d => some d
  | none => if 'a'.toNat ≤ c.toNat && c.toNat ≤ 'f'.toNat then some (c.toNat - 'a'.toNat + 10) else none

/-- The number digits in a base denote, on top of what came before. -/
def asmDigits (digit : Char → Option Nat) (base : Nat) : Nat → List Char → Option Nat
  | n, [] => some n
  | n, c :: cs =>
    match digit c with
    | some d => asmDigits digit base (n * base + d) cs
    | none => none

/-- A natural number: at least one decimal digit. -/
def asmNat (cs : List Char) : Option Nat := if cs.isEmpty then none else asmDigits asmDigit 10 0 cs

/-- A `0x` pattern of at most 32 bits (R115).  That it may be written with any number of digits is a DESIGN CHOICE (log
entry 14). -/
def asmPattern : List Char → Option Word
  | '0' :: 'x' :: cs =>
    if cs.isEmpty then none
    else match asmDigits asmHexDigit 16 0 cs with
      | some n => if n < 2 ^ 32 then some (BitVec.ofNat 32 n) else none
      | none => none
  | _ => none

/-- An optional sign, and the rest. -/
def asmSign : List Char → Bool × List Char
  | '-' :: cs => (true, cs)
  | '+' :: cs => (false, cs)
  | cs => (false, cs)

/-- An exponent: an optional sign and digits. -/
def asmExponent (cs : List Char) : Option Int :=
  match asmNat (asmSign cs).2 with
  | some n => some (if (asmSign cs).1 then -(n : Int) else n)
  | none => none

/-- Digits with an optional fraction: the number of all digits, and how many are after the point. -/
def asmMantissa (cs : List Char) : Option (Nat × Nat) :=
  match asmCut '.' cs with
  | some (whole, fraction) =>
    match asmNat whole, asmNat fraction with
    | some _, some _ => (asmNat (whole ++ fraction)).map fun n => (n, fraction.length)
    | _, _ => none
  | none => (asmNat cs).map fun n => (n, 0)

/-- A decimal number with an optional fraction and exponent, as a rational `p / q`. -/
def asmDecimal (cs : List Char) : Option (Int × Nat) :=
  let body := (asmSign cs).2
  let parts := match asmCut 'e' body with
    | some (m, e) => (asmMantissa m, asmExponent e)
    | none => (asmMantissa body, some 0)
  match parts with
  | (some (n, k), some e) =>
    let p : Int := (if (asmSign cs).1 then -(n : Int) else n) * 10 ^ e.toNat
    some (p, 10 ^ k * 10 ^ (-e).toNat)
  | _ => none

/-- An `F` operand: a bit pattern, or the `F` value nearest to a decimal (R115, R19).  To a decimal zero both `+0` and
`-0` are nearest: that it gives `+0`, whatever sign it is written with, is a DESIGN CHOICE; a decimal that is not zero
and rounds to a zero keeps its sign (log entry 14). -/
def asmValue (cs : List Char) : Option F :=
  match asmPattern cs with
  | some w => some w
  | none => (asmDecimal cs).map fun r => f32OfRat r.1 r.2

/-- An unsigned 32-bit integer operand, decimal or `0x` (R115).  That a decimal is plain digits here, so that `1e3`, `512.0`
and `+512` are no operand, is a DESIGN CHOICE (log entry 14). -/
def asmCount (cs : List Char) : Option Word :=
  match asmPattern cs with
  | some w => some w
  | none =>
    match asmNat cs with
    | some n => if n < 2 ^ 32 then some (BitVec.ofNat 32 n) else none
    | none => none

def asmFlag (cs : List Char) : Option Bool :=
  match cs with
  | ['0'] => some false
  | ['1'] => some true
  | _ => none

/-! ### Commands (R115) -/

/-- The operands of a command: the parts between commas, trimmed; none of an empty text. -/
def asmOperands (cs : List Char) : List (List Char) :=
  if (asmTrim cs).isEmpty then [] else (asmSplit ',' cs).map asmTrim

/-- The fields `key=value` of a snapshot. -/
def asmFields : List (List Char) → Option (List (List Char × List Char))
  | [] => some []
  | p :: ps =>
    match asmCut '=' p, asmFields ps with
    | some (k, v), some rest => some ((asmTrim k, asmTrim v) :: rest)
    | _, _ => none

/-- The value of a field. -/
def asmLookup (key : List Char) : List (List Char × List Char) → Option (List Char)
  | [] => none
  | (k, v) :: rest => if k == key then some v else asmLookup key rest

def asmField (key : List Char) (fs : List (List Char × List Char)) : Option F :=
  match asmLookup key fs with
  | some v => asmValue v
  | none => none

/-- A LOADP from its seven fields, all of them given, in any order (R115). -/
def asmSnapshot (parts : List (List Char)) : Option Instr :=
  match asmFields parts with
  | none => none
  | some fs =>
    if fs.length != 7 then none
    else
      match asmLookup ['t', 'r', 'i', 'g'] fs with
      | none => none
      | some trig =>
        match asmFlag trig, asmField ['o', 'n', 's', 'e', 't'] fs, asmField ['r', 'a', 't', 'e'] fs,
          asmField ['p', 'i', 't', 'c', 'h'] fs, asmField ['a', 'm', 'p'] fs,
          asmField ['f', 'o', 'r', 'm', 'a', 'n', 't'] fs, asmField ['v', 'a', 'r'] fs with
        | some t, some w1, some w2, some w3, some w4, some w5, some w6 => some (.loadp t w1 w2 w3 w4 w5 w6)
        | _, _, _, _, _, _, _ => none

/-- A frame of one or two samples. -/
def asmFrame (parts : List (List Char)) : Option Instr :=
  match parts.map asmValue with
  | [some x0] => some (.step [x0])
  | [some x0, some x1] => some (.step [x0, x1])
  | _ => none

def asmPrepare (parts : List (List Char)) : Option Instr :=
  match parts with
  | [sr, mbs] =>
    match asmValue sr, asmCount mbs with
    | some w1, some w2 => some (.prepare w1 w2)
    | _, _ => none
  | _ => none

/-- The mnemonic of a line, and its operand text. -/
def asmMnemonic (cs : List Char) : List Char × List Char :=
  (cs.takeWhile (fun c => !asmSpace c), cs.dropWhile (fun c => !asmSpace c))

/-- One command line (R115). -/
def asmCommand (cs : List Char) : Option Instr :=
  let m := (asmMnemonic cs).1
  let ops := asmOperands (asmMnemonic cs).2
  if m == ['p', 'r', 'e', 'p', 'a', 'r', 'e'] then asmPrepare ops
  else if m == ['r', 'e', 's', 'e', 't'] then (if ops.isEmpty then some .reset else none)
  else if m == ['l', 'o', 'a', 'd', 'p'] then asmSnapshot ops
  else if m == ['s', 't', 'e', 'p'] then asmFrame ops
  else none

/-! ### Programs (R116, R117) -/

/-- TRIB's `process(buffer, params)`: LOADP, then one STEP per frame (R116, R253). -/
def processExpand (snapshot : Instr) (frames : List (List F)) : List Instr := snapshot :: frames.map Instr.step

/-- `repeat <k>: <command>` (R117). -/
def repeatExpand (k : Nat) (i : Instr) : List Instr := List.replicate k i

/-- A line that is not a frame line: what it expands to, and how many frame lines follow it (R116, R117).  That the counts
`n` of `process` and `k` of `repeat` are decimal digits only, and no `0x` numbers, is a DESIGN CHOICE (log entry 14). -/
def asmHead (cs : List Char) : Option (List Instr × Nat) :=
  let m := (asmMnemonic cs).1
  let rest := (asmMnemonic cs).2
  if m == ['p', 'r', 'o', 'c', 'e', 's', 's'] then
    match asmOperands rest with
    | n :: fields =>
      match asmNat n, asmSnapshot fields with
      | some n, some i => some ([i], n)
      | _, _ => none
    | [] => none
  else if m == ['r', 'e', 'p', 'e', 'a', 't'] then
    match asmCut ':' rest with
    | some (k, c) =>
      match asmNat (asmTrim k), asmCommand (asmTrim c) with
      | some k, some i => some (repeatExpand k i, 0)
      | _, _ => none
    | none => none
  else (asmCommand cs).map fun i => ([i], 0)

/-- How many samples a frame has. -/
def frameWidth : Instr → Nat
  | .step frame => frame.length
  | _ => 0

/-- The commands of a program's lines: `pending` frame lines of the last `process` are still to come, all of the width
of the ones before (R116). -/
def assembleFrom : Nat → Option Nat → List (List Char) → Option (List Instr)
  | pending, _, [] => if pending = 0 then some [] else none
  | pending, width, l :: ls =>
    if (asmLine l).isEmpty then assembleFrom pending width ls
    else if pending = 0 then
      match asmHead (asmLine l) with
      | none => none
      | some (is, n) => (assembleFrom n none ls).map (is ++ ·)
    else
      match asmFrame (asmOperands (asmLine l)) with
      | none => none
      | some i =>
        if width = none || width = some (frameWidth i) then
          (assembleFrom (pending - 1) (some (frameWidth i)) ls).map (i :: ·)
        else none

/-- The commands of a program (R115 to R117). -/
def assemble (lines : List (List Char)) : Option (List Instr) := assembleFrom 0 none lines

end Sys2Proof.Machine
end

