-- ==== Sys2Proof/Tests/Slice0.lean ====
section
/-! SUPPORT. The model's own tests.  Expected values are the vectors of `95_test_vectors.md` and words written out from
the encodings of `30_encoding.md`; values that pass through `sin`, `tan` or `exp2` are those of the default functions
(`referenceParams`).  The witnesses at the end show that every statement's hypotheses can be met. -/

namespace Sys2Proof.Tests

set_option Elab.async false

open Sys2Proof Sys2Proof.Machine Sys2Proof.Claims

/-! ### Small states -/

/-- 48000.0 -/
def hz48000 : F := 0x473B8000

/-- The state after `prepare 48000, 512` at power-on. -/
def prepared : State :=
  resetOp machineParams (setCfg State.reset { prepared := true, sampleRate := hz48000, maxBlockSize := 512 })

/-- A snapshot with everything on: program P4. -/
def fullSnapshot : ParamRegs F := snapshotOf true 0x41200000 0x40C00000 0x42480000 0x42480000 0x42C80000 0x42C80000

/-- A snapshot with every depth zero. -/
def drySnapshot (trig : Bool) : ParamRegs F := snapshotOf trig 0x41200000 0x40A00000 0 0 0 0

/-- A prepared block with a snapshot. -/
def ready (p : ParamRegs F) : State := setParams prepared p

/-- One word of a result, if the instruction answers a next state. -/
def look {α σ β : Type} (r : Gen.Result α σ) (f : Gen.State α σ → β) : Option β :=
  match r with
  | .next t => some (f t)
  | .fault _ => none
  | .refused _ => none

/-- Why an instruction was refused. -/
def why (r : Result) : Option Refusal :=
  match r with
  | .next _ => none
  | .fault _ => none
  | .refused q => some q

/-- An instruction under the default functions of R22. -/
def run (i : Instr) (s : State) : Result := execWith referenceParams i s

/-- Wires with the values of the shared phase. -/
def wiresOf (vmod effectiveRate lfo totalDelay : F) : Wires F :=
  { Wires.idle 0 with vmod := vmod, effectiveRate := effectiveRate, lfo := lfo, totalDelay := totalDelay }

/-- A text as the assembler takes it. -/
def lines (ls : List String) : List (List Char) := ls.map String.toList

/-! ### WellFormed -/

theorem test_wf_step_of_one : (Instr.step [0]).wellFormed = true := by decide
theorem test_wf_refuses_empty_frame : (Instr.step []).wellFormed = false := by decide
theorem test_wf_refuses_three_samples : (Instr.step [0, 0, 0]).wellFormed = false := by decide

/-! ### Decoding: words and bytes written out from the encodings -/

/-- V-CMD-1 as bytes, each word little-endian (R102, R109). -/
theorem test_decode_prepare :
    decode [0x00, 0x00, 0x00, 0x01, 0x00, 0x80, 0x3B, 0x47, 0x00, 0x02, 0x00, 0x00]
      = .command (.prepare 0x473B8000 512) [] := by decide

/-- V-CMD-8 (R103, R109), with a byte of the next command behind it. -/
theorem test_decode_reset : decode [0x00, 0x00, 0x00, 0x02, 0xAA] = .command .reset [0xAA] := by decide

/-- V-CMD-4: seven words, `triggered` in bit 0 (R104). -/
theorem test_decode_loadp :
    decode ([0x01, 0x00, 0x00, 0x03] ++ [0x00, 0x00, 0x20, 0x41] ++ [0x00, 0x00, 0xA0, 0x40] ++ [0, 0, 0, 0]
      ++ [0, 0, 0, 0] ++ [0, 0, 0, 0] ++ [0, 0, 0, 0])
      = .command (.loadp true 0x41200000 0x40A00000 0 0 0 0) [] := by decide

/-- V-CMD-5: the fields in the order onset, rate, pitch, amp, formant, var (R104). -/
theorem test_decode_loadp_order :
    decode (bytesOfWords [0x03000000, 0x43480000, 0x40C00000, 0x42480000, 0x42480001, 0x42C80000, 0x42C7FFFF])
      = .command (.loadp false 0x43480000 0x40C00000 0x42480000 0x42480001 0x42C80000 0x42C7FFFF) [] := by decide

/-- V-CMD-6 (R105). -/
theorem test_decode_step_mono :
    decode [0x01, 0x00, 0x00, 0x04, 0x00, 0x00, 0x80, 0x3E] = .command (.step [0x3E800000]) [] := by decide

/-- V-CMD-7 (R105). -/
theorem test_decode_step_stereo :
    decode [0x02, 0x00, 0x00, 0x04, 0x00, 0x00, 0x80, 0x3E, 0x00, 0x00, 0x00, 0xBF]
      = .command (.step [0x3E800000, 0xBF000000]) [] := by decide

/-- V-REF-1, V-REF-2, V-REF-3: reserved words (R110). -/
theorem test_reserved_words :
    [0x00000000, 0x05000000, 0xFF000000, 0x04000000, 0x04000003, 0x03000002, 0x02000001, 0x01000100].map headOf
      = [none, none, none, none, none, none, none, none] := by decide

/-- A command whose last byte has not arrived (R109). -/
theorem test_decode_incomplete : decode [0x01, 0x00, 0x00, 0x04, 0x00, 0x00, 0x80] = .incomplete := by decide

/-- The identifiers of R112, bit for bit `uuuuc`. -/
theorem test_decode_micro_env : decodeMicro 0b00000 = some .env := by decide
theorem test_decode_micro_var : decodeMicro 0b00010 = some .var := by decide
theorem test_decode_micro_lfo : decodeMicro 0b00100 = some .lfo := by decide
theorem test_decode_micro_dmod : decodeMicro 0b00110 = some .dmod := by decide
theorem test_decode_micro_fcoef : decodeMicro 0b01000 = some .fcoef := by decide
theorem test_decode_micro_dwr : decodeMicro 0b01010 = some (.dwr .lane0) ∧ decodeMicro 0b01011 = some (.dwr .lane1) := by
  decide
theorem test_decode_micro_drd : decodeMicro 0b01100 = some (.drd .lane0) ∧ decodeMicro 0b01101 = some (.drd .lane1) := by
  decide
theorem test_decode_micro_fmix :
    decodeMicro 0b01110 = some (.fmix .lane0) ∧ decodeMicro 0b01111 = some (.fmix .lane1) := by decide
theorem test_decode_micro_trem :
    decodeMicro 0b10000 = some (.trem .lane0) ∧ decodeMicro 0b10001 = some (.trem .lane1) := by decide
theorem test_decode_micro_wadv : decodeMicro 0b10010 = some .wadv := by decide

/-- A shared kind with `c = 1`, and `u` from 10 on, name nothing (R112). -/
theorem test_decode_micro_nothing :
    [0b00001, 0b01001, 0b10011, 0b10100, 0b11111].map decodeMicro = [none, none, none, none, none] := by decide

/-- V-CMD-1 and V-CMD-7 the other way round (R102, R105). -/
theorem test_encode_words :
    encodeWords (.prepare 0x473B8000 512) = some [0x01000000, 0x473B8000, 0x00000200]
    ∧ encodeWords (.step [0x3E800000, 0xBF000000]) = some [0x04000002, 0x3E800000, 0xBF000000] := by decide

/-! ### Assembler (R115 to R117) -/

/-- V-CMD-1, V-CMD-4, V-CMD-7 from their assembly text. -/
theorem test_assemble_commands :
    assemble (lines ["prepare 48000, 512 ; rate and block size",
      "LOADP trig=1, onset=10, rate=5, pitch=0, amp=0, formant=0, var=0", "step 0.25, -0.5", "reset"])
      = some [.prepare 0x473B8000 512, .loadp true 0x41200000 0x40A00000 0 0 0 0, .step [0x3E800000, 0xBF000000], .reset] := by
  decide +kernel

/-- `process` and `repeat` expand (R116, R117). -/
theorem test_assemble_pseudo :
    assemble (lines ["process 2, trig=0, onset=200, rate=6, pitch=50, amp=50, formant=100, var=1e2", "  0x3F800000",
      "  -0.5", "repeat 2: step 0"])
      = some [.loadp false 0x43480000 0x40C00000 0x42480000 0x42480000 0x42C80000 0x42C80000, .step [0x3F800000],
          .step [0xBF000000], .step [0], .step [0]] := by decide +kernel

/-! ### Literals and derived values -/

/-- Three literals of R7 that are not exact in binary32. -/
theorem test_literals : f32OfRat 15 1000 = 0x3C75C28F ∧ f32OfRat 2 1000 = 0x3B03126F ∧ f32OfRat 4 10 = 0x3ECCCCCD := by
  decide +kernel

/-- V-DER-1, V-DER-2, V-DER-4 (R47). -/
theorem test_attack_rates :
    attackRate machineParams.num 0x41200000 0x473B8000 = 0x3B088889
    ∧ attackRate machineParams.num 0x44FA0000 0x473B8000 = 0x372EC33E
    ∧ attackRate machineParams.num 0x41200000 0x45FA0000 = 0x3C4CCCCD := by decide +kernel

/-- V-DER-5, V-DER-6, V-DER-8 (R48, R49). -/
theorem test_release_and_period :
    releaseRate machineParams.num 0x473B8000 = 0x3AB60B61 ∧ releaseRate machineParams.num 0x472C4400 = 0x3AC624C4
    ∧ varPeriod machineParams.num 0x473B8000 = 1920 ∧ varPeriod machineParams.num 0x472C4400 = 1764
    ∧ varPeriod machineParams.num 0x45FA0000 = 320 := by decide +kernel

/-! ### ENV -/

/-- V-ENV-1: the first STEP of an attack. -/
theorem test_env_attack : look (exec .env (ready fullSnapshot)) Gen.State.envelope = some 0x3B088889 := by decide +kernel

/-- V-ENV-2: the attack lands on exactly 1 by the clamp. -/
theorem test_env_clamps :
    look (exec .env (setEnvelope (ready fullSnapshot) 0x3F7F77E0)) Gen.State.envelope = some 0x3F800000 := by decide +kernel

/-! ### VAR -/

/-- V-VAR-1, STEP 1: the immediate draw, the reload and the first glide. -/
theorem test_var_first_draw :
    look (exec .var (ready fullSnapshot)) (fun t => (t.variationCountdown, t.variationTarget, t.variationSmoothed, t.rngState))
      = some (1920, 0xBDABCD90, 0xB92FED1F, 0x75432777) := by decide +kernel

/-- V-VAR-2: while inactive only the smoothed value changes, to 0. -/
theorem test_var_inactive :
    look (exec .var (setSmoothed (setCountdown (ready (drySnapshot true)) 1919) 0xBDA2847C))
      (fun t => (t.variationCountdown, t.variationSmoothed, t.rngState)) = some (1919, 0, 0x12345678) := by decide +kernel

/-- V-RNG-1: the second and third draws. -/
theorem test_rng :
    machineParams.rng.next 0x75432777 = (0xCD305E6A, 0x3F1A60BC) ∧ machineParams.rng.next 0xCD305E6A = (0x25DBFAC1, 0xBF34480C) := by
  decide +kernel

/-- Other open parameters (R8): a source that counts, its state a number (R145), and a RESET that reseeds it (R149). -/
def countingParams : OpenParams F Nat where
  num := binary32 referenceFns
  rng := { seed := 7, next := fun n => (n + 1, 0x3F000000) }
  resetReseedsRng := true
  srMin := 0x45FA0000
  srMax := 0x48BB8000
  wrapTurns _ := 1

/-- The power-on seed, one draw, and the reseeding RESET, with those parameters. -/
theorem test_other_source :
    (powerOn countingParams).rngState = 7
    ∧ look (execWith countingParams .var (setParams (powerOn countingParams) fullSnapshot))
        (fun t => (t.rngState, t.variationTarget, (resetOp countingParams t).rngState)) = some (8, 0x3F000000, 7) := by
  decide +kernel

/-! ### LFO -/

/-- V-LFO-1, STEP 1. -/
theorem test_lfo_first :
    look (run .lfo (ready (drySnapshot true))) (fun t => (t.lfoPhase, t.wires.effectiveRate, t.wires.lfo))
      = some (0x38DA740E, 0x40A00000, 0x3A2B92A6) := by decide +kernel

/-- V-LFO-3: a wrap. -/
theorem test_lfo_wrap :
    look (run .lfo (setPhase (ready (drySnapshot true)) 0x3F7FFFFF)) (fun t => (t.lfoPhase, t.wires.lfo))
      = some (0x38DA4000, 0x3A2B69C3) := by decide +kernel

/-! ### DMOD -/

/-- V-DMOD-2: half-open envelope, negative wave. -/
theorem test_dmod :
    look (run .dmod (setWires (setEnvelope (ready (snapshotOf true 0x41200000 0x40A00000 0x42C80000 0 0 0)) 0x3F000000)
      (wiresOf 0 0x40A00000 0xBE800000 0))) (fun t => t.wires.totalDelay) = some 0x447D292D := by decide +kernel

/-- V-DMOD-5: the lower clamp. -/
theorem test_dmod_clamp :
    look (run .dmod (setWires (setEnvelope (ready (snapshotOf true 0x41200000 0x3F000000 0x43480000 0 0 0)) 0x3F800000)
      (wiresOf 0 0x3F000000 0xBF800000 0))) (fun t => t.wires.totalDelay) = some 0x40000000 := by decide +kernel

/-! ### DWR, DRD, WADV -/

/-- V-DWR-1, lane 1. -/
theorem test_dwr :
    look (exec (.dwr .lane1) (setWires (setWritePos prepared 7) { Wires.idle 0 with input := { l0 := 0, l1 := 0xBF800000 } }))
      (fun t => (memRead t .lane1 7, memRead t .lane0 7, memRead t .lane1 8)) = some (0xBF800000, 0, 0) := by decide +kernel

/-- Lane 0 holding 1, 2, 4, 8 at 974 to 977, `writePos` 2000. -/
def tapState (totalDelay : F) : State :=
  setWires (setWritePos (setDelay prepared
    { l0 := { fill := some 0, cells := [(974, 0x3F800000), (975, 0x40000000), (976, 0x40800000), (977, 0x41000000)] }
      l1 := .zeroed 0 }) 2000) (wiresOf 0 0 0 totalDelay)

/-- V-DRD-1: half-way between two taps, 2.8125. -/
theorem test_drd_half : look (exec (.drd .lane0) (tapState 0x44801000)) (fun t => t.wires.delayed.l0) = some 0x40340000 := by
  decide +kernel

/-- V-DRD-7: the read position rounds to 4096, and the mask turns it into word 0. -/
theorem test_drd_rounds_to_4096 :
    look (exec (.drd .lane1) (setWires (setWritePos (setDelay prepared
      { l0 := .zeroed 0, l1 := { fill := some 0, cells := [(0, 0x40400000), (1, 0x40A00000), (4095, 0x40000000)] } }) 1024)
      (wiresOf 0 0 0 0x44800001))) (fun t => t.wires.delayed.l1) = some 0x40400000 := by decide +kernel

/-- V-WADV-1. -/
theorem test_wadv :
    look (exec .wadv (setWritePos prepared 7)) Gen.State.writePos = some 8
    ∧ look (exec .wadv (setWritePos prepared 4095)) Gen.State.writePos = some 0 := by decide +kernel

/-! ### FCOEF -/

/-- V-FCOEF-1: filter 0 at 600 Hz in both lanes, and the reload to 32. -/
theorem test_fcoef_refresh :
    look (run .fcoef (ready (drySnapshot true))) (fun t => (t.filt.l1.f0.co, t.formantUpdateCounter))
      = some ({ a1 := 0x3F7AB030, a2 := 0x3D1D97D4, a3 := 0x3AC623A1 }, 32) := by decide +kernel

/-- V-FCOEF-3: the upper clamp of filter 2 at 8000 Hz, with `lfo = depth = 1`. -/
theorem test_fcoef_clamp :
    look (run .fcoef (setWires (setEnvelope (setCfg (ready fullSnapshot)
        { prepared := true, sampleRate := 0x45FA0000, maxBlockSize := 0 }) 0x3F800000) (wiresOf 0 0 0x3F800000 0)))
      (fun t => t.filt.l0.f2.co) = some { a1 := 0x3B7A8904, a2 := 0x3D78E24F, a3 := 0x3F773E64 } := by decide +kernel

/-! ### FMIX -/

/-- A lane-0 bank with the coefficients of V-FCOEF-1 and the given states of filter 0. -/
def bankState (envelope : F) : State :=
  setWires (setFilt (setEnvelope (ready fullSnapshot) envelope)
    { l0 :=
        { f0 := { s1 := 0, s2 := 0, co := { a1 := 0x3F7AB030, a2 := 0x3D1D97D4, a3 := 0x3AC623A1 } }
          f1 := { s1 := 0, s2 := 0, co := { a1 := 0x3F71BFF0, a2 := 0x3DBE7B71, a3 := 0x3C16163D } }
          f2 := { s1 := 0, s2 := 0, co := { a1 := 0x3F6325CE, a2 := 0x3E2865B8, a3 := 0x3CF9AF50 } } }
      l1 := .zero 0 })
    { Wires.idle 0 with delayed := { l0 := 0x3F800000, l1 := 0 } }

/-- V-SVF-1: the states of filter 0 after the first sample. -/
theorem test_fmix_states :
    look (exec (.fmix .lane0) (bankState 0x3F800000)) (fun t => (t.filt.l0.f0.s1, t.filt.l0.f0.s2))
      = some (0x3D9D97D4, 0x3B4623A1) := by decide +kernel

/-- V-FMIX-2: at an envelope of exactly 0.001 the gate is closed, one pattern above it is open. -/
theorem test_fmix_gate :
    look (exec (.fmix .lane0) (bankState 0x3A83126F)) (fun t => (t.wires.processed.l0, t.filt.l0.f0.s1)) = some (0x3F800000, 0)
    ∧ look (exec (.fmix .lane0) (bankState 0x3A831270)) (fun t => t.filt.l0.f0.s1) = some 0x3D9D97D4 := by decide +kernel

/-! ### TREM -/

/-- V-TREM-1 and V-TREM-5. -/
theorem test_trem :
    look (exec (.trem .lane0) (setWires (setEnvelope (ready (snapshotOf true 0x41200000 0x40A00000 0 0x42480000 0 0)) 0x3F800000)
      { Wires.idle 0 with processed := { l0 := 0x3F4CCCCD, l1 := 0 } })) (fun t => t.wires.out.l0) = some 0x3F19999A
    ∧ look (exec (.trem .lane1) (setWires (setEnvelope (ready (snapshotOf true 0x41200000 0x40A00000 0 0x41F00000 0 0)) 0x3F000000)
      { Wires.idle 0 with lfo := 0xBF000000, processed := { l0 := 0, l1 := 0xBECCCCCD } })) (fun t => t.wires.out.l1)
      = some 0xBEB5C28F := by decide +kernel

/-! ### PREPARE, RESET, LOADP, STEP -/

/-- V-CMD-1: READY, and the EngineState zero. -/
theorem test_prepare :
    look (exec (.prepare 0x473B8000 512) State.reset) (fun t => (t.cfg.prepared, t.cfg.sampleRate, memRead t .lane1 99))
      = some (true, 0x473B8000, 0) := by decide +kernel

/-- V-REF-6: 1000 Hz, and a NaN. -/
theorem test_prepare_refuses :
    why (exec (.prepare 0x447A0000 512) State.reset) = some .badSampleRate
    ∧ why (exec (.prepare 0x7FC00000 512) State.reset) = some .badSampleRate := by decide +kernel

/-- V-CMD-3: RESET zeroes the EngineState and leaves `cfg`, `P` and the generator. -/
theorem test_reset :
    look (exec .reset (setRng (setEnvelope (tapState 0) 0x3F800000) 0x75432777))
      (fun t => (t.envelope, t.writePos, memRead t .lane0 975, t.cfg.prepared, t.rngState)) = some (0, 0, 0, true, 0x75432777) := by
  decide +kernel

/-- V-CMD-4: `P.valid` becomes true. -/
theorem test_loadp :
    look (exec (.loadp true 0x41200000 0x40A00000 0 0 0 0) State.reset) (fun t => (t.P.valid, t.P.triggered, t.P.rateHz))
      = some (true, true, 0x40A00000) := by decide +kernel

/-- V-REF-7: `onset=5`, `pitch=-1`, and an infinite operand. -/
theorem test_loadp_refuses :
    why (exec (.loadp true 0x40A00000 0x40A00000 0 0 0 0) State.reset) = some .badParameter
    ∧ why (exec (.loadp true 0x41200000 0x40A00000 0xBF800000 0 0 0) State.reset) = some .badParameter
    ∧ why (exec (.loadp true 0x41200000 0x40A00000 0 0 0 0x7F800000) State.reset) = some .badParameter := by decide +kernel

/-- V-REF-4, V-REF-5, V-REF-8 (R290, R283). -/
theorem test_step_refuses :
    why (exec (.step [0]) State.reset) = some .notPrepared ∧ why (exec (.step [0]) prepared) = some .noSnapshot
    ∧ why (exec (.step [0xFF800000]) (ready (drySnapshot true))) = some .badSample := by decide +kernel

/-- R248's worked example: two lanes, all depths 0. -/
theorem test_step :
    look (run (.step [0x3E800000, 0xBF000000]) (ready (drySnapshot false)))
      (fun t => (t.response, memRead t .lane0 0, memRead t .lane1 0, t.writePos, t.lfoPhase, t.formantUpdateCounter))
      = some ([0, 0], 0x3E800000, 0xBF000000, 1, 0x38DA740E, 32) := by decide +kernel

/-! ### The step of the machine -/

/-- RESET from its four bytes; and a reserved word (R286, V-REF-1). -/
theorem test_step_runs_bytes :
    look (step (State.withFetchWord prepared 32 0x02000000)) Gen.State.writePos = some 0
    ∧ why (step (State.withFetchWord State.reset 32 0x05000000)) = some .reservedCommand := by decide +kernel

/-! ### Witnesses: every statement's hypotheses can be met

One theorem per statement with hypotheses; where a statement has several clauses, one state per clause, at a boundary of
its range. -/

/-- An instruction that answers a next state answers some next state. -/
theorem next_of_look {r : Result} (h : look r (fun _ => ()) = some ()) : ∃ t, r = .next t := by
  cases r with
  | next t => exact ⟨t, rfl⟩
  | fault _ => cases h
  | refused _ => cases h

/-- A READY block with everything on and the envelope open. -/
def busy : State := setEnvelope (ready fullSnapshot) 0x3F800000

/-- A READY block with every depth zero. -/
def dry : State := ready (drySnapshot true)

theorem dry_reads (c : Lane) (j : Int) : memRead dry c j = 0 := by cases c <;> rfl

theorem busy_rangeInv : rangeInv busy := by
  unfold rangeInv engineRanges
  decide +kernel

theorem dry_rangeInv : rangeInv dry := by
  unfold rangeInv engineRanges
  decide +kernel

theorem dry_formInv : formInv dry := by
  unfold formInv lanesAgree
  decide +kernel

theorem witness_ReservedWordsExactly :
    (State.withFetchWord State.reset 32 0x04000003).slots = []
    ∧ (State.withFetchWord State.reset 32 0x04000003).hostIn = bytesOfWord 0x04000003 ++ List.replicate 24 0
    ∧ (0x04000003 : Word) ∉ pLegalWords := by decide +kernel

theorem witness_CommandRoundTrip :
    ((Instr.prepare 0 0).wellFormed = true ∧ (Instr.prepare 0 0).isCommand = true)
    ∧ ((Instr.step [0]).wellFormed = true ∧ (Instr.step [0]).isCommand = true)
    ∧ ((Instr.step [0, 0]).wellFormed = true ∧ (Instr.step [0, 0]).isCommand = true) := by decide

theorem witness_DecodedBytesAreTheEncoding : decode [0x00, 0x00, 0x00, 0x02] = .command .reset [] := by decide

theorem witness_CommandWordGivesLength :
    (0x02000000 ∈ pLegalWords ∧ pLength 0x02000000 = some 1 ∧ ([] : List Word).length + 1 = 1)
    ∧ (0x04000002 ∈ pLegalWords ∧ pLength 0x04000002 = some 3 ∧ (List.replicate 7 (0 : Byte)).length + 4 < 4 * 3) := by
  decide

theorem witness_StepRunsNextInstruction :
    (dry.slots = [] ∧ decode (setHostIn dry [0, 0, 0, 2]).hostIn = .command .reset [] ∧ Instr.reset.wellFormed = true)
    ∧ decode (setHostIn dry [0, 0, 0]).hostIn = .incomplete
    ∧ decode (setHostIn dry [3, 0, 0, 4]).hostIn = .reserved 0x04000003
    ∧ ((setSlots dry [0b10010]).slots = [0b10010] ∧ decodeMicro 0b10010 = some .wadv)
    ∧ ((setSlots dry [0b10011]).slots = [0b10011] ∧ decodeMicro 0b10011 = none) := by decide +kernel

theorem witness_PrepareResult :
    (f32Finite 0x45FA0000 = true ∧ M.le (K .srMin) 0x45FA0000 = true ∧ M.le 0x45FA0000 (K .srMax) = true)
    ∧ (f32Finite 0x48BB8000 = true ∧ M.le (K .srMin) 0x48BB8000 = true ∧ M.le 0x48BB8000 (K .srMax) = true)
    ∧ ¬ (f32Finite 0x45F9FFFF = true ∧ M.le (K .srMin) 0x45F9FFFF = true ∧ M.le 0x45F9FFFF (K .srMax) = true)
    ∧ ¬ (f32Finite 0x48BB8001 = true ∧ M.le (K .srMin) 0x48BB8001 = true ∧ M.le 0x48BB8001 (K .srMax) = true) := by
  decide +kernel

theorem witness_ResetResult : ∃ t, exec .reset busy = .next t := next_of_look (by decide +kernel)

theorem witness_LoadpResult :
    legalSnapshot (snapshotOf true 0x41200000 0x3F000000 0x80000000 0 0 0) = true
    ∧ legalSnapshot (snapshotOf false 0x44FA0000 0x41700000 0x43480000 0x42C80000 0x42C80000 0x42C80000) = true
    ∧ legalSnapshot (snapshotOf true 0x411FFFFF 0x3F000000 0 0 0 0) = false
    ∧ legalSnapshot (snapshotOf true 0x41200000 0x41700001 0 0 0 0) = false := by decide +kernel

theorem witness_StepRefusals :
    (([] : List F).length ≠ 1 ∧ ([] : List F).length ≠ 2)
    ∧ ([(0 : F)].length = 1 ∧ State.reset.cfg.prepared = false)
    ∧ (prepared.cfg.prepared = true ∧ prepared.P.valid = false)
    ∧ (dry.cfg.prepared = true ∧ dry.P.valid = true ∧ ∃ x ∈ [(0x7F800000 : F)], f32Finite x = false) :=
  ⟨by decide, ⟨rfl, rfl⟩, ⟨rfl, rfl⟩, rfl, rfl, 0x7F800000, List.mem_singleton.mpr rfl, by decide⟩

theorem busy_ready : pReady busy := by unfold pReady; decide +kernel
theorem dry_ready : pReady dry := by unfold pReady; decide +kernel

theorem frame_ok : pFrameOk [0x7F7FFFFF] ∧ pFrameOk [0x3F800000, 0xFF7FFFFF] := by
  refine ⟨⟨.inl rfl, ?_⟩, .inr rfl, ?_⟩
  · simp only [List.mem_singleton, forall_eq]
    decide
  · simp only [List.mem_cons, List.not_mem_nil, or_false, forall_eq_or_imp, forall_eq]
    decide

theorem witness_StepCompletes : rangeInv busy ∧ pReady busy ∧ pFrameOk [0x3F800000, 0xFF7FFFFF] :=
  ⟨busy_rangeInv, busy_ready, frame_ok.2⟩

theorem witness_StepRunsSchedule : pReady busy ∧ f32Finite 0x7F7FFFFF = true := ⟨busy_ready, by decide⟩

theorem busy_steps_mono : ∃ t, exec (.step [0x7F7FFFFF]) busy = .next t := next_of_look (by decide +kernel)

theorem busy_steps_stereo : ∃ t, exec (.step [0x3F800000, 0xBF000000]) busy = .next t := next_of_look (by decide +kernel)

theorem dry_steps : ∃ t, exec (.step [0x3F800000, 0x3F800000]) dry = .next t := next_of_look (by decide +kernel)

theorem witness_StepFrame : memoryWf busy.delayBuffer = true
    ∧ (∃ t, exec (.step [0x3F800000, 0xBF000000]) busy = .next t)
    ∧ pActive [0x3F800000, 0xBF000000] .lane1 ∧ maskIndex 4096 = busy.writePos.toNat
    ∧ M.lt (K .zero) dry.P.variationPct = false :=
  ⟨rfl, busy_steps_stereo, by unfold pActive; decide, by decide +kernel, by decide +kernel⟩

theorem witness_IdleLaneHolds : ∃ t, exec (.step [0x7F7FFFFF]) busy = .next t := busy_steps_mono

theorem witness_LanesNeverReachEachOther :
    (∃ t, exec (.step [0x3F800000, 0xBF000000]) busy = .next t)
    ∧ (∃ u, exec (.step [0x3F800000, 0x3F800000])
        { busy with delayBuffer := { busy.delayBuffer with l1 := .powerOn }, filt := { busy.filt with l1 := .zero 0 } }
          = .next u)
    ∧ ∃ u, exec (.step [0x3F800000, 0xBF000000])
        { busy with delayBuffer := { busy.delayBuffer with l0 := .powerOn }, filt := { busy.filt with l0 := .zero 0 } }
          = .next u :=
  ⟨busy_steps_stereo, next_of_look (by decide +kernel), next_of_look (by decide +kernel)⟩

theorem witness_EqualLanesStayEqual :
    dry.delayBuffer.l0 = dry.delayBuffer.l1 ∧ dry.delayBuffer.l0.cleared = true ∧ dry.filt.l0 = dry.filt.l1
    ∧ ∃ t, exec (.step [0x3F800000, 0x3F800000]) dry = .next t := ⟨rfl, rfl, rfl, dry_steps⟩

theorem witness_BlockBoundariesInvisible : busy.P.valid = true ∧ legalSnapshot busy.P = true := by decide +kernel

theorem witness_EnvIsTargetForm :
    (legalRate busy.cfg.sampleRate = true ∧ legalSnapshot busy.P = true ∧ unitRange busy.envelope = true
      ∧ ∃ t, exec .env busy = .next t)
    ∧ (legalRate (ready (drySnapshot false)).cfg.sampleRate = true ∧ legalSnapshot (ready (drySnapshot false)).P = true
      ∧ unitRange (ready (drySnapshot false)).envelope = true ∧ ∃ t, exec .env (ready (drySnapshot false)) = .next t) :=
  ⟨⟨by decide +kernel, by decide +kernel, by decide +kernel, next_of_look (by decide +kernel)⟩,
    by decide +kernel, by decide +kernel, by decide +kernel, next_of_look (by decide +kernel)⟩

theorem witness_EnvKeepsRange :
    legalRate busy.cfg.sampleRate = true ∧ legalSnapshot busy.P = true ∧ unitRange busy.envelope = true
    ∧ busy.P.triggered = true ∧ (ready (drySnapshot false)).P.triggered = false := by decide +kernel

theorem witness_VarResult :
    M.lt (K .zero) dry.P.variationPct = false
    ∧ (M.lt (K .zero) busy.P.variationPct = true ∧ 0 < ((setCountdown busy 2).variationCountdown - 1).toInt)
    ∧ (M.lt (K .zero) busy.P.variationPct = true ∧ ((setCountdown busy 1).variationCountdown - 1).toInt ≤ 0) := by
  decide +kernel

theorem witness_VarKeepsRange :
    (signedUnit 0x3F800000 = true ∧ signedUnit 0xBF800000 = true)
    ∧ machineParams.num = M ∧ machineParams.rng.Lawful M := ⟨by decide, rfl, machineParams_lawful.draws⟩

theorem witness_LfoResult :
    M.le (K .one) (iter (pTurn M) 0 (pAdvance M busy)) = false
    ∧ (M.le (K .one) (iter (pTurn M) 0 (pAdvance M (setPhase busy 0x3F7FFFFF))) = true
      ∧ M.le (K .one) (iter (pTurn M) 1 (pAdvance M (setPhase busy 0x3F7FFFFF))) = false) := by decide +kernel

theorem witness_LfoEndlessWrapFaults : pAdvance M (setPhase busy 0x7F800000) = f32PosInf := by decide +kernel

theorem witness_LfoKeepsRange :
    legalRate busy.cfg.sampleRate = true ∧ legalSnapshot busy.P = true ∧ phaseRange 0x3F7FFFFF = true
    ∧ signedUnit 0x3F800000 = true := by decide +kernel

theorem witness_DmodGateClosed : pZero dry.P.pitchCents ∧ pZero 0x80000000 := by unfold pZero; decide +kernel

theorem witness_DmodKeepsRange :
    legalRate busy.cfg.sampleRate = true ∧ legalSnapshot busy.P = true ∧ unitRange busy.envelope = true
    ∧ signedUnit 0xBF800000 = true ∧ within 0x3EC00000 0x41960000 0x3EC00000 = true
    ∧ within 0x3EC00000 0x41960000 0x41960000 = true := by decide +kernel

theorem witness_DwrResult : memoryWf (tapState 0).delayBuffer = true := by decide

theorem witness_ZeroFractionReturnsTap :
    (pTame 0x71800000 ∧ pTame 0xF1800000 ∧ pTame 0x80000000 ∧ pZero 0 ∧ pZero 0x80000000)
    ∧ (∀ (c : Lane) (j : Int), pTame (memRead dry c j))
    ∧ pZero (M.sub (pReadPos M dry) (M.ofInt (pIndex M dry))) := by
  refine ⟨by unfold pTame pZero; decide, fun c j => ?_, by unfold pZero; decide +kernel⟩
  rw [dry_reads]; unfold pTame; decide

theorem witness_DryReadIsTheOldSample :
    ∃ s : State, s.wires.totalDelay = K .baseDelay ∧ ∀ j : Int, pTame (memRead s .lane0 j) :=
  ⟨setWires dry (wiresOf 0 0 0 0x44800000), rfl, fun j => by
    have h : memRead (setWires dry (wiresOf 0 0 0 0x44800000)) .lane0 j = 0 := rfl
    rw [h]; unfold pTame; decide⟩

theorem witness_FcoefResult :
    0 < ((setRefresh busy 2).formantUpdateCounter - 1).toInt ∧ ((setRefresh busy 1).formantUpdateCounter - 1).toInt ≤ 0 := by
  decide

theorem witness_RefreshEvery32Steps :
    busy.formantUpdateCounter = 0
    ∧ (∀ i ∈ [Instr.step [0x3F800000]], isStep i = true ∨ isLoadp i = true)
    ∧ (∃ t, execAll [.step [0x3F800000]] busy = .next t) ∧ 1 ≤ [Instr.step [0x3F800000]].countP isStep :=
  ⟨by decide +kernel, by decide, next_of_look (by decide +kernel), by decide⟩

theorem witness_FmixResult : pFormantActive M (bankState 0x3A831270) ∧ ¬ pFormantActive M (bankState 0x3A83126F) := by
  unfold pFormantActive; decide +kernel

theorem witness_TremGainRange :
    legalSnapshot dry.P = true ∧ unitRange 0x3F800000 = true ∧ signedUnit 0xBF800000 = true ∧ pZero dry.P.amplitudePct := by
  unfold pZero; decide +kernel

theorem witness_DryPathIsPureDelay :
    rangeInv dry ∧ pReady dry ∧ pFrameOk [0x7F7FFFFF] ∧ pZero dry.P.pitchCents ∧ pZero dry.P.formantPct
    ∧ pZero dry.P.amplitudePct ∧ ∀ (c : Lane) (j : Int), pTame (memRead dry c j) :=
  ⟨dry_rangeInv, dry_ready, frame_ok.1, by unfold pZero; decide +kernel, by unfold pZero; decide +kernel,
    by unfold pZero; decide +kernel, fun c j => by rw [dry_reads]; unfold pTame; decide⟩

theorem witness_CircularHistory :
    memoryWf busy.delayBuffer = true ∧ (∀ fr ∈ [[(0x3F800000 : F)]], pActive fr .lane0)
    ∧ (∃ t, execAll ([[(0x3F800000 : F)]].map Instr.step) busy = .next t)
    ∧ [[(0x3F800000 : F)]].reverse[0]? = some [0x3F800000] :=
  ⟨rfl, by unfold pActive; decide, next_of_look (by decide +kernel), rfl⟩

/-- A legal block with a RESET on its host port. -/
def resetting : State := setHostIn dry [0x00, 0x00, 0x00, 0x02]

theorem resetting_steps : ∃ t, step resetting = .next t := next_of_look (by decide +kernel)

theorem witness_FormInvariantKept : formInv resetting ∧ ∃ t, step resetting = .next t := ⟨dry_formInv, resetting_steps⟩

theorem witness_RangeInvariantKept : rangeInv resetting ∧ ∃ t, step resetting = .next t := ⟨dry_rangeInv, resetting_steps⟩

theorem witness_NoStepFaults : rangeInv resetting := dry_rangeInv

theorem witness_ReadinessIsNeverLost :
    (∃ t, step resetting = .next t) ∧ resetting.cfg.prepared = true ∧ resetting.P.valid = true :=
  ⟨resetting_steps, rfl, rfl⟩

theorem witness_NoStepBeforePrepareAndLoadp :
    ∃ s t, execAll [.loadp true 0x41200000 0x40A00000 0 0 0 0, .prepare 0x473B8000 512] State.reset = .next s
      ∧ exec (.step [0x3F800000, 0x3F800000]) s = .next t := by
  refine ⟨dry, ?_⟩
  obtain ⟨t, ht⟩ := dry_steps
  exact ⟨t, rfl, ht⟩

theorem witness_OneWriterOfCfgAndOfP : ∃ t, exec (.step [0x7F7FFFFF]) busy = .next t := busy_steps_mono

theorem witness_FewWritersOfMemoryAndGenerator : ∃ t, exec .lfo busy = .next t := next_of_look (by decide +kernel)

theorem witness_MaxBlockSizeIsIgnored : isPrepare (.step [0]) = false := by decide

theorem witness_RefusalsAreTheClosedList :
    (Instr.step [0]).wellFormed = true ∧ why (exec (.step [0]) State.reset) = some .notPrepared
    ∧ why (exec (.prepare 0 0) State.reset) = some .badSampleRate
    ∧ why (exec (.loadp false 0 0 0 0 0 0) State.reset) = some .badParameter := by decide +kernel

theorem witness_LiteralsAreNearest : Lit.decimal .varCoef = some (2, 1000) := by decide

theorem witness_RealRampsAreLinear : (0 : ℝ) < 1 / 480 ∧ (0 : ℝ) < 1 / 720 := by norm_num

theorem witness_RealPhaseIsFractional : (0 : ℝ) ≤ 1 / 2 ∧ (1 / 2 : ℝ) < 1 ∧ (0 : ℝ) ≤ 3 / 4 ∧ (3 / 4 : ℝ) < 1 := by
  norm_num

end Sys2Proof.Tests
end

section
/-! PROOFS. The scope rules: the machine is the one over open parameters at the chosen parameters (R8), and its decimal
literals are the nearest values (R7, R19). -/

namespace Sys2Proof.Claims

open Sys2Proof Sys2Proof.Machine

/-! ### The machine and the machine over open parameters (R8) -/

/-- Each arm of `exec` is the operation of `execWith` at the machine's parameters. -/
theorem exec_eq_execWith (i : Instr) (s : State) : exec i s = execWith machineParams i s := by
  cases i with
  | prepare sr mbs => exact exec_prepare s sr mbs
  | reset => exact exec_reset s
  | loadp t w1 w2 w3 w4 w5 w6 => exact exec_loadp s t w1 w2 w3 w4 w5 w6
  | step frame => exact exec_step s frame
  | env => exact exec_env s
  | var => exact exec_var s
  | lfo => exact exec_lfo s
  | dmod => exact exec_dmod s
  | fcoef => exact exec_fcoef s
  | dwr c => exact exec_dwr s c
  | drd c => exact exec_drd s c
  | fmix c => exact exec_fmix s c
  | trem c => exact exec_trem s c
  | wadv => exact exec_wadv s

/-- The two machines choose the next instruction alike, so they differ at most in what `exec` does with it. -/
theorem step_eq_stepWith (s : State) : step s = stepWith machineParams s := by
  unfold step runNext stepWith
  cases s.slots with
  | nil =>
    dsimp only [runHost]
    cases decode s.hostIn with
    | command i rest => exact exec_eq_execWith i (setHostIn s rest)
    | incomplete => rfl
    | reserved cw => rfl
  | cons id rest =>
    dsimp only [runSlot]
    cases decodeMicro id with
    | some i => exact exec_eq_execWith i (setSlots s rest)
    | none => rfl

/-- Settles O60: `exec` agrees arm by arm, `step` by the choice of the instruction, and `State.reset` is defined so. -/
theorem machineIsOverOpenParams : Obligations.MachineIsOverOpenParams :=
  ⟨exec_eq_execWith, step_eq_stepWith, rfl⟩

/-! ### Literals (R7, R19) -/

/-- The table of R7 against R19, row by row: π and 2π have no decimal, and every other pattern is the rounding of its
decimal, evaluated by the kernel. -/
theorem f32Lit_eq_f32OfRat {l : Lit} {p : Int} {q : Nat} (h : l.decimal = some (p, q)) :
    f32Lit l = f32OfRat p q := by
  cases l
  case pi | twoPi => nomatch h
  all_goals
    cases h
    decide +kernel

/-- Settles O55: the machine's literals are the binary32 patterns, and each of those is the rounding of its decimal. -/
theorem literalsAreNearest : Obligations.LiteralsAreNearest := by
  intro l p q h
  rw [M, machineParams_num, binary32_lit]
  exact f32Lit_eq_f32OfRat h

end Sys2Proof.Claims
end

section
/-! PROOFS. The rules of the state: the values at power-on (R56, R311), who writes `cfg`, `P`, the delay memory and the
generator (R41, R42, R51, R52), and that nothing reads `cfg.maxBlockSize` (R42). -/

namespace Sys2Proof.Claims

open Sys2Proof Sys2Proof.Machine

/-! ### Power-on (R56, R311) -/

/-- Settles O54: `powerOn` sets the three values over any open parameters, and the machine's seed is `rngSeed`. -/
theorem powerOnValues : Obligations.PowerOnValues :=
  ⟨fun _ _ _ => ⟨rfl, rfl, rfl⟩, rfl, rfl, rfl⟩

/-- Settles O44: the wires idle at the machine's zero, the empty memory is canonical, both lanes hold the zero triple, and
the block is not READY. -/
theorem formInvariantAtPowerOn : Obligations.FormInvariantAtPowerOn :=
  ⟨rfl, congrArg Wires.idle machine_zero, memoryWf_reset, ⟨rfl, rfl, rfl⟩, nofun⟩

/-- Settles O46: the block is not prepared and holds no snapshot, so neither range is claimed yet. -/
theorem rangeInvariantAtPowerOn : Obligations.RangeInvariantAtPowerOn :=
  ⟨rfl, nofun, nofun⟩

/-! ### The writers of `cfg`, `P`, the delay memory and the generator -/

section writers
variable {i : Instr} {s t : State}

/-- LFO is the one micro-operation that can stop; where it goes on it stores no more than the phase and the wires. -/
theorem exec_micro_frame (h : exec i s = .next t) (hm : i.isCommand = false) :
    t.cfg = s.cfg ∧ t.P = s.P ∧ ((∀ c, i ≠ .dwr c) → t.delayBuffer = s.delayBuffer)
    ∧ (i ≠ .var → t.rngState = s.rngState) := by
  cases i with
  | prepare | reset | loadp | step => nomatch hm
  | lfo =>
    rw [exec_lfo, lfoOp_next] at h
    obtain ⟨p, -, rfl⟩ := h
    simp
  | dwr c =>
    rw [exec_dwr] at h
    cases h
    exact ⟨rfl, rfl, fun hne => absurd rfl (hne c), fun _ => rfl⟩
  | var =>
    rw [exec_var] at h
    cases h
    simp
  | env | dmod | fcoef | drd | fmix | trem | wadv =>
    simp only [exec_env, exec_dmod, exec_fcoef, exec_drd, exec_fmix, exec_trem, exec_wadv,
      Host.Outcome.next.injEq] at h
    subst h
    simp

theorem exec_keeps_cfg (h : exec i s = .next t) (hi : isPrepare i = false) : t.cfg = s.cfg := by
  cases i with
  | prepare => nomatch hi
  | reset =>
    rw [exec_reset] at h
    cases h
    rfl
  | loadp =>
    rw [exec_loadp, loadpOp_next] at h
    obtain ⟨-, rfl⟩ := h
    rfl
  | step frame =>
    rw [exec_step, stepOp_next] at h
    obtain ⟨_, _, -, -, -, -, -, rfl⟩ := h
    simp
  | _ => exact (exec_micro_frame h rfl).1

theorem exec_keeps_P (h : exec i s = .next t) (hi : isLoadp i = false) : t.P = s.P := by
  cases i with
  | prepare =>
    rw [exec_prepare, prepareOp_next] at h
    obtain ⟨-, rfl⟩ := h
    rfl
  | reset =>
    rw [exec_reset] at h
    cases h
    rfl
  | loadp => nomatch hi
  | step frame =>
    rw [exec_step, stepOp_next] at h
    obtain ⟨_, _, -, -, -, -, -, rfl⟩ := h
    simp
  | _ => exact (exec_micro_frame h rfl).2.1

theorem exec_keeps_delayBuffer (h : exec i s = .next t) (hdwr : ∀ c, i ≠ .dwr c) (hreset : i ≠ .reset)
    (hstep : isStep i = false) (hprepare : isPrepare i = false) : t.delayBuffer = s.delayBuffer := by
  cases i with
  | prepare => nomatch hprepare
  | reset => exact absurd rfl hreset
  | loadp =>
    rw [exec_loadp, loadpOp_next] at h
    obtain ⟨-, rfl⟩ := h
    rfl
  | step => nomatch hstep
  | _ => exact (exec_micro_frame h rfl).2.2.1 hdwr

/-- RESET, and PREPARE which ends in one, leave the generator because the machine's RESET_RESEEDS_RNG is false. -/
theorem exec_keeps_rngState (h : exec i s = .next t) (hvar : i ≠ .var) (hstep : isStep i = false) :
    t.rngState = s.rngState := by
  cases i with
  | prepare =>
    rw [exec_prepare, prepareOp_next] at h
    obtain ⟨-, rfl⟩ := h
    exact resetOp_machine_rngState _
  | reset =>
    rw [exec_reset] at h
    cases h
    exact resetOp_machine_rngState s
  | loadp =>
    rw [exec_loadp, loadpOp_next] at h
    obtain ⟨-, rfl⟩ := h
    rfl
  | step => nomatch hstep
  | _ => exact (exec_micro_frame h rfl).2.2.2 hvar

end writers

/-- Settles O50: no arm of `exec` but PREPARE's sets `cfg`, and none but LOADP's sets `P`. -/
theorem oneWriterOfCfgAndOfP : Obligations.OneWriterOfCfgAndOfP :=
  fun _ _ _ h => ⟨exec_keeps_cfg h, exec_keeps_P h⟩

/-- Settles O51: every arm but those named keeps the memory and the generator, RESET and PREPARE the latter by the model's
choice of RESET_RESEEDS_RNG (log entry 4). -/
theorem fewWritersOfMemoryAndGenerator : Obligations.FewWritersOfMemoryAndGenerator :=
  fun _ _ _ h => ⟨exec_keeps_delayBuffer h, exec_keeps_rngState h⟩

/-! ### Nothing reads `cfg.maxBlockSize` (R42)

Replacing `maxBlockSize` commutes with every total operation; with one that can stop it commutes up to the outcome. -/

section blockSize
variable {α σ : Type}

/-- The state with `cfg.maxBlockSize` replaced. -/
def withBlockSize (m : Word) (s : Gen.State α σ) : Gen.State α σ := setCfg s { s.cfg with maxBlockSize := m }

/-- Replacing `maxBlockSize` before the operation gives its outcome with `maxBlockSize` replaced after it. -/
def IgnoresBlockSize (m : Word) (op : Gen.State α σ → Gen.Result α σ) : Prop :=
  ∀ s, op (withBlockSize m s) = andThen (op s) fun t => .next (withBlockSize m t)

variable {m : Word}

theorem ignoresBlockSize_next {f : Gen.State α σ → Gen.State α σ} (h : Function.Commute f (withBlockSize m)) :
    IgnoresBlockSize m fun s => .next (f s) :=
  fun s => congrArg Host.Outcome.next (h s)

theorem ignoresBlockSize_comp {op : Gen.State α σ → Gen.Result α σ} {f : Gen.State α σ → Gen.State α σ}
    (hop : IgnoresBlockSize m op) (hf : Function.Commute f (withBlockSize m)) : IgnoresBlockSize m fun s => op (f s) :=
  fun s => (congrArg op (hf s)).trans (hop (f s))

theorem ignoresBlockSize_andThen {op k : Gen.State α σ → Gen.Result α σ} (hop : IgnoresBlockSize m op)
    (hk : IgnoresBlockSize m k) : IgnoresBlockSize m fun s => andThen (op s) k := by
  intro s
  dsimp only
  rw [hop s]
  cases op s with
  | next t => exact hk t
  | fault | refused => rfl

variable (O : OpenParams α σ) (c : Lane)

/-! The total operations: where one branches, it does so on a value that `cfg` has no part in. -/

theorem envOp_withBlockSize : Function.Commute (envOp O) (withBlockSize m) := fun _ => rfl

theorem varCount_withBlockSize : Function.Commute (varCount O) (withBlockSize m) := by
  intro s
  exact (apply_ite (withBlockSize m) (countExpired (countDown s.variationCountdown) = true) (varDraw O s)
    (setCountdown s (countDown s.variationCountdown))).symm

theorem varOp_withBlockSize : Function.Commute (varOp O) (withBlockSize m) := by
  intro s
  have hglide : varGlide O (varCount O (withBlockSize m s)) = withBlockSize m (varGlide O (varCount O s)) :=
    congrArg (varGlide O) (varCount_withBlockSize O s)
  refine Eq.trans ?_ (apply_ite (withBlockSize m) (variationActive O.num s.P.variationPct = true)
    (varGlide O (varCount O s)) (setSmoothed s (O.num.lit .zero))).symm
  exact ite_congr rfl (fun _ => hglide) fun _ => rfl

theorem dmodOp_withBlockSize : Function.Commute (dmodOp O) (withBlockSize m) := fun _ => rfl

theorem fcoefOp_withBlockSize : Function.Commute (fcoefOp O) (withBlockSize m) := by
  intro s
  exact (apply_ite (withBlockSize m) (countExpired (countDown s.formantUpdateCounter) = true)
    (setRefresh (setFilt s (refreshBanks O s)) (storeInt fcoefPeriod))
    (setRefresh s (countDown s.formantUpdateCounter))).symm

theorem fmixOp_withBlockSize : Function.Commute (fmixOp O c) (withBlockSize m) := by
  intro s
  exact (apply_ite (withBlockSize m) (formantActive O.num s.P.formantPct s.envelope = true) (fmixRun O c s)
    (setWires s (wireProcessed s.wires c (s.wires.delayed.get c)))).symm

theorem tremOp_withBlockSize : Function.Commute (tremOp O c) (withBlockSize m) := fun _ => rfl

theorem wadvOp_withBlockSize : Function.Commute (wadvOp (α := α) (σ := σ)) (withBlockSize m) := fun _ => rfl

theorem resetOp_withBlockSize : Function.Commute (resetOp O) (withBlockSize m) := fun _ => rfl

theorem finishStep_withBlockSize (z : α) (lanes : List Lane) :
    Function.Commute (finishStep (σ := σ) z lanes) (withBlockSize m) := fun _ => rfl

/-! The operations that can stop decide it without `maxBlockSize`. -/

theorem lfoOp_ignoresBlockSize : IgnoresBlockSize m (lfoOp O) := by
  intro s
  have hphase : statePhase O (withBlockSize m s) = statePhase O s := rfl
  simp only [lfoOp, hphase]
  cases statePhase O s <;> rfl

theorem loadpOp_ignoresBlockSize (p : ParamRegs α) : IgnoresBlockSize m (loadpOp O p : Gen.State α σ → _) := by
  intro s
  cases h : admitSnapshot O.num p <;> simp only [loadpOp, h] <;> rfl

/-! The lanes, and STEP as the composition of the above (R250). -/

variable [Inhabited α]

theorem drdOp_withBlockSize : Function.Commute (drdOp O c) (withBlockSize m) := fun _ => rfl

variable [DecidableEq α]

theorem dwrOp_withBlockSize : Function.Commute (dwrOp (α := α) (σ := σ) c) (withBlockSize m) := fun _ => rfl

theorem laneOps_withBlockSize : Function.Commute (laneOps O · c) (withBlockSize m) :=
  (tremOp_withBlockSize O c).comp_left <| (fmixOp_withBlockSize O c).comp_left <|
    (drdOp_withBlockSize O c).comp_left (dwrOp_withBlockSize c)

theorem foldLanes_withBlockSize (lanes : List Lane) :
    Function.Commute (lanes.foldl (laneOps O)) (withBlockSize m) :=
  fun _ => List.foldl_hom (withBlockSize m) fun t c => laneOps_withBlockSize O c t

theorem afterLfo_withBlockSize (lanes : List Lane) : Function.Commute (afterLfo O lanes) (withBlockSize m) :=
  wadvOp_withBlockSize.comp_left <| (foldLanes_withBlockSize O lanes).comp_left <|
    (fcoefOp_withBlockSize O).comp_left (dmodOp_withBlockSize O)

theorem runSchedule_ignoresBlockSize (lanes : List Lane) : IgnoresBlockSize m (runSchedule O lanes) :=
  ignoresBlockSize_andThen
    (ignoresBlockSize_comp (lfoOp_ignoresBlockSize O) ((varOp_withBlockSize O).comp_left (envOp_withBlockSize O)))
    (ignoresBlockSize_next (afterLfo_withBlockSize O lanes))

theorem admittedStep_ignoresBlockSize (lanes : List Lane) (frame : List α) :
    IgnoresBlockSize m (admittedStep O lanes frame) :=
  ignoresBlockSize_andThen
    (ignoresBlockSize_comp (runSchedule_ignoresBlockSize O lanes)
      (f := (setWires · (frameWires (O.num.lit .zero) frame))) fun _ => rfl)
    (ignoresBlockSize_next (finishStep_withBlockSize _ lanes))

theorem stepOp_ignoresBlockSize (frame : List α) : IgnoresBlockSize m (stepOp O frame) := by
  intro s
  have hprepared : (withBlockSize m s).cfg.prepared = s.cfg.prepared := rfl
  have hvalid : (withBlockSize m s).P.valid = s.P.valid := rfl
  unfold stepOp
  rw [hprepared, hvalid]
  cases lanesOfCount frame.length with
  | none => rfl
  | some lanes =>
    cases s.cfg.prepared
    · rfl
    cases s.P.valid
    · rfl
    cases admitFrame O.num frame
    · rfl
    exact admittedStep_ignoresBlockSize O lanes frame s

end blockSize

theorem exec_ignoresBlockSize {i : Instr} {m : Word} (hi : isPrepare i = false) : IgnoresBlockSize m (exec i) := by
  cases i with
  | prepare => nomatch hi
  | reset => exact ignoresBlockSize_next (resetOp_withBlockSize machineParams)
  | loadp => exact loadpOp_ignoresBlockSize machineParams _
  | step frame => exact stepOp_ignoresBlockSize machineParams frame
  | env => exact ignoresBlockSize_next (envOp_withBlockSize machineParams)
  | var => exact ignoresBlockSize_next (varOp_withBlockSize machineParams)
  | lfo => exact lfoOp_ignoresBlockSize machineParams
  | dmod => exact ignoresBlockSize_next (dmodOp_withBlockSize machineParams)
  | fcoef => exact ignoresBlockSize_next (fcoefOp_withBlockSize machineParams)
  | dwr c => exact ignoresBlockSize_next (dwrOp_withBlockSize c)
  | drd c => exact ignoresBlockSize_next (drdOp_withBlockSize machineParams c)
  | fmix c => exact ignoresBlockSize_next (fmixOp_withBlockSize machineParams c)
  | trem c => exact ignoresBlockSize_next (tremOp_withBlockSize machineParams c)
  | wadv => exact ignoresBlockSize_next wadvOp_withBlockSize

/-- The statement's outcome with `maxBlockSize` replaced is the one `IgnoresBlockSize` speaks of. -/
theorem pWithBlockSize_eq_andThen (m : Word) (r : Result) :
    pWithBlockSize m r = andThen r fun t => .next (withBlockSize m t) := by
  cases r <;> rfl

/-- Settles O52: every total operation commutes with replacing `maxBlockSize`, and neither LFO's wrap nor an admission
reads it. -/
theorem maxBlockSizeIsIgnored : Obligations.MaxBlockSizeIsIgnored :=
  fun i s m hi => (exec_ignoresBlockSize hi s).trans (pWithBlockSize_eq_andThen m (exec i s)).symm

end Sys2Proof.Claims
end

section
/-! PROOFS. The delay memory of a STEP: the words it stores (R71, R73, R175, R181), and with it the circular history
(R86). -/

namespace Sys2Proof.Claims

open Sys2Proof Sys2Proof.Machine

/-! ### The delay memory after a STEP -/

section stepMemory
variable {α σ : Type} [DecidableEq α] [Inhabited α]
variable (O : OpenParams α σ) (s : Gen.State α σ)

/-- No slot of a lane writes the input frame. -/
@[simp] theorem laneOps_input (c : Lane) : (laneOps O s c).wires.input = s.wires.input := by
  simp only [laneOps, tremOp, fmixOp]
  split <;> rfl

/-- Of a lane's slots only DWR reaches the memory. -/
theorem laneOps_delayBuffer (c : Lane) :
    (laneOps O s c).delayBuffer = (memWrite s c s.writePos (s.wires.input.get c)).delayBuffer := by
  simp only [laneOps, tremOp_delayBuffer, fmixOp_delayBuffer, drdOp_delayBuffer]
  rfl

variable {O s} {lanes : List Lane} {c : Lane} {j : Int}

theorem foldLanes_memoryWf (h : memoryWf s.delayBuffer = true) :
    memoryWf (lanes.foldl (laneOps O) s).delayBuffer = true := by
  induction lanes generalizing s with
  | nil => exact h
  | cons d rest ih =>
    refine ih ?_
    rw [laneOps_delayBuffer]
    exact memoryWf_memWrite h d _ _

/-- Running the lanes leaves every word alone but those at `writePos` of the lanes that run. -/
theorem memRead_foldLanes_other (h : c ∉ lanes ∨ maskIndex j ≠ s.writePos.toNat) :
    memRead (lanes.foldl (laneOps O) s) c j = memRead s c j := by
  induction lanes generalizing s with
  | nil => rfl
  | cons d rest ih =>
    rw [List.mem_cons, not_or] at h
    calc memRead (rest.foldl (laneOps O) (laneOps O s d)) c j
        = memRead (laneOps O s d) c j := ih (by simpa using h.imp_left And.right)
      _ = memRead (memWrite s d s.writePos (s.wires.input.get d)) c j :=
          memRead_congr (laneOps_delayBuffer O s d) c j
      _ = memRead s c j := memRead_memWrite_other s d c _ _ (h.imp_left And.left)

/-- A lane that runs holds its input sample at `writePos`. -/
theorem memRead_foldLanes_same (h : memoryWf s.delayBuffer = true) (hc : c ∈ lanes)
    (hj : maskIndex j = s.writePos.toNat) : memRead (lanes.foldl (laneOps O) s) c j = s.wires.input.get c := by
  induction lanes generalizing s with
  | nil => nomatch hc
  | cons d rest ih =>
    have hd := laneOps_delayBuffer O s d
    by_cases hrest : c ∈ rest
    · have hwf : memoryWf (laneOps O s d).delayBuffer = true := hd ▸ memoryWf_memWrite h d _ _
      simpa using ih hwf hrest (by simpa using hj)
    · obtain rfl : c = d := (List.mem_cons.mp hc).resolve_right hrest
      rw [List.foldl_cons, memRead_foldLanes_other (.inl hrest), memRead_congr hd]
      exact memRead_memWrite_same h c _ _ hj

end stepMemory

/-- The lanes a STEP runs are the ones its frame reaches. -/
theorem mem_lanesOfCount {frame : List F} {lanes : List Lane} (h : lanesOfCount frame.length = some lanes) (c : Lane) :
    c ∈ lanes ↔ pActive frame c := by
  unfold lanesOfCount at h
  split at h
  next hlen =>
    cases h
    cases c <;> simp [pActive, hlen]
  next hlen =>
    cases h
    cases c <;> simp [pActive, hlen]
  next => nomatch h

theorem frameWires_input (frame : List F) (c : Lane) :
    (frameWires (machineParams.num.lit .zero) frame).input.get c = pSample frame c := by
  rw [machine_zero]
  cases c <;> rfl

section step
variable {frame : List F} {s t : State} {c : Lane} {j : Int}

theorem step_writePos (h : exec (.step frame) s = .next t) : t.writePos = s.writePos + 1 := by
  rw [exec_step, stepOp_next] at h
  obtain ⟨_, _, -, -, -, -, -, rfl⟩ := h
  simp

/-- A completed STEP leaves the memory as its lanes leave it, run on a state with the same memory and `writePos` and the
frame on the inputs. -/
theorem step_runs_lanes (h : exec (.step frame) s = .next t) :
    ∃ (lanes : List Lane) (u : State), (∀ c, c ∈ lanes ↔ pActive frame c) ∧ u.delayBuffer = s.delayBuffer
      ∧ u.writePos = s.writePos ∧ (∀ c, u.wires.input.get c = pSample frame c)
      ∧ t.delayBuffer = (lanes.foldl (laneOps machineParams) u).delayBuffer := by
  rw [exec_step, stepOp_next] at h
  obtain ⟨lanes, p, hlanes, -, -, -, -, rfl⟩ := h
  refine ⟨lanes, fcoefOp machineParams (dmodOp machineParams (lfoStore machineParams (varOp machineParams
    (envOp machineParams (setWires s (frameWires (machineParams.num.lit .zero) frame)))) p)),
    mem_lanesOfCount hlanes, by simp, by simp, fun c => ?_, rfl⟩
  rw [← frameWires_input]
  simp [dmodOp, lfoStore]

/-- A STEP keeps the canonical form of the memory. -/
theorem step_memoryWf (h : exec (.step frame) s = .next t) (hwf : memoryWf s.delayBuffer = true) :
    memoryWf t.delayBuffer = true := by
  obtain ⟨lanes, u, -, hmem, -, -, hrun⟩ := step_runs_lanes h
  rw [hrun]
  exact foldLanes_memoryWf (hmem ▸ hwf)

/-- A STEP stores an active lane's sample at `writePos` (R175). -/
theorem memRead_step_same (h : exec (.step frame) s = .next t) (hwf : memoryWf s.delayBuffer = true)
    (hc : pActive frame c) (hj : maskIndex j = s.writePos.toNat) : memRead t c j = pSample frame c := by
  obtain ⟨lanes, u, hlanes, hmem, hpos, hinput, hrun⟩ := step_runs_lanes h
  rw [memRead_congr hrun, memRead_foldLanes_same (hmem ▸ hwf) ((hlanes c).mpr hc) (hpos ▸ hj), hinput]

/-- A STEP leaves every other word alone. -/
theorem memRead_step_other (h : exec (.step frame) s = .next t)
    (hcj : ¬ (pActive frame c ∧ maskIndex j = s.writePos.toNat)) : memRead t c j = memRead s c j := by
  obtain ⟨lanes, u, hlanes, hmem, hpos, -, hrun⟩ := step_runs_lanes h
  rw [← hlanes, ← hpos, not_and_or] at hcj
  rw [memRead_congr hrun, memRead_foldLanes_other hcj, memRead_congr hmem]

end step

/-! ### The circular history (R86) -/

theorem execAll_concat (is : List Instr) (i : Instr) (s : State) :
    execAll (is ++ [i]) s = andThen (execAll is s) (exec i) := by
  induction is generalizing s with
  | nil => cases h : exec i s <;> simp [execAll, andThen, h]
  | cons k is ih => cases h : exec k s <;> simp [execAll, andThen, h, ih]

/-- A word behind `writePos`, as a 12-bit index (R9, R72). -/
theorem maskIndex_behind (w : BitVec 12) (k : Nat) :
    maskIndex ((w.toNat : Int) - 1 - k) = (w - 1 - BitVec.ofNat 12 k).toNat := by
  simp only [maskIndex, BitVec.toNat_ofInt, BitVec.toNat_sub, BitVec.toNat_ofNat, BitVec.ofNat_eq_ofNat]
  omega

theorem maskIndex_behind_zero (w : BitVec 12) : maskIndex (((w + 1).toNat : Int) - 1 - (0 : Nat)) = w.toNat := by
  rw [maskIndex_behind]
  simp

/-- Advancing `writePos` puts every word one place further behind (R181). -/
theorem maskIndex_behind_succ (w : BitVec 12) (k : Nat) :
    maskIndex (((w + 1).toNat : Int) - 1 - (k + 1 : Nat)) = maskIndex ((w.toNat : Int) - 1 - k) := by
  rw [maskIndex_behind, maskIndex_behind]
  congr 1
  bv_omega

/-- No word fewer than 4096 places behind is the word at `writePos`. -/
theorem maskIndex_behind_ne (w : BitVec 12) {k : Nat} (hk : k + 1 < 4096) :
    maskIndex ((w.toNat : Int) - 1 - k) ≠ w.toNat := by
  rw [maskIndex_behind]
  bv_omega

theorem memRead_of_maskIndex_eq (s : State) (c : Lane) {i j : Int} (h : maskIndex i = maskIndex j) :
    memRead s c i = memRead s c j :=
  congrArg (delayRead c (s.delayBuffer.get c)) h

theorem steps_memoryWf {frames : List (List F)} {s t : State} (hwf : memoryWf s.delayBuffer = true)
    (h : execAll (frames.map Instr.step) s = .next t) : memoryWf t.delayBuffer = true := by
  induction frames using List.reverseRecOn generalizing t with
  | nil =>
    cases h
    exact hwf
  | append_singleton frames frame ih =>
    rw [List.map_append, List.map_singleton, execAll_concat, andThen_next] at h
    obtain ⟨u, hu, hstep⟩ := h
    exact step_memoryWf hstep (ih hu)

/-- Settles O42, by induction on the STEPs from the last: the last one stores its sample one place behind the new
`writePos`, and puts what the STEPs before it stored one place further behind. -/
theorem circularHistory : Obligations.CircularHistory := by
  intro frames s t c hwf hactive hrun k
  induction frames using List.reverseRecOn generalizing t k with
  | nil => intro fr _ hfr; nomatch hfr
  | append_singleton frames frame ih =>
    intro fr hk hfr
    rw [List.map_append, List.map_singleton, execAll_concat, andThen_next] at hrun
    obtain ⟨u, hu, hstep⟩ := hrun
    rw [List.reverse_concat] at hfr
    rw [step_writePos hstep]
    cases k with
    | zero =>
      obtain rfl : frame = fr := by simpa using hfr
      exact memRead_step_same hstep (steps_memoryWf hwf hu) (hactive frame (by simp)) (maskIndex_behind_zero u.writePos)
    | succ k =>
      rw [memRead_of_maskIndex_eq t c (maskIndex_behind_succ u.writePos k),
        memRead_step_other hstep fun hcj => maskIndex_behind_ne u.writePos hk hcj.2]
      exact ih u (fun fr hfr => hactive fr (List.mem_append_left _ hfr)) hu k fr (by omega) (by simpa using hfr)

end Sys2Proof.Claims
end

section
/-! PROOFS. Nothing of a lane reaches the other lane (R81). -/

namespace Sys2Proof.Claims

open Sys2Proof Sys2Proof.Machine

/-! ### What a lane can see

A lane sees the shared registers and wires, and its own memory, filters and per-lane wires.  An operation that keeps the
view of a lane gives it nothing from outside that view. -/

section laneView
variable {α σ β : Type}

/-- Lane `c`'s value in both places. -/
def mirrorLane (c : Lane) (p : PerLane β) : PerLane β := { l0 := p.get c, l1 := p.get c }

/-- The wires with lane `c`'s values in the other lane's place. -/
def wiresView (c : Lane) (w : Wires α) : Wires α :=
  { w with
    input := mirrorLane c w.input
    delayed := mirrorLane c w.delayed
    processed := mirrorLane c w.processed
    out := mirrorLane c w.out }

/-- The state as lane `c` sees it: whatever the other lane holds is replaced by lane `c`'s own. -/
def laneView (c : Lane) (s : Gen.State α σ) : Gen.State α σ :=
  { s with
    filt := mirrorLane c s.filt
    delayBuffer := mirrorLane c s.delayBuffer
    wires := wiresView c s.wires }

/-- What lane `c` sees after the operation follows from what it sees before it. -/
def KeepsLaneView (c : Lane) (f : Gen.State α σ → Gen.State α σ) : Prop :=
  ∀ s, laneView c (f (laneView c s)) = laneView c (f s)

variable {c : Lane} {s t : Gen.State α σ}

@[simp] theorem laneView_P : (laneView c s).P = s.P := rfl
@[simp] theorem laneView_envelope : (laneView c s).envelope = s.envelope := rfl
@[simp] theorem laneView_variationCountdown : (laneView c s).variationCountdown = s.variationCountdown := rfl
@[simp] theorem laneView_formantUpdateCounter : (laneView c s).formantUpdateCounter = s.formantUpdateCounter := rfl

theorem laneView_laneView (s : Gen.State α σ) : laneView c (laneView c s) = laneView c s := by
  cases c <;> rfl

theorem KeepsLaneView.comp {f g : Gen.State α σ → Gen.State α σ} (hg : KeepsLaneView c g)
    (hf : KeepsLaneView c f) : KeepsLaneView c (g ∘ f) := fun s =>
  calc laneView c (g (f (laneView c s)))
      = laneView c (g (laneView c (f (laneView c s)))) := (hg _).symm
    _ = laneView c (g (laneView c (f s))) := by rw [hf s]
    _ = laneView c (g (f s)) := hg _

theorem KeepsLaneView.eq {f : Gen.State α σ → Gen.State α σ} (hf : KeepsLaneView c f)
    (h : laneView c s = laneView c t) : laneView c (f s) = laneView c (f t) := by
  rw [← hf s, h, hf t]

/-- An operation on the shared state alone keeps every lane's view. -/
theorem KeepsLaneView.of_commute {f : Gen.State α σ → Gen.State α σ} (h : Function.Commute f (laneView c)) :
    KeepsLaneView c f := fun s => by
  rw [h s, laneView_laneView]

/-- An operation that lane `c` does not notice keeps its view. -/
theorem KeepsLaneView.of_unseen {f : Gen.State α σ → Gen.State α σ} (h : ∀ s, laneView c (f s) = laneView c s) :
    KeepsLaneView c f := fun s => by
  rw [h, h, laneView_laneView]

/-! ### The shared operations -/

variable (O : OpenParams α σ)

theorem envOp_keepsLaneView : KeepsLaneView c (envOp O) := .of_commute fun _ => rfl

theorem varCount_laneView : varCount O (laneView c s) = laneView c (varCount O s) := by
  unfold varCount
  rw [laneView_variationCountdown]
  split <;> rfl

theorem varOp_keepsLaneView : KeepsLaneView c (varOp O) := by
  refine .of_commute fun s => ?_
  unfold varOp
  rw [laneView_P, varCount_laneView]
  split <;> rfl

/-- The phase is shared, so both lanes see one advance and one wrap. -/
theorem statePhase_laneView : statePhase O (laneView c s) = statePhase O s := rfl

theorem statePhase_eq_of_laneView (h : laneView c s = laneView c t) : statePhase O s = statePhase O t := by
  rw [← statePhase_laneView (c := c), h, statePhase_laneView]

theorem lfoStore_keepsLaneView (p : α) : KeepsLaneView c (lfoStore O · p) := .of_commute fun _ => rfl

theorem dmodOp_keepsLaneView : KeepsLaneView c (dmodOp O) := .of_commute fun _ => rfl

/-- A refresh gives both lanes one coefficient set, and leaves each lane its own filter states. -/
theorem refreshBanks_laneView : refreshBanks O (laneView c s) = mirrorLane c (refreshBanks O s) := by
  cases c <;> rfl

theorem fcoefOp_keepsLaneView : KeepsLaneView c (fcoefOp O) := by
  refine .of_commute fun s => ?_
  unfold fcoefOp
  rw [laneView_formantUpdateCounter, refreshBanks_laneView]
  split <;> rfl

theorem wadvOp_keepsLaneView : KeepsLaneView c (wadvOp (α := α) (σ := σ)) := .of_commute fun _ => rfl

/-! ### The lanes -/

theorem mirrorLane_set_other {d : Lane} (h : d ≠ c) (p : PerLane β) (x : β) :
    mirrorLane c (p.set d x) = mirrorLane c p := by
  simp only [mirrorLane, PerLane.get_set_other p d c x h.symm]

theorem fmixOp_keepsLaneView : KeepsLaneView c (fmixOp O c) := by
  intro s
  unfold fmixOp
  rw [laneView_P, laneView_envelope]
  split <;> cases c <;> rfl

theorem tremOp_keepsLaneView : KeepsLaneView c (tremOp O c) := by
  intro s
  cases c <;> rfl

variable [Inhabited α]

theorem drdOp_keepsLaneView : KeepsLaneView c (drdOp O c) := by
  intro s
  cases c <;> rfl

variable [DecidableEq α]

theorem dwrOp_keepsLaneView : KeepsLaneView c (dwrOp (α := α) (σ := σ) c) := by
  intro s
  cases c <;> rfl

variable {d : Lane}

/-- The slots of another lane write that lane's memory, filters and wires. -/
theorem laneOps_unseen (h : d ≠ c) (s : Gen.State α σ) : laneView c (laneOps O s d) = laneView c s := by
  have hdwr (s : Gen.State α σ) : laneView c (dwrOp d s) = laneView c s := by
    simp [laneView, dwrOp, memWrite, mirrorLane_set_other h]
  have hdrd (s : Gen.State α σ) : laneView c (drdOp O d s) = laneView c s := by
    simp [laneView, wiresView, drdOp, setWires, wireDelayed, mirrorLane_set_other h]
  have hfmix (s : Gen.State α σ) : laneView c (fmixOp O d s) = laneView c s := by
    unfold fmixOp
    split <;> simp [laneView, wiresView, fmixRun, setWires, setFilt, wireProcessed, mirrorLane_set_other h]
  have htrem (s : Gen.State α σ) : laneView c (tremOp O d s) = laneView c s := by
    simp [laneView, wiresView, tremOp, setWires, wireOut, mirrorLane_set_other h]
  rw [laneOps, htrem, hfmix, hdrd, hdwr]

theorem laneOps_keepsLaneView : KeepsLaneView c (laneOps O · d) := by
  by_cases h : d = c
  · subst h
    exact (tremOp_keepsLaneView O).comp <| (fmixOp_keepsLaneView O).comp <|
      (drdOp_keepsLaneView O).comp dwrOp_keepsLaneView
  · exact .of_unseen (laneOps_unseen O h)

/-! ### The whole STEP -/

theorem foldLanes_keepsLaneView (lanes : List Lane) : KeepsLaneView c (lanes.foldl (laneOps O)) := by
  induction lanes with
  | nil => exact laneView_laneView
  | cons d rest ih => exact ih.comp (laneOps_keepsLaneView O)

theorem afterLfo_keepsLaneView (lanes : List Lane) : KeepsLaneView c (afterLfo O lanes) :=
  wadvOp_keepsLaneView.comp <| (foldLanes_keepsLaneView O lanes).comp <|
    (fcoefOp_keepsLaneView O).comp (dmodOp_keepsLaneView O)

variable {O}

/-- Two completed STEPs over the same number of lanes that start alike to lane `c` end alike to it, up to the return of
the outputs. -/
theorem stepOp_laneView {frame frame' : List α} {s' t' : Gen.State α σ}
    (h : stepOp O frame s = .next t) (h' : stepOp O frame' s' = .next t') (hlen : frame.length = frame'.length)
    (hstart : laneView c (setWires s (frameWires (O.num.lit .zero) frame))
      = laneView c (setWires s' (frameWires (O.num.lit .zero) frame'))) :
    ∃ lanes v v', lanesOfCount frame.length = some lanes ∧ laneView c v = laneView c v'
      ∧ t = finishStep (O.num.lit .zero) lanes v ∧ t' = finishStep (O.num.lit .zero) lanes v' := by
  rw [stepOp_next] at h h'
  obtain ⟨lanes, p, hlanes, -, -, -, hphase, rfl⟩ := h
  obtain ⟨lanes', p', hlanes', -, -, -, hphase', rfl⟩ := h'
  obtain rfl : lanes = lanes' := by simpa [hlen, hlanes'] using hlanes.symm
  have hvar := ((varOp_keepsLaneView O).comp (envOp_keepsLaneView O)).eq hstart
  obtain rfl : p = p' := Option.some.inj (hphase.symm.trans ((statePhase_eq_of_laneView O hvar).trans hphase'))
  exact ⟨lanes, _, _, hlanes,
    ((afterLfo_keepsLaneView O lanes).comp (lfoStore_keepsLaneView O p)).eq hvar, rfl, rfl⟩

end laneView

/-- What lane `c` sees holds its own output, memory and filters, and the shared registers. -/
theorem eq_of_laneView_eq {c : Lane} {s t : State} (h : laneView c s = laneView c t) :
    s.wires.out.get c = t.wires.out.get c ∧ s.delayBuffer.get c = t.delayBuffer.get c
    ∧ s.filt.get c = t.filt.get c ∧ pSameShared s t := by
  simp only [laneView, wiresView, mirrorLane, Gen.State.mk.injEq, Wires.mk.injEq, PerLane.mk.injEq] at h
  unfold pSameShared
  simp [h]

/-- A stereo STEP returns each lane's output in its place. -/
theorem pOut_finishStep (z : F) (c : Lane) (s : State) :
    pOut (finishStep z [.lane0, .lane1] s).response c = s.wires.out.get c := by
  cases c <;> rfl

/-- Two stereo STEPs that start alike to lane `c` give the same output, memory and filters of the lane and the same
shared registers. -/
theorem step_noninterference {c : Lane} {x0 x1 y0 y1 : F} {s s' t t' : State}
    (h : exec (.step [x0, x1]) s = .next t) (h' : exec (.step [y0, y1]) s' = .next t')
    (hstart : laneView c (setWires s (frameWires (machineParams.num.lit .zero) [x0, x1]))
      = laneView c (setWires s' (frameWires (machineParams.num.lit .zero) [y0, y1]))) :
    pOut t.response c = pOut t'.response c ∧ t.delayBuffer.get c = t'.delayBuffer.get c
    ∧ t.filt.get c = t'.filt.get c ∧ pSameShared t t' := by
  rw [exec_step] at h h'
  obtain ⟨lanes, v, v', hlanes, hview, rfl, rfl⟩ := stepOp_laneView h h' rfl hstart
  obtain rfl : [Lane.lane0, Lane.lane1] = lanes := Option.some.inj hlanes
  rw [pOut_finishStep, pOut_finishStep]
  exact eq_of_laneView_eq hview

/-- Settles O16: replacing a lane's memory, filters and sample changes nothing of what the other lane sees when the STEP
starts. -/
theorem lanesNeverReachEachOther : Obligations.LanesNeverReachEachOther :=
  fun _ _ _ _ _ _ _ _ h =>
    ⟨fun hu => step_noninterference (c := .lane0) h hu rfl, fun hu => step_noninterference (c := .lane1) h hu rfl⟩

end Sys2Proof.Claims
end

section
/-! PROOFS. The encodings of commands as words and bytes (R101 to R110), and of micro-operations as identifiers
(R112). -/

namespace Sys2Proof.Claims

open Sys2Proof Sys2Proof.Machine

/-! ### Words and bytes (R109) -/

/-- The bytes of a word, put together again, are the word. -/
@[simp] theorem wordOfBytes_extractLsb' (w : Word) :
    wordOfBytes (w.extractLsb' 0 8) (w.extractLsb' 8 8) (w.extractLsb' 16 8) (w.extractLsb' 24 8) = w := by
  ext k
  simp [wordOfBytes]
  grind

@[simp] theorem bytesOfWord_wordOfBytes (b0 b1 b2 b3 : Byte) :
    bytesOfWord (wordOfBytes b0 b1 b2 b3) = [b0, b1, b2, b3] := by
  simp [bytesOfWord, wordOfBytes]
  grind

@[simp] theorem bytesOfWords_nil : bytesOfWords [] = [] := rfl

@[simp] theorem bytesOfWords_cons (w : Word) (ws : List Word) :
    bytesOfWords (w :: ws) = bytesOfWord w ++ bytesOfWords ws := rfl

@[simp] theorem length_bytesOfWords (ws : List Word) : (bytesOfWords ws).length = 4 * ws.length := by
  induction ws with
  | nil => rfl
  | cons w ws ih => simp [ih, bytesOfWord]; omega

/-- Words come back off the bytes they were sent as. -/
theorem takeWords_bytesOfWords (ws : List Word) (rest : List Byte) :
    takeWords ws.length (bytesOfWords ws ++ rest) = some (ws, rest) := by
  induction ws with
  | nil => simp [takeWords]
  | cons w ws ih => simp [bytesOfWord, takeWords, ih]

/-- Words that were taken off a stream were at its front. -/
theorem eq_of_takeWords {n : Nat} {bs rest : List Byte} {ws : List Word} (h : takeWords n bs = some (ws, rest)) :
    ws.length = n ∧ bs = bytesOfWords ws ++ rest := by
  fun_induction takeWords n bs generalizing ws rest with
  | case1 bs =>
    cases h
    exact ⟨rfl, rfl⟩
  | case2 n b0 b1 b2 b3 bs ws' rest' htake ih =>
    obtain ⟨hlen, hbs⟩ := ih htake
    cases h
    simp [hlen, hbs]
  | case3 | case4 => nomatch h

/-- Too few bytes hold no `n` words. -/
theorem takeWords_eq_none {n : Nat} {bs : List Byte} (h : bs.length < 4 * n) : takeWords n bs = none := by
  refine Option.eq_none_iff_forall_ne_some.mpr fun p hp => ?_
  obtain ⟨hlen, hbs⟩ := eq_of_takeWords (ws := p.1) (rest := p.2) hp
  rw [hbs, List.length_append, length_bytesOfWords] at h
  omega

/-! ### Command words (R101 to R106, R110) -/

/-- The six legal command words and what each says. -/
def legalHeads : List (Word × Head) :=
  [(0x01000000, .prepare), (0x02000000, .reset), (0x03000000, .loadp false), (0x03000001, .loadp true),
   (0x04000001, .step 1), (0x04000002, .step 2)]

/-- A command word is its opcode and its argument field (R101). -/
theorem opcodeOf_append_argOf (cw : Word) : opcodeOf cw ++ argOf cw = cw := by
  ext k
  simp [opcodeOf, argOf]
  grind

theorem headOf_eq_some_iff {cw : Word} {h : Head} : headOf cw = some h ↔ (cw, h) ∈ legalHeads := by
  constructor
  · intro hh
    have hcw := opcodeOf_append_argOf cw
    unfold headOf at hh
    split_ifs at hh with hop harg hop harg hop harg harg hop harg harg <;>
      (rw [hop, harg] at hcw; cases hh; subst hcw; decide)
  · intro hmem
    have htable : ∀ p ∈ legalHeads, headOf p.1 = some p.2 := by decide
    exact htable (cw, h) hmem

theorem headOf_eq_none_iff {cw : Word} : headOf cw = none ↔ cw ∉ pLegalWords := by
  rw [Option.eq_none_iff_forall_ne_some, show pLegalWords = legalHeads.map Prod.fst from rfl]
  simp [headOf_eq_some_iff]

/-- A command word announces itself and its operands (R106). -/
theorem pLength_of_headOf {cw : Word} {h : Head} (hh : headOf cw = some h) : pLength cw = some (h.operands + 1) := by
  have htable : ∀ p ∈ legalHeads, pLength p.1 = some (p.2.operands + 1) := by
    simp [legalHeads, pLength, Head.operands]
  exact htable (cw, h) (headOf_eq_some_iff.mp hh)

/-! ### A head and its operand words as a command (R102 to R105) -/

section build
variable {cw : Word} {h : Head} {ws : List Word} {i : Instr}

/-- A legal command word with as many operand words as it announces builds a command, whatever the words hold (R106,
R108); the command is well-formed, and they are its words. -/
theorem build_of_length (hh : headOf cw = some h) (hlen : ws.length = h.operands) :
    ∃ i, h.build ws = some i ∧ i.wellFormed = true ∧ encodeWords i = some (cw :: ws) := by
  have hmem := headOf_eq_some_iff.mp hh
  simp only [legalHeads, List.mem_cons, Prod.mk.injEq, List.not_mem_nil, or_false] at hmem
  obtain ⟨rfl, rfl⟩ | ⟨rfl, rfl⟩ | ⟨rfl, rfl⟩ | ⟨rfl, rfl⟩ | ⟨rfl, rfl⟩ | ⟨rfl, rfl⟩ := hmem
  · obtain ⟨w1, w2, rfl⟩ := List.length_eq_two.mp hlen
    exact ⟨.prepare w1 w2, rfl, rfl, rfl⟩
  · obtain rfl := List.length_eq_zero_iff.mp hlen
    exact ⟨.reset, rfl, rfl, rfl⟩
  · match ws, hlen with
    | [w1, w2, w3, w4, w5, w6], _ => exact ⟨.loadp false w1 w2 w3 w4 w5 w6, rfl, rfl, rfl⟩
  · match ws, hlen with
    | [w1, w2, w3, w4, w5, w6], _ => exact ⟨.loadp true w1 w2 w3 w4 w5 w6, rfl, rfl, rfl⟩
  · obtain ⟨x, rfl⟩ := List.length_eq_one_iff.mp hlen
    exact ⟨.step [x], rfl, rfl, by simp [encodeWords, stepWord]⟩
  · obtain ⟨x, y, rfl⟩ := List.length_eq_two.mp hlen
    exact ⟨.step [x, y], rfl, rfl, by simp [encodeWords, stepWord]⟩

/-- The words of a well-formed command are a legal command word and operand words that build it. -/
theorem build_of_encodeWords {cws : List Word} (hwf : i.wellFormed = true) (he : encodeWords i = some cws) :
    ∃ cw h ws, cws = cw :: ws ∧ headOf cw = some h ∧ ws.length = h.operands ∧ h.build ws = some i := by
  cases i with
  | prepare =>
    cases he
    exact ⟨_, .prepare, _, rfl, by decide, rfl, rfl⟩
  | reset =>
    cases he
    exact ⟨_, .reset, _, rfl, by decide, rfl, rfl⟩
  | loadp t =>
    cases he
    exact ⟨_, .loadp t, _, rfl, by cases t <;> decide, rfl, rfl⟩
  | step frame =>
    cases he
    simp only [Instr.wellFormed, frameOk, Bool.or_eq_true, beq_iff_eq] at hwf
    obtain hone | htwo := hwf
    · obtain ⟨x, rfl⟩ := List.length_eq_one_iff.mp hone
      exact ⟨_, .step 1, _, rfl, by simp [stepWord, headOf_eq_some_iff, legalHeads], rfl, rfl⟩
    · obtain ⟨x, y, rfl⟩ := List.length_eq_two.mp htwo
      exact ⟨_, .step 2, _, rfl, by simp [stepWord, headOf_eq_some_iff, legalHeads], rfl, rfl⟩
  | _ => nomatch he

end build

/-- The host commands are the instructions that have words (R100, R112). -/
theorem isSome_encodeWords (i : Instr) : (encodeWords i).isSome = i.isCommand := by
  cases i <;> rfl

/-! ### The decoder on a command word and what follows it -/

section decoder
variable {cw : Word} {h : Head} {bs rest : List Byte} {i : Instr}

theorem takeWords_one (cw : Word) (bs : List Byte) : takeWords 1 (bytesOfWord cw ++ bs) = some ([cw], bs) :=
  takeWords_bytesOfWords [cw] bs

theorem decode_of_headOf_none (hh : headOf cw = none) (bs : List Byte) :
    decode (bytesOfWord cw ++ bs) = .reserved cw := by
  simp only [decode, takeWords_one, hh]

theorem decode_of_takeWords_none (hh : headOf cw = some h) (htake : takeWords h.operands bs = none) :
    decode (bytesOfWord cw ++ bs) = .incomplete := by
  simp only [decode, takeWords_one, hh, htake]

theorem decode_of_build {ws : List Word} (hh : headOf cw = some h) (hlen : ws.length = h.operands)
    (hb : h.build ws = some i) (rest : List Byte) : decode (bytesOfWords (cw :: ws) ++ rest) = .command i rest := by
  rw [bytesOfWords_cons, List.append_assoc]
  simp only [decode, takeWords_one, hh, ← hlen, takeWords_bytesOfWords, hb]

/-- A stream that decodes to a command starts with a legal command word and the operand words that build it. -/
theorem build_of_decode (hd : decode bs = .command i rest) : ∃ cw h ws, bs = bytesOfWords (cw :: ws) ++ rest
    ∧ headOf cw = some h ∧ ws.length = h.operands ∧ h.build ws = some i := by
  unfold decode at hd
  split at hd
  case h_2 => nomatch hd
  case h_1 cw bs1 hcw =>
  split at hd
  case h_1 => nomatch hd
  case h_2 h hh =>
  split at hd
  case h_1 => nomatch hd
  case h_2 ws rest' hws =>
  split at hd
  case h_2 => nomatch hd
  case h_1 i' hb =>
  cases hd
  obtain ⟨-, rfl⟩ := eq_of_takeWords hcw
  obtain ⟨hlen, rfl⟩ := eq_of_takeWords hws
  exact ⟨cw, h, ws, by simp, hh, hlen, hb⟩

/-- What decodes to a command is the words of a well-formed command, and the bytes after them. -/
theorem decode_eq_command_iff : decode bs = .command i rest ↔
    i.wellFormed = true ∧ ∃ ws, encodeWords i = some ws ∧ bs = bytesOfWords ws ++ rest := by
  constructor
  · intro hd
    obtain ⟨cw, h, ws, rfl, hh, hlen, hb⟩ := build_of_decode hd
    obtain ⟨i', hb', hwf, he⟩ := build_of_length hh hlen
    obtain rfl : i' = i := Option.some.inj (hb'.symm.trans hb)
    exact ⟨hwf, _, he, rfl⟩
  · rintro ⟨hwf, _, he, rfl⟩
    obtain ⟨cw, h, ws, rfl, hh, hlen, hb⟩ := build_of_encodeWords hwf he
    exact decode_of_build hh hlen hb rest

/-- A legal command word is not reserved: the words that follow it either build a command or are too few. -/
theorem decode_ne_reserved (hh : headOf cw = some h) (bs : List Byte) (cw' : Word) :
    decode (bytesOfWord cw ++ bs) ≠ .reserved cw' := by
  cases htake : takeWords h.operands bs with
  | none =>
    rw [decode_of_takeWords_none hh htake]
    nofun
  | some p =>
    obtain ⟨ws, rest⟩ := p
    obtain ⟨hlen, rfl⟩ := eq_of_takeWords htake
    obtain ⟨i, hb, -⟩ := build_of_length hh hlen
    rw [← List.append_assoc, ← bytesOfWords_cons, decode_of_build hh hlen hb]
    nofun

theorem decode_eq_reserved_iff : decode (bytesOfWord cw ++ bs) = .reserved cw ↔ cw ∉ pLegalWords := by
  rw [← headOf_eq_none_iff]
  refine ⟨fun hd => ?_, fun hh => decode_of_headOf_none hh bs⟩
  cases hh : headOf cw with
  | none => rfl
  | some h => exact absurd hd (decode_ne_reserved hh bs cw)

end decoder

/-- Settles O2: a well-formed command has words, and a stream that starts with them decodes to it. -/
theorem commandRoundTrip : Obligations.CommandRoundTrip := by
  intro i hwf hcmd
  obtain ⟨ws, he⟩ := Option.isSome_iff_exists.mp ((isSome_encodeWords i).trans hcmd)
  exact ⟨bytesOfWords ws, by simp [encode, he], fun rest => decode_eq_command_iff.mpr ⟨hwf, ws, he, rfl⟩⟩

/-- A reserved command word at the front of the host's stream refuses the step. -/
theorem step_of_decode_reserved {s : State} {cw : Word} (hs : s.slots = []) (hd : decode s.hostIn = .reserved cw) :
    step s = .refused .reservedCommand := by
  simp only [step, runNext, hs, runHost, hd, refuse]

/-- Settles O1: the decoder answers 'reserved' where `headOf` finds no head, and a step refuses what it answers. -/
theorem reservedWordsExactly : Obligations.ReservedWordsExactly :=
  ⟨fun _ _ => decode_eq_reserved_iff, fun _ _ _ hs hin hcw =>
    step_of_decode_reserved hs (hin ▸ decode_eq_reserved_iff.mpr hcw)⟩

/-- Settles O3: a decoded stream starts with the words of a well-formed instruction, and only a command has words. -/
theorem decodedBytesAreTheEncoding : Obligations.DecodedBytesAreTheEncoding := by
  intro bs i rest hd
  obtain ⟨hwf, ws, he, hbs⟩ := decode_eq_command_iff.mp hd
  have hcmd : i.isCommand = true := by rw [← isSome_encodeWords, he, Option.isSome_some]
  exact ⟨hwf, hcmd, bytesOfWords ws, by simp [encode, he], hbs⟩

/-- Settles O4: a legal command word has a head, whose number of operand words is what the word announces. -/
theorem commandWordGivesLength : Obligations.CommandWordGivesLength := by
  intro cw n hcw hn
  obtain ⟨h, hh⟩ := Option.ne_none_iff_exists'.mp (mt headOf_eq_none_iff.mp (not_not_intro hcw))
  obtain rfl : h.operands + 1 = n := Option.some.inj ((pLength_of_headOf hh).symm.trans hn)
  refine ⟨fun ws hlen => ?_, fun more hmore => decode_of_takeWords_none hh (takeWords_eq_none (by omega))⟩
  obtain ⟨i, hb, -⟩ := build_of_length hh (Nat.succ.inj hlen)
  exact ⟨i, decode_of_build hh (Nat.succ.inj hlen) hb⟩

/-! ### Micro-operation identifiers (R112) -/

/-- An identifier names what the table of R112 says, compared at all 32 identifiers. -/
theorem decodeMicro_eq_some_iff {id : MicroId} {i : Instr} : decodeMicro id = some i ↔ (id, i) ∈ pMicroTable := by
  have hnamed : ∀ id : MicroId, ∀ i ∈ decodeMicro id, (id, i) ∈ pMicroTable := by decide
  have htable : ∀ p ∈ pMicroTable, decodeMicro p.1 = some p.2 := by decide
  exact ⟨hnamed id i, htable (id, i)⟩

theorem encodeMicro_eq_some_iff {i : Instr} {id : MicroId} : encodeMicro i = some id ↔ (id, i) ∈ pMicroTable := by
  constructor
  · intro he
    cases i with
    | prepare | reset | loadp | step => nomatch he
    | dwr c | drd c | fmix c | trem c =>
      cases he
      cases c <;> decide
    | env | var | lfo | dmod | fcoef | wadv =>
      cases he
      decide
  · have htable : ∀ p ∈ pMicroTable, encodeMicro p.2 = some p.1 := by decide
    exact htable (id, i)

theorem decodeMicro_eq_none_iff : ∀ id : MicroId, decodeMicro id = none ↔
    10 ≤ id.toNat / 2 ∨ (id.toNat % 2 = 1 ∧ ¬ (5 ≤ id.toNat / 2 ∧ id.toNat / 2 ≤ 8)) := by
  decide

/-- A micro-operation of the table has no words (R112). -/
theorem encode_of_mem_pMicroTable {id : MicroId} {i : Instr} (hmem : (id, i) ∈ pMicroTable) : encode i = none := by
  have htable : ∀ p ∈ pMicroTable, encode p.2 = none := by decide
  exact htable (id, i) hmem

/-- Settles O5: the decoder and the encoder of identifiers against the table of R112. -/
theorem microIdsExactly : Obligations.MicroIdsExactly :=
  ⟨fun _ _ => decodeMicro_eq_some_iff, fun _ _ => encodeMicro_eq_some_iff, decodeMicro_eq_none_iff,
    fun _ _ => encode_of_mem_pMicroTable⟩

/-- Settles O6, by evaluation of the eight fixed words. -/
theorem specWordsDecode : Obligations.SpecWordsDecode := by
  unfold Obligations.SpecWordsDecode
  decide

end Sys2Proof.Claims
end

section
/-! PROOFS. ENV, the envelope smoother: its result (R131), the target form (R132), its range and direction (R133), and its
ramps over the reals (R134). -/

namespace Sys2Proof.Claims

open Sys2Proof Sys2Proof.Machine

/-! ### ENV in the statements' words (R47, R48, R131) -/

theorem pAttack_eq (N : Num F) (s : State) : pAttack N s = attackRate N s.P.onsetMs s.cfg.sampleRate := rfl

theorem pRelease_eq (N : Num F) (s : State) : pRelease N s = releaseRate N s.cfg.sampleRate := rfl

theorem pMin_eq (N : Num F) (a b : F) : pMin N a b = numMin N a b := rfl

theorem pMax_eq (N : Num F) (a b : F) : pMax N a b = numMax N a b := rfl

/-- ENV sets the envelope to its next value and nothing else. -/
theorem exec_env_eq (s : State) : exec .env s = .next (setEnvelope s
    (envNext M s.P.triggered (pAttack M s) (pRelease M s) s.envelope)) := by
  rw [exec_env, envOp, pAttack_eq, pRelease_eq]

/-- Settles O19: the two arms of `envNext` are the two of R131. -/
theorem envResult : Obligations.EnvResult := by
  intro s
  rw [exec_env_eq]
  rfl

/-! ### The values ENV computes in binary32 -/

theorem f32Val_one : f32Val 0x3F800000 = 2 ^ 149 := by decide

theorem f32Val_zero : f32Val 0x00000000 = 0 := rfl

section values
variable (f : FreeFns) {attack release envelope target : F}

/-- Adding the attack rate does not lower the envelope, after the rounding too. -/
theorem attackSum_bounds (ha : within 0x35800000 0x3F800000 attack = true) (he : unitRange envelope = true) :
    f32Finite (f32Add f envelope attack) = true ∧ f32Val envelope ≤ f32Val (f32Add f envelope attack) := by
  have hsum : within 0x00000000 0x40000000 (f32Add f envelope attack) = true := add_in f he ha (by decide)
  obtain ⟨hfin, -, -⟩ := finite_bounds hsum (by decide) (by decide)
  obtain ⟨hafin, hapos, -⟩ := finite_bounds ha (by decide) (by decide)
  obtain ⟨hefin, -, -⟩ := (unitRange_iff envelope).mp he
  have ha0 : 0 ≤ f32Val attack := le_trans (by decide) hapos
  exact ⟨hfin, (f32Le_iff hefin hfin).mp (le_f32Add f hefin hafin hefin (by omega))⟩

/-- Subtracting the release rate does not raise the envelope, after the rounding too. -/
theorem releaseDifference_bounds (hr : within 0x39000000 0x3F800000 release = true) (he : unitRange envelope = true) :
    f32Finite (f32Sub f envelope release) = true ∧ f32Val (f32Sub f envelope release) ≤ f32Val envelope := by
  have hdiff : within 0xBF800000 0x3F800000 (f32Sub f envelope release) = true := sub_in f he hr (by decide)
  obtain ⟨hfin, -, -⟩ := finite_bounds hdiff (by decide) (by decide)
  obtain ⟨hrfin, hrpos, -⟩ := finite_bounds hr (by decide) (by decide)
  obtain ⟨hefin, -, -⟩ := (unitRange_iff envelope).mp he
  have hr0 : 0 ≤ f32Val release := le_trans (by decide) hrpos
  exact ⟨hfin, (f32Le_iff hfin hefin).mp (f32Sub_le f hefin hrfin hefin (by omega))⟩

/-- Triggered, ENV's next envelope is the least of the rounded sum and 1. -/
theorem envNext_triggered_value (hfin : f32Finite (f32Add f envelope attack) = true) :
    f32Val (envNext (binary32 f) true attack release envelope)
      = min (f32Val (f32Add f envelope attack)) (f32Val 0x3F800000) := by
  simp only [envNext, if_true, binary32_lit, binary32_add, f32Lit]
  exact (numMin_finite f hfin (by decide)).2

/-- Released, ENV's next envelope is the greatest of the rounded difference and 0. -/
theorem envNext_released_value (hfin : f32Finite (f32Sub f envelope release) = true) :
    f32Val (envNext (binary32 f) false attack release envelope)
      = max (f32Val (f32Sub f envelope release)) (f32Val 0x00000000) := by
  simp only [envNext, Bool.false_eq_true, if_false, binary32_lit, binary32_sub, f32Lit]
  exact (numMax_finite f hfin (by decide)).2

/-! ### The direction of motion (R133) -/

theorem le_envNext_triggered (ha : within 0x35800000 0x3F800000 attack = true)
    (hr : within 0x39000000 0x3F800000 release = true) (he : unitRange envelope = true) :
    f32Le envelope (envNext (binary32 f) true attack release envelope) = true := by
  obtain ⟨hsum, hle⟩ := attackSum_bounds f ha he
  obtain ⟨hefin, -, hle1⟩ := (unitRange_iff envelope).mp he
  have hnext := ((unitRange_iff _).mp (envNext_range f true ha hr he)).1
  rw [f32Le_iff hefin hnext, envNext_triggered_value f hsum, f32Val_one]
  exact le_min hle hle1

theorem envNext_released_le (ha : within 0x35800000 0x3F800000 attack = true)
    (hr : within 0x39000000 0x3F800000 release = true) (he : unitRange envelope = true) :
    f32Le (envNext (binary32 f) false attack release envelope) envelope = true := by
  obtain ⟨hdiff, hle⟩ := releaseDifference_bounds f hr he
  obtain ⟨hefin, hge0, -⟩ := (unitRange_iff envelope).mp he
  have hnext := ((unitRange_iff _).mp (envNext_range f false ha hr he)).1
  rw [f32Le_iff hnext hefin, envNext_released_value f hdiff, f32Val_zero]
  exact max_le hle hge0

/-! ### The target form (R132) -/

/-- The target form of R132: one step of the envelope toward a target, not beyond it. -/
def targetForm (N : Num F) (target attack release envelope : F) : F :=
  if N.lt envelope target = true then pMin N target (N.add envelope attack)
  else if N.lt target envelope = true then pMax N target (N.sub envelope release)
  else envelope

theorem targetForm_finite (ht : f32Finite target = true) (he : f32Finite envelope = true)
    (hsum : f32Finite (f32Add f envelope attack) = true) (hdiff : f32Finite (f32Sub f envelope release) = true) :
    f32Finite (targetForm (binary32 f) target attack release envelope) = true
    ∧ f32Val (targetForm (binary32 f) target attack release envelope) =
      if f32Val envelope < f32Val target then min (f32Val target) (f32Val (f32Add f envelope attack))
      else if f32Val target < f32Val envelope then max (f32Val target) (f32Val (f32Sub f envelope release))
      else f32Val envelope := by
  unfold targetForm
  simp only [binary32_lt, binary32_add, binary32_sub, f32Lt_iff he ht, f32Lt_iff ht he, pMin_eq, pMax_eq]
  split_ifs
  · exact numMin_finite f ht hsum
  · exact numMax_finite f ht hdiff
  · exact ⟨he, rfl⟩

/-- On `[0, 1]` an envelope on the far side of its target does not occur, and one that has reached its target stays. -/
theorem envNext_eq_targetForm (trig : Bool) (ha : within 0x35800000 0x3F800000 attack = true)
    (hr : within 0x39000000 0x3F800000 release = true) (he : unitRange envelope = true) :
    f32Eq (envNext (binary32 f) trig attack release envelope)
      (targetForm (binary32 f) (if trig = true then 0x3F800000 else 0x00000000) attack release envelope) = true := by
  obtain ⟨hsum, hsumle⟩ := attackSum_bounds f ha he
  obtain ⟨hdiff, hdiffle⟩ := releaseDifference_bounds f hr he
  obtain ⟨hefin, hge0, hle1⟩ := (unitRange_iff envelope).mp he
  have hnext := ((unitRange_iff _).mp (envNext_range f trig ha hr he)).1
  cases trig with
  | true =>
    obtain ⟨hfin, hval⟩ := targetForm_finite f (target := 0x3F800000) (by decide) hefin hsum hdiff
    rw [if_pos rfl, f32Eq_iff hnext hfin, hval, envNext_triggered_value f hsum, f32Val_one]
    split_ifs <;> omega
  | false =>
    obtain ⟨hfin, hval⟩ := targetForm_finite f (target := 0x00000000) (by decide) hefin hsum hdiff
    rw [if_neg Bool.false_ne_true, f32Eq_iff hnext hfin, hval, envNext_released_value f hdiff, f32Val_zero]
    split_ifs <;> omega

end values

section legal
variable {s : State}

theorem pAttack_range (hr : legalRate s.cfg.sampleRate = true) (hp : legalSnapshot s.P = true) :
    within 0x35800000 0x3F800000 (pAttack M s) = true := by
  rw [pAttack_eq, M, machineParams_num]
  exact attackRate_range _ ((legalSnapshot_iff s.P).mp hp).1 hr

theorem pRelease_range (hr : legalRate s.cfg.sampleRate = true) :
    within 0x39000000 0x3F800000 (pRelease M s) = true := by
  rw [pRelease_eq, M, machineParams_num]
  exact releaseRate_range _ hr

end legal

/-- Settles O20: triggered the target is 1 and the envelope is not above it, released it is 0 and the envelope not below. -/
theorem envIsTargetForm : Obligations.EnvIsTargetForm := by
  intro s t hr hp he ht
  rw [exec_env_eq] at ht
  cases ht
  exact envNext_eq_targetForm Config.freeValues.fns s.P.triggered (pAttack_range hr hp) (pRelease_range hr) he

/-- Settles O21: ENV keeps the range, and no rounding takes the sum below the envelope or the difference above it. -/
theorem envKeepsRange : Obligations.EnvKeepsRange := by
  intro s hr hp he
  have ha := pAttack_range hr hp
  have hrel := pRelease_range hr
  refine ⟨_, exec_env_eq s, envNext_range _ _ ha hrel he, fun htrig => ?_, fun htrig => ?_⟩
  · rw [setEnvelope_envelope, htrig]
    exact le_envNext_triggered _ ha hrel he
  · rw [setEnvelope_envelope, htrig]
    exact envNext_released_le _ ha hrel he

/-! ### The ramps over the reals (R134) -/

section ramps
variable {attack release x : ℝ}

theorem numMin_real (a b : ℝ) : numMin realNum a b = min a b := by
  rw [min_comm, min_def_lt]
  simp [numMin, realNum]

theorem numMax_real (a b : ℝ) : numMax realNum a b = max a b := by
  rw [max_def_lt]
  simp [numMax, realNum]

theorem envNext_real_triggered : envNext realNum true attack release x = min (x + attack) 1 := by
  rw [envNext, if_pos rfl, numMin_real]
  simp [realNum, realLit, Lit.decimal]

theorem envNext_real_released : envNext realNum false attack release x = max (x - release) 0 := by
  rw [envNext, if_neg Bool.false_ne_true, numMax_real]
  simp [realNum, realLit, Lit.decimal]

/-- From any value up to 1, `n` triggered steps add `n` attack rates, stopping at 1. -/
theorem iter_triggered (ha : 0 ≤ attack) (hx : x ≤ 1) (n : Nat) :
    iter (envNext realNum true attack release) n x = min (x + n * attack) 1 := by
  induction n generalizing x with
  | zero => simp [iter, hx]
  | succ n ih =>
    have hn : 0 ≤ n * attack := by positivity
    calc iter (envNext realNum true attack release) n (envNext realNum true attack release x)
        = min (min (x + attack) 1 + n * attack) 1 := by rw [envNext_real_triggered, ih (min_le_right _ _)]
      _ = min (x + (n + 1 : ℕ) * attack) 1 := by
        rw [min_add, min_assoc, min_eq_right (by linarith : (1 : ℝ) ≤ 1 + n * attack)]
        congr 1
        push_cast
        ring

/-- From any value from 0 up, `n` released steps subtract `n` release rates, stopping at 0. -/
theorem iter_released (hr : 0 ≤ release) (hx : 0 ≤ x) (n : Nat) :
    iter (envNext realNum false attack release) n x = max (x - n * release) 0 := by
  induction n generalizing x with
  | zero => simp [iter, hx]
  | succ n ih =>
    have hn : 0 ≤ n * release := by positivity
    calc iter (envNext realNum false attack release) n (envNext realNum false attack release x)
        = max (max (x - release) 0 - n * release) 0 := by rw [envNext_real_released, ih (le_max_right _ _)]
      _ = max (x - (n + 1 : ℕ) * release) 0 := by
        rw [← max_sub_sub_right, max_assoc, max_eq_right (by linarith : 0 - n * release ≤ 0)]
        congr 1
        push_cast
        ring

end ramps

/-- Settles O56: the attack ramp starts at 0 and the release ramp at 1. -/
theorem realRampsAreLinear : Obligations.RealRampsAreLinear := by
  intro attack release n ha hr
  exact ⟨by rw [iter_triggered ha.le zero_le_one, zero_add], iter_released hr.le zero_le_one n⟩

end Sys2Proof.Claims
end

section
/-! PROOFS. The ranges of the registers (R55): every command keeps them, so every step does. -/

namespace Sys2Proof.Claims

open Sys2Proof Sys2Proof.Machine

/-! ### FCOEF's counter -/

/-- Counting a count down that is not below 0 does not wrap (R38). -/
theorem toInt_countDown {x : BitVec 32} (h : 0 ≤ x.toInt) : (countDown x).toInt = x.toInt - 1 := by
  have hone : (1 : BitVec 32).toInt = 1 := rfl
  have hlt := x.toInt_lt
  rw [countDown, BitVec.toInt_sub, hone, Int.bmod_eq_of_le (by norm_num; omega) (by norm_num; omega)]

/-- FCOEF keeps its counter in `[0, 32]`: a count that has expired is set to 32, and any other is still above 0 (R201). -/
theorem fcoefOp_counter_range {α σ : Type} (O : OpenParams α σ) {s : Gen.State α σ}
    (h : 0 ≤ s.formantUpdateCounter.toInt ∧ s.formantUpdateCounter.toInt ≤ 32) :
    0 ≤ (fcoefOp O s).formantUpdateCounter.toInt ∧ (fcoefOp O s).formantUpdateCounter.toInt ≤ 32 := by
  unfold fcoefOp
  split
  next =>
    rw [setRefresh_formantUpdateCounter]
    decide
  next hcount =>
    rw [setRefresh_formantUpdateCounter]
    have hpos : ¬ (countDown s.formantUpdateCounter).toInt ≤ 0 := fun hle => hcount (decide_eq_true hle)
    have := toInt_countDown h.1
    omega

/-! ### The operations on the registers of a READY block -/

/-- The registers a STEP computes with are in range: the rate, the snapshot and the EngineState's. -/
structure InRange (s : State) : Prop where
  rate : legalRate s.cfg.sampleRate = true
  snapshot : legalSnapshot s.P = true
  engine : engineRanges s

section ops
variable {s : State}

theorem InRange.env (h : InRange s) : InRange (envOp machineParams s) := by
  obtain ⟨hrate, hsnap, henv, hrest⟩ := h
  exact ⟨hrate, hsnap, envOp_range hrate hsnap henv, hrest⟩

theorem InRange.var (h : InRange s) : InRange (varOp machineParams s) := by
  obtain ⟨hrate, hsnap, henv, hphase, hsmooth, htarget, hcount, hrefresh⟩ := h
  exact ⟨by simpa using hrate, by simpa using hsnap, by simpa using henv, by simpa using hphase,
    varOp_smoothed_range hsmooth htarget, varOp_target_range htarget,
    by simpa using varOp_countdown_range hrate hcount, by simpa using hrefresh⟩

/-- LFO's wrap ends in `[0, 1)`, and the phase is all of the EngineState that LFO stores. -/
theorem InRange.lfo (h : InRange s) {p : F} (hp : statePhase machineParams s = some p) :
    InRange (lfoStore machineParams s p) := by
  obtain ⟨hrate, hsnap, henv, hphase, hsmooth, hrest⟩ := h
  obtain ⟨p', hp', hrange⟩ := statePhase_range hrate hsnap hsmooth hphase
  obtain rfl : p' = p := Option.some.inj (hp'.symm.trans hp)
  exact ⟨hrate, hsnap, henv, hrange, hsmooth, hrest⟩

/-- Of the slots after LFO only FCOEF writes a register that has a range. -/
theorem InRange.afterLfo (h : InRange s) (lanes : List Lane) : InRange (afterLfo machineParams lanes s) := by
  obtain ⟨hrate, hsnap, henv, hphase, hsmooth, htarget, hcount, hrefresh⟩ := h
  exact ⟨by simpa using hrate, by simpa using hsnap, by simpa using henv, by simpa using hphase,
    by simpa using hsmooth, by simpa using htarget, by simpa using hcount,
    by simpa using fcoefOp_counter_range machineParams hrefresh⟩

/-- A STEP keeps the registers in range. -/
theorem InRange.step (h : InRange s) {frame : List F} {t : State} (ht : exec (.step frame) s = .next t) :
    InRange t := by
  rw [exec_step, stepOp_next] at ht
  obtain ⟨lanes, p, -, -, -, -, hp, rfl⟩ := ht
  have hframe : InRange (setWires s (frameWires (machineParams.num.lit .zero) frame)) :=
    ⟨h.rate, h.snapshot, h.engine⟩
  have hrun := (hframe.env.var.lfo hp).afterLfo lanes
  exact ⟨hrun.rate, hrun.snapshot, hrun.engine⟩

/-- RESET zeroes the EngineState, and 0 is in every range (R244). -/
theorem engineRanges_resetOp (h : legalRate s.cfg.sampleRate = true) : engineRanges (resetOp machineParams s) := by
  have hperiod := varPeriod_range Config.freeValues.fns h
  rw [← machineParams_num] at hperiod
  have hzero : (0 : BitVec 32).toInt = 0 := rfl
  unfold engineRanges
  simp only [resetOp_envelope, resetOp_lfoPhase, resetOp_variationSmoothed, resetOp_variationTarget,
    resetOp_variationCountdown, resetOp_formantUpdateCounter, resetOp_cfg, machine_zero, hzero]
  exact ⟨by decide, by decide, by decide, by decide, ⟨le_rfl, by omega⟩, by decide⟩

end ops

/-! ### The commands and the step -/

/-- A command keeps the registers in range: PREPARE and LOADP take legal operands only, PREPARE and RESET leave zeros,
and a STEP that completes ran on a READY block with a snapshot. -/
theorem exec_command_keeps_rangeInv {i : Instr} {s t : State} (hi : i.isCommand = true) (h : rangeInv s)
    (ht : exec i s = .next t) : rangeInv t := by
  obtain ⟨hslots, hready, hsnap⟩ := h
  cases i with
  | prepare sr mbs =>
    rw [exec_prepare, prepareOp_next, admitRate_eq] at ht
    obtain ⟨hrate, rfl⟩ := ht
    exact ⟨hslots, fun _ => ⟨hrate, engineRanges_resetOp hrate⟩, hsnap⟩
  | reset =>
    rw [exec_reset] at ht
    cases ht
    exact ⟨hslots, fun hprep => ⟨(hready hprep).1, engineRanges_resetOp (hready hprep).1⟩, hsnap⟩
  | loadp =>
    rw [exec_loadp, loadpOp_next, admitSnapshot_eq] at ht
    obtain ⟨hlegal, rfl⟩ := ht
    exact ⟨hslots, hready, fun _ => hlegal⟩
  | step frame =>
    have hstep := ht
    rw [exec_step, stepOp_next] at hstep
    obtain ⟨lanes, p, -, hprep, hvalid, -, -, htt⟩ := hstep
    have hrange := InRange.step ⟨(hready hprep).1, hsnap hvalid, (hready hprep).2⟩ ht
    exact ⟨by simp [htt, hslots], fun _ => ⟨hrange.rate, hrange.engine⟩, fun _ => hrange.snapshot⟩
  | _ => nomatch hi

/-- Settles O45: no micro-operation is put alone to a block that meets the invariant, an idle step changes nothing, and
the host can send commands only. -/
theorem rangeInvariantKept : Obligations.RangeInvariantKept := by
  intro s t h ht
  rcases step_next ht with ⟨_, _, _, hslots, -, -⟩ | ⟨-, -, rfl⟩ | ⟨i, rest, -, hd, hexec⟩
  · rw [h.1] at hslots
    nomatch hslots
  · exact h
  · obtain ⟨-, hcmd, -⟩ := decodedBytesAreTheEncoding _ _ _ hd
    exact exec_command_keeps_rangeInv (s := setHostIn s rest) hcmd h hexec

end Sys2Proof.Claims
end

section
/-! PROOFS. VAR, the variation generator: its result (R141), its range (R144), the default source's draws (R146), and the
smoother over the reals (R143). -/

namespace Sys2Proof.Claims

open Sys2Proof Sys2Proof.Machine

/-! ### The three arms of VAR (R141) -/

section arms
variable {α σ : Type} {O : OpenParams α σ} {s : Gen.State α σ}

theorem varOp_inactive (h : variationActive O.num s.P.variationPct = false) :
    varOp O s = { s with variationSmoothed := O.num.lit .zero } := by
  simp [varOp, h, setSmoothed]

theorem varOp_counting (h : variationActive O.num s.P.variationPct = true)
    (hcount : countExpired (countDown s.variationCountdown) = false) :
    varOp O s = { s with
      variationCountdown := countDown s.variationCountdown
      variationSmoothed := varSmooth O.num s.variationSmoothed s.variationTarget } := by
  have hcounted : varCount O s = setCountdown s (countDown s.variationCountdown) :=
    if_neg (Bool.eq_false_iff.mp hcount)
  rw [varOp, if_pos h, hcounted]
  rfl

theorem varOp_drawing (h : variationActive O.num s.P.variationPct = true)
    (hcount : countExpired (countDown s.variationCountdown) = true) :
    varOp O s = { s with
      rngState := (O.rng.next s.rngState).1
      variationTarget := (O.rng.next s.rngState).2
      variationCountdown := storeInt (varPeriod O.num s.cfg.sampleRate)
      variationSmoothed := varSmooth O.num s.variationSmoothed (O.rng.next s.rngState).2 } := by
  have hdrawn : varCount O s = varDraw O s := if_pos hcount
  rw [varOp, if_pos h, hdrawn]
  rfl

end arms

/-- Settles O22: one arm of VAR for each clause, and the sign of the decremented countdown chooses between the last two. -/
theorem varResult : Obligations.VarResult := by
  intro s
  simp only [exec_var]
  refine ⟨fun h => ?inactive, fun h hpos => ?counting, fun h hexp => ?drawing⟩
  case inactive => exact congrArg _ (varOp_inactive h)
  case counting => exact congrArg _ (varOp_counting h (decide_eq_false hpos.not_ge))
  case drawing => exact congrArg _ (varOp_drawing h (decide_eq_true hexp))

/-! ### The range (R144) -/

/-- Settles O23: the machine's source is one of the lawful ones, which all draw from `[-1, 1]`, and the smoother does not
leave the interval between its state and its target. -/
theorem varKeepsRange : Obligations.VarKeepsRange :=
  ⟨fun s hsmoothed htarget =>
    ⟨_, exec_var s, varOp_smoothed_range hsmoothed htarget, varOp_target_range htarget⟩,
  fun _ _ _ hnum hlawful hsmoothed htarget =>
    ⟨_, rfl, varOp_smoothed_lawful hnum hlawful hsmoothed htarget, varOp_target_lawful hlawful htarget⟩⟩

/-! ### The default source (R146) -/

/-- Settles O24: no operation of a draw rounds. -/
theorem defaultDraws : Obligations.DefaultDraws := by
  refine ⟨rfl, fun s => ?_⟩
  rw [machineParams_next]
  dsimp only
  obtain ⟨hfin, hval⟩ := lcgValue_exact Config.freeValues.fns (lcgState s)
  have hscale : (2 : Int) ^ 126 * 8388608 = 2 ^ 149 := by norm_num
  exact ⟨lcgState_toNat s, hfin, by rw [hval, mul_assoc, hscale]⟩

/-! ### The smoother over the reals (R143) -/

theorem varSmooth_real (x t : ℝ) : varSmooth realNum x t = x + 2 / 1000 * (t - x) := by
  simp [varSmooth, realNum, realLit, Lit.decimal]

/-- A step of the smoother multiplies its distance from the target by 0.998. -/
theorem varSmooth_real_sub (x t : ℝ) : varSmooth realNum x t - t = (x - t) * (998 / 1000) := by
  rw [varSmooth_real]
  ring

/-- Settles O57, by induction on the number of steps. -/
theorem realSmootherIsOnePole : Obligations.RealSmootherIsOnePole := by
  intro x t n
  induction n generalizing x with
  | zero => simp [iter]
  | succ n ih =>
    calc iter (fun y => varSmooth realNum y t) n (varSmooth realNum x t)
        = t + (varSmooth realNum x t - t) * (998 / 1000) ^ n := ih _
      _ = t + (x - t) * (998 / 1000) ^ (n + 1) := by rw [varSmooth_real_sub, pow_succ', mul_assoc]

end Sys2Proof.Claims
end

section
/-! PROOFS. LFO, the oscillator: its result (R156), its ranges (R157, R159), and its phase over the reals (R159,
R160). -/

namespace Sys2Proof.Claims

open Sys2Proof Sys2Proof.Machine

/-! ### The wrap as a counted loop (R156) -/

/-- Where the phase first drops below 1 after `k` turns, and there are turns enough, the wrap ends there. -/
theorem phaseWrap_eq_iter {N : Num F} {k fuel : Nat} {x : F} (hfuel : k ≤ fuel)
    (hturns : ∀ j, j < k → N.le (N.lit .one) (iter (pTurn N) j x) = true)
    (hstop : N.le (N.lit .one) (iter (pTurn N) k x) = false) :
    phaseWrap N fuel x = some (iter (pTurn N) k x) := by
  induction k generalizing fuel x with
  | zero => exact phaseWrap_stop N fuel hstop
  | succ k ih =>
    obtain ⟨fuel, rfl⟩ := Nat.exists_eq_add_of_le' (Nat.le_of_add_left_le hfuel)
    have hone : N.le (N.lit .one) x = true := hturns 0 k.succ_pos
    rw [phaseWrap_turn N fuel hone]
    exact ih (Nat.le_of_succ_le_succ hfuel) (fun j hj => hturns (j + 1) (Nat.succ_lt_succ hj)) hstop

/-- Settles O25: the machine's turns are enough for `k`, so its wrap is `k` turns, and LFO stores what comes of them. -/
theorem lfoResult : Obligations.LfoResult := by
  intro s k hk hturns hstop
  have hphase : statePhase machineParams s = some (iter (pTurn M) k (pAdvance M s)) := by
    rw [statePhase, machineParams_wrapTurns]
    exact phaseWrap_eq_iter hk hturns hstop
  exact lfoOp_next.mpr ⟨_, hphase, rfl⟩

/-! ### The ranges (R157, R159) -/

/-- `x - 1` is small where `x` is in `[1, 1 + 2^-8]`, so the test of the wrap fails after one turn. -/
theorem one_not_le_turn (f : FreeFns) {x : F} (hx : within 0x3F800000 0x3F808000 x = true) :
    (binary32 f).le ((binary32 f).lit .one) (pTurn (binary32 f) x) = false := by
  have hturn : within 0x00000000 0x3B800000 (pTurn (binary32 f) x) = true :=
    sub_in f hx (within_lit (a := 0x3F800000) (by decide)) (by decide)
  rw [Bool.eq_false_iff]
  intro hle
  have hbig : f32Le 0x3F800000 0x3B800000 = true := f32Le_trans hle (Bool.and_eq_true_iff.mp hturn).2
  exact absurd hbig (by decide)

/-- From the phases LFO advances to on a legal state the wrap takes at most one turn (R159). -/
theorem phaseWrap_at_most_one_turn (f : FreeFns) {x p : F} (hx : within 0x00000000 0x3F808000 x = true) {n : Nat}
    (hp : phaseWrap (binary32 f) (n + 1) x = some p) : p = x ∨ p = pTurn (binary32 f) x := by
  cases hle : f32Le 0x3F800000 x with
  | false =>
    rw [phaseWrap_stop (binary32 f) (n + 1) hle] at hp
    exact .inl (Option.some.inj hp).symm
  | true =>
    have hone : within 0x3F800000 0x3F808000 x = true := by
      simp only [within, Bool.and_eq_true] at hx ⊢
      exact ⟨hle, hx.2⟩
    rw [phaseWrap_turn (binary32 f) n hle, ← pTurn, phaseWrap_stop (binary32 f) n (one_not_le_turn f hone)] at hp
    exact .inr (Option.some.inj hp).symm

/-- Settles O27: the wires are in range by the bounds of the rounded operations, the rate bounds the advance, and the
advance the wrap. -/
theorem lfoKeepsRange : Obligations.LfoKeepsRange := by
  intro s hrate hsnap hphase hsmoothed
  obtain ⟨-, hhz, -, -, -, hvar⟩ := (legalSnapshot_iff s.P).mp hsnap
  have hvmod : signedUnit (pVmod M s) = true := lfoVmod_range _ hsmoothed hvar
  have heff : within 0x3EC00000 0x41960000 (pRate M s) = true := lfoRate_range _ hhz hvmod
  have hadvance : within 0x00000000 0x3F808000 (pAdvance M s) = true := lfoAdvance_range _ hphase heff hrate
  obtain ⟨p, hp, hrange⟩ := statePhase_range hrate hsnap hsmoothed hphase
  have honce : p = pAdvance M s ∨ p = pTurn M (pAdvance M s) := by
    rw [statePhase, machineParams_wrapTurns] at hp
    exact phaseWrap_at_most_one_turn _ hadvance hp
  exact ⟨lfoStore machineParams s p, lfoOp_next.mpr ⟨p, hp, rfl⟩, hrange, honce, hvmod,
    lfoWave_range _ Config.freeValues.lawful hrange hvmod, heff⟩

/-! ### The wrap over the reals (R159, R160) -/

/-- Each turn leaves the fractional part alone, and a phase in `[0, 1)` is its own. -/
theorem phaseWrap_real_eq_fract {n : Nat} {x : ℝ} (h0 : 0 ≤ x) (h : x < n + 1) :
    phaseWrap realNum n x = some (Int.fract x) := by
  have hstop {m : Nat} {y : ℝ} (hy0 : 0 ≤ y) (hy : y < 1) : phaseWrap realNum m y = some (Int.fract y) := by
    rw [Int.fract_eq_self.mpr ⟨hy0, hy⟩]
    exact phaseWrap_stop realNum m (Bool.eq_false_iff.mpr ((realNum_le_one_iff y).not.mpr hy.not_ge))
  induction n generalizing x with
  | zero => exact hstop h0 (by simpa using h)
  | succ n ih =>
    rcases lt_or_ge x 1 with hlt | hge
    · exact hstop h0 hlt
    · push_cast at h
      rw [phaseWrap_turn realNum n ((realNum_le_one_iff x).mpr hge), realNum_sub_one,
        ih (by linarith) (by linarith), Int.fract_sub_one]

/-- Settles O58: the sum is below 2, so one turn is enough. -/
theorem realPhaseIsFractional : Obligations.RealPhaseIsFractional := by
  intro phase inc n hphase0 hphase1 hinc0 hinc1
  have hn : (0 : ℝ) ≤ n := n.cast_nonneg
  exact phaseWrap_real_eq_fract (by linarith) (by push_cast; linarith)

end Sys2Proof.Claims
end

section
/-! PROOFS. The delay line: DMOD (R171, R172), DWR (R175), DRD and its interpolator (R177, R179, R180), WADV (R181). -/

namespace Sys2Proof.Claims

open Sys2Proof Sys2Proof.Machine

/-! ### Equality and zeros in binary32 (R23) -/

/-- Between `y` and `y` lies `y` alone, as a number; a NaN is on neither side (R23). -/
theorem f32Eq_iff_within (x y : F) : f32Eq x y = true ↔ within y y x = true := by
  simp only [f32Eq, within, f32Le, Bool.and_eq_true, decide_eq_true_eq]
  constructor
  · rintro ⟨⟨hx, hy⟩, hord⟩
    exact ⟨⟨⟨hy, hx⟩, hord.ge⟩, ⟨hx, hy⟩, hord.le⟩
  · rintro ⟨⟨-, hge⟩, hnum, hle⟩
    exact ⟨hnum, le_antisymm hle hge⟩

theorem pZero_value {x : F} (h : pZero x) : f32Finite x = true ∧ f32Val x = 0 := by
  obtain ⟨hfin, hlo, hhi⟩ := finite_bounds ((f32Eq_iff_within x 0x00000000).mp h) (by decide) (by decide)
  exact ⟨hfin, le_antisymm hhi hlo⟩

/-- No gate opens on a zero (R23, R40). -/
theorem numPos_of_pZero (f : FreeFns) {x : F} (h : pZero x) : numPos (binary32 f) x = false := by
  obtain ⟨hfin, hval⟩ := pZero_value h
  rw [Bool.eq_false_iff]
  intro hpos
  have hlt : f32Val 0x00000000 < f32Val x := (f32Lt_iff (by decide) hfin).mp hpos
  exact absurd hlt (by rw [hval]; decide)

/-! ### DMOD (R171, R172) -/

theorem pDelayMod_eq (N : Num F) (s : State) : pDelayMod N s =
    delayMod N s.P.pitchCents s.cfg.sampleRate s.envelope s.wires.vmod s.wires.effectiveRate s.wires.lfo := by
  simp only [pDelayMod, delayMod, pitchActive, numPos, Bool.and_eq_true]
  rfl

/-- Settles O28: `delayMod` opens its gate where R171 does, and clamps alike. -/
theorem dmodResult : Obligations.DmodResult := by
  intro s
  rw [exec_dmod, pDelayMod_eq]
  rfl

/-- With no offset the delay is `BASE_DELAY` (R171). -/
theorem totalDelayOf_zero (f : FreeFns) : totalDelayOf (binary32 f) 0x00000000 = 0x44800000 := by
  have hsum : f32Add f 0x44800000 0x00000000 = 0x44800000 :=
    (f32Add_eq f (by decide) (by decide)).trans (by decide +kernel)
  simp only [totalDelayOf, binary32_add, binary32_lit, f32Lit]
  rw [hsum]
  rfl

/-- A zero pitch depth closes the gate, whatever the other operands are (R171 case (a)). -/
theorem delayMod_of_pZero (f : FreeFns) {cents : F} (h : pZero cents) (rate env vmod eff lfo : F) :
    delayMod (binary32 f) cents rate env vmod eff lfo = 0x00000000 := by
  simp [delayMod, pitchActive, numPos_of_pZero f h, f32Lit]

theorem dmodOp_totalDelay_of_pZero {s : State} (h : pZero s.P.pitchCents) :
    (dmodOp machineParams s).wires.totalDelay = 0x44800000 := by
  simp only [dmodOp, setWires_wires, wireDelay_totalDelay, machineParams_num]
  rw [delayMod_of_pZero _ h, totalDelayOf_zero]

/-- Settles O29: the gate is closed, and 1024 + 0 is exact. -/
theorem dmodGateClosed : Obligations.DmodGateClosed :=
  fun s h => ⟨_, exec_dmod s, dmodOp_totalDelay_of_pZero h⟩

/-- Settles O30: the offset is finite, which the bounds of its rounded operations and NP-EXP2 give, and the clamp does the
rest. -/
theorem dmodKeepsRange : Obligations.DmodKeepsRange := by
  intro s hrate hsnap henv hvmod hlfo heff
  obtain ⟨-, -, hcents, -⟩ := (legalSnapshot_iff s.P).mp hsnap
  exact ⟨_, exec_dmod s, totalDelayOf_range _
    (delayMod_finite _ Config.freeValues.lawful hcents hrate henv hvmod heff hlfo)⟩

/-! ### DWR (R175) -/

/-- Settles O31: DWR is one `MemWrite`. -/
theorem dwrResult : Obligations.DwrResult := by
  intro c s hwf
  refine ⟨_, exec_dwr s c, rfl, memoryWf_memWrite hwf c _ _, fun d j => ?_⟩
  split
  next h =>
    obtain ⟨rfl, hj⟩ := h
    exact memRead_memWrite_same hwf d _ _ hj
  next h => exact memRead_memWrite_other s c d _ _ (not_and_or.mp h)

/-! ### WADV (R181) -/

/-- Settles O35: adding 1 to a 12-bit index is adding 1 modulo 4096. -/
theorem wadvResult : Obligations.WadvResult := by
  intro s
  have hadv : s.writePos + 1 = BitVec.ofNat 12 ((s.writePos.toNat + 1) % 4096) := by
    apply BitVec.eq_of_toNat_eq
    simp [BitVec.toNat_add]
  rw [exec_wadv, wadvOp, hadv]
  rfl

/-! ### The interpolator over the reals (R179, R180) -/

/-- R177's polynomial with its coefficients written out. -/
theorem interpolate_real (ym1 y0 y1 y2 frac : ℝ) : interpolate realNum ym1 y0 y1 y2 frac =
    (((1 / 2 * (y2 - ym1) + 3 / 2 * (y0 - y1)) * frac + (ym1 - 5 / 2 * y0 + 2 * y1 - 1 / 2 * y2)) * frac
      + 1 / 2 * (y1 - ym1)) * frac + y0 := by
  simp only [interpolate, cubic1, cubic2, cubic3, realNum, realLit, Lit.decimal]
  norm_num

/-- Settles O59: identities of polynomials in the taps and the fraction. -/
theorem realInterpolatorProperties : Obligations.RealInterpolatorProperties := by
  refine ⟨fun _ _ _ _ _ => rfl, fun ym1 y0 y1 y2 => ⟨?at0, ?at1⟩, fun a b c frac => ?quadratic⟩
  all_goals
    rw [interpolate_real]
    ring

/-! ### DRD (R177) -/

theorem pDelayed_eq (O : OpenParams F (BitVec 32)) (s : State) (c : Lane) :
    pDelayed O.num s c = readAt O s c (readPos O.num s.writePos s.wires.totalDelay) := rfl

theorem pDelayed_eq_interpolate (N : Num F) (s : State) (c : Lane) : pDelayed N s c =
    interpolate N (memRead s c (pIndex N s - 1)) (memRead s c (pIndex N s)) (memRead s c (pIndex N s + 1))
      (memRead s c (pIndex N s + 2)) (N.sub (pReadPos N s) (N.ofInt (pIndex N s))) := rfl

theorem pReadPos_eq (N : Num F) (s : State) : pReadPos N s = readPos N s.writePos s.wires.totalDelay := rfl

theorem pIndex_eq (N : Num F) (s : State) : pIndex N s = N.floorInt (pReadPos N s) := rfl

theorem drdOp_delayed (c : Lane) (s : State) : (drdOp machineParams c s).wires.delayed.get c = pDelayed M s c := by
  rw [drdOp, setWires_wires, wireDelayed_delayed, PerLane.get_set_same, pDelayed_eq]

/-- Settles O32: `readAt` is the polynomial of R177 at the taps `MemRead` gives. -/
theorem drdResult : Obligations.DrdResult := by
  intro c s
  rw [exec_drd, drdOp, pDelayed_eq]
  rfl

/-! ### The interpolator at a zero fraction (R179)

Tame taps give finite coefficients (R284), and a finite coefficient times a zero is a zero. -/

section tap
variable (f : FreeFns) {ym1 y0 y1 y2 frac : F}

theorem cubic1_finite (hm1 : pTame ym1) (h1 : pTame y1) : f32Finite (cubic1 (binary32 f) ym1 y1) = true := by
  have hdiff : within 0xF2000000 0x72000000 (f32Sub f y1 ym1) = true := sub_in f h1 hm1 (by decide)
  have hcoef : within 0xF1800000 0x71800000 (cubic1 (binary32 f) ym1 y1) = true :=
    mul_in f (within_lit (a := 0x3F000000) (by decide)) hdiff (by decide)
  exact (finite_bounds hcoef (by decide) (by decide)).1

theorem cubic2_finite (hm1 : pTame ym1) (h0 : pTame y0) (h1 : pTame y1) (h2 : pTame y2) :
    f32Finite (cubic2 (binary32 f) ym1 y0 y1 y2) = true := by
  have hmul0 : within 0xF2800000 0x72800000 (f32Mul f 0x40200000 y0) = true :=
    mul_in f (within_lit (by decide)) h0 (by decide)
  have hdiff : within 0xF3000000 0x73000000 (f32Sub f ym1 (f32Mul f 0x40200000 y0)) = true :=
    sub_in f hm1 hmul0 (by decide)
  have hmul1 : within 0xF2000000 0x72000000 (f32Mul f 0x40000000 y1) = true :=
    mul_in f (within_lit (by decide)) h1 (by decide)
  have hsum : within 0xF3800000 0x73800000
      (f32Add f (f32Sub f ym1 (f32Mul f 0x40200000 y0)) (f32Mul f 0x40000000 y1)) = true :=
    add_in f hdiff hmul1 (by decide)
  have hmul2 : within 0xF1800000 0x71800000 (f32Mul f 0x3F000000 y2) = true :=
    mul_in f (within_lit (by decide)) h2 (by decide)
  have hcoef : within 0xF4000000 0x74000000 (cubic2 (binary32 f) ym1 y0 y1 y2) = true :=
    sub_in f hsum hmul2 (by decide)
  exact (finite_bounds hcoef (by decide) (by decide)).1

theorem cubic3_finite (hm1 : pTame ym1) (h0 : pTame y0) (h1 : pTame y1) (h2 : pTame y2) :
    f32Finite (cubic3 (binary32 f) ym1 y0 y1 y2) = true := by
  have houter : within 0xF2000000 0x72000000 (f32Sub f y2 ym1) = true := sub_in f h2 hm1 (by decide)
  have hmulo : within 0xF1800000 0x71800000 (f32Mul f 0x3F000000 (f32Sub f y2 ym1)) = true :=
    mul_in f (within_lit (by decide)) houter (by decide)
  have hinner : within 0xF2000000 0x72000000 (f32Sub f y0 y1) = true := sub_in f h0 h1 (by decide)
  have hmuli : within 0xF2800000 0x72800000 (f32Mul f 0x3FC00000 (f32Sub f y0 y1)) = true :=
    mul_in f (within_lit (by decide)) hinner (by decide)
  have hcoef : within 0xF3000000 0x73000000 (cubic3 (binary32 f) ym1 y0 y1 y2) = true :=
    add_in f hmulo hmuli (by decide)
  exact (finite_bounds hcoef (by decide) (by decide)).1

/-- A Horner step at a zero fraction forgets the finite value so far: it gives the next coefficient. -/
theorem horner_of_pZero {a b : F} (hz : pZero frac) (ha : f32Finite a = true) (hb : f32Finite b = true) :
    within b b (f32Add f (f32Mul f a frac) b) = true := by
  obtain ⟨hzfin, hz0⟩ := pZero_value hz
  have hprod : within 0x00000000 0x00000000 (f32Mul f a frac) = true :=
    mul_within f ha hzfin (by decide) (by decide) (by rw [hz0, f32Val_zero]; simp) (by rw [hz0, f32Val_zero]; simp)
  obtain ⟨hpfin, hlo, hhi⟩ := finite_bounds hprod (by decide) (by decide)
  rw [f32Val_zero] at hlo hhi
  exact add_within f hpfin hb hb hb (by omega) (by omega)

/-- At a zero fraction each Horner step keeps the last coefficient alone, and the last of all is the tap `y0`. -/
theorem interpolate_of_pZero (hm1 : pTame ym1) (h0 : pTame y0) (h1 : pTame y1) (h2 : pTame y2) (hz : pZero frac) :
    within y0 y0 (interpolate (binary32 f) ym1 y0 y1 y2 frac) = true := by
  have hc0 : f32Finite y0 = true := (finite_bounds h0 (by decide) (by decide)).1
  have hc1 := cubic1_finite f hm1 h1
  have hc2 := cubic2_finite f hm1 h0 h1 h2
  have hstep2 := horner_of_pZero f hz (cubic3_finite f hm1 h0 h1 h2) hc2
  have hstep1 := horner_of_pZero f hz (finite_bounds hstep2 hc2 hc2).1 hc1
  simp only [interpolate, binary32_add, binary32_mul]
  exact horner_of_pZero f hz (finite_bounds hstep1 hc1 hc1).1 hc0

end tap

/-- With a zero fraction and four tame taps DRD's sample is the word at the integer part of the read position. -/
theorem pDelayed_of_pZero_frac (f : FreeFns) {c : Lane} {s : State}
    (htaps : ∀ k : Int, -1 ≤ k → k ≤ 2 → pTame (memRead s c (pIndex (binary32 f) s + k)))
    (hfrac : pZero ((binary32 f).sub (pReadPos (binary32 f) s) ((binary32 f).ofInt (pIndex (binary32 f) s)))) :
    f32Eq (pDelayed (binary32 f) s c) (memRead s c (pIndex (binary32 f) s)) = true := by
  have h0 : pTame (memRead s c (pIndex (binary32 f) s)) := by simpa using htaps 0 (by decide) (by decide)
  rw [f32Eq_iff_within, pDelayed_eq_interpolate, sub_eq_add_neg]
  exact interpolate_of_pZero f (htaps (-1) (by decide) (by decide)) h0 (htaps 1 (by decide) (by decide))
    (htaps 2 (by decide) (by decide)) hfrac

/-- Settles O33: the interpolator's own zero-fraction rule, and DRD's sample as an interpolation of four tame taps. -/
theorem zeroFractionReturnsTap : Obligations.ZeroFractionReturnsTap := by
  refine ⟨fun ym1 y0 y1 y2 frac hm1 h0 h1 h2 hz => ?interpolator, fun c s htame hfrac => ⟨_, exec_drd s c, ?drd⟩⟩
  case interpolator => exact (f32Eq_iff_within _ _).mpr (interpolate_of_pZero _ hm1 h0 h1 h2 hz)
  case drd =>
    rw [drdOp_delayed]
    exact pDelayed_of_pZero_frac _ (fun k _ _ => htame _) hfrac

/-! ### Integers in binary32 -/

/-- `x` is the integer `n`, exactly. -/
def HoldsInt (x : F) (n : Int) : Prop := f32Finite x = true ∧ f32Val x = n * 2 ^ 149

theorem exists_holdsInt {n : Int} (hn : n.natAbs < 2 ^ 24) : ∃ y : F, HoldsInt y n := by
  obtain ⟨y, hy, hval⟩ := exists_scaled hn (k := 149) (by norm_num) (by norm_num)
  rcases Int.natAbs_eq n with hpos | hneg
  · exact ⟨y, hy, by rw [hval, ← hpos]⟩
  · exact ⟨f32Flip y, by rw [f32Finite_flip, hy], by rw [f32Val_flip, hval, ← neg_mul, ← hneg]⟩

theorem HoldsInt.of_within {x y : F} {n : Int} (hy : HoldsInt y n) (h : within y y x = true) : HoldsInt x n := by
  obtain ⟨hx, hlo, hhi⟩ := finite_bounds h hy.1 hy.1
  exact ⟨hx, (le_antisymm hhi hlo).trans hy.2⟩

theorem holdsInt_ofInt {n : Nat} (hn : n < 2 ^ 24) : HoldsInt (f32OfInt n) n := f32OfInt_value hn

section integers
variable (f : FreeFns) {x y : F} {m n : Int}

/-- A difference of integers that has 24 bits is not rounded. -/
theorem HoldsInt.sub (hx : HoldsInt x m) (hy : HoldsInt y n) (h : (m - n).natAbs < 2 ^ 24) :
    HoldsInt (f32Sub f x y) (m - n) := by
  obtain ⟨z, hz⟩ := exists_holdsInt h
  have hval : f32Val z = f32Val x - f32Val y := by rw [hx.2, hy.2, hz.2, sub_mul]
  exact hz.of_within (sub_within f hx.1 hy.1 hz.1 hz.1 hval.le hval.ge)

theorem HoldsInt.add (hx : HoldsInt x m) (hy : HoldsInt y n) (h : (m + n).natAbs < 2 ^ 24) :
    HoldsInt (f32Add f x y) (m + n) := by
  obtain ⟨z, hz⟩ := exists_holdsInt h
  have hval : f32Val z = f32Val x + f32Val y := by rw [hx.2, hy.2, hz.2, add_mul]
  exact hz.of_within (add_within f hx.1 hy.1 hz.1 hz.1 hval.le hval.ge)

theorem HoldsInt.floor (hx : HoldsInt x n) : f32Floor f x = n := by
  rw [f32Floor, if_pos hx.1, hx.2, Int.mul_ediv_cancel _ (by positivity)]

theorem HoldsInt.isZero (hx : HoldsInt x 0) : pZero x :=
  (f32Eq_iff hx.1 (by decide)).mpr hx.2

theorem HoldsInt.lt_zero_iff (hx : HoldsInt x n) : f32Lt x 0x00000000 = true ↔ n < 0 := by
  have hval : f32Val (0x00000000 : F) = 0 := rfl
  rw [f32Lt_iff hx.1 (by decide), hx.2, hval]
  constructor <;> intro h <;> omega

end integers

/-! ### The dry read (R179) -/

/-- At a delay of 1024 the read position is the index 1024 places behind `writePos`, exactly: neither the difference nor
the conditional addition rounds. -/
theorem readPos_baseDelay (f : FreeFns) (w : BitVec 12) :
    HoldsInt (readPos (binary32 f) w 0x44800000) (w - 1024).toNat := by
  have hw := w.isLt
  have hdiff : HoldsInt (f32Sub f (f32OfInt w.toNat) 0x44800000) (w.toNat - 1024) :=
    (holdsInt_ofInt (by omega)).sub f (show HoldsInt 0x44800000 1024 from ⟨by decide, by decide⟩) (by omega)
  unfold readPos
  split
  next hneg =>
    simp only [binary32_lt, binary32_sub, binary32_add, binary32_ofInt, binary32_lit, f32Lit] at hneg ⊢
    rw [hdiff.lt_zero_iff] at hneg
    have hsum := hdiff.add f (show HoldsInt 0x45800000 4096 from ⟨by decide, by decide⟩) (by omega)
    have hidx : ((w - 1024).toNat : Int) = w.toNat - 1024 + 4096 := by bv_omega
    rwa [hidx]
  next hnonneg =>
    simp only [binary32_lt, binary32_sub, binary32_ofInt, binary32_lit, f32Lit] at hnonneg ⊢
    rw [hdiff.lt_zero_iff] at hnonneg
    have hidx : ((w - 1024).toNat : Int) = w.toNat - 1024 := by bv_omega
    rwa [hidx]

section baseDelay
variable (f : FreeFns) {s : State}

theorem pReadPos_baseDelay (h : s.wires.totalDelay = 0x44800000) :
    HoldsInt (pReadPos (binary32 f) s) (s.writePos - 1024).toNat := by
  rw [pReadPos_eq, h]
  exact readPos_baseDelay f s.writePos

theorem pIndex_baseDelay (h : s.wires.totalDelay = 0x44800000) :
    pIndex (binary32 f) s = (s.writePos - 1024).toNat := by
  rw [pIndex_eq, binary32_floorInt]
  exact (pReadPos_baseDelay f h).floor f

/-- An integer has no fraction. -/
theorem frac_baseDelay (h : s.wires.totalDelay = 0x44800000) :
    pZero ((binary32 f).sub (pReadPos (binary32 f) s) ((binary32 f).ofInt (pIndex (binary32 f) s))) := by
  have hlt := (s.writePos - 1024).isLt
  have hfrac := (pReadPos_baseDelay f h).sub f (holdsInt_ofInt (n := (s.writePos - 1024).toNat) (by omega)) (by simp)
  rw [sub_self] at hfrac
  rw [pIndex_baseDelay f h, binary32_sub, binary32_ofInt]
  exact hfrac.isZero

end baseDelay

/-- The taps around the index 1024 places behind `writePos` are not the word at `writePos`. -/
theorem maskIndex_tap_ne (w : BitVec 12) {k : Int} (hlo : -1 ≤ k) (hhi : k ≤ 2) :
    maskIndex ((w - 1024).toNat + k) ≠ w.toNat := by
  have hw := w.isLt
  simp only [maskIndex, BitVec.toNat_ofInt, BitVec.toNat_sub, BitVec.ofNat_eq_ofNat, BitVec.toNat_ofNat]
  omega

/-- The index of the word 1024 places behind `writePos`, with the borrow and without it (R72). -/
theorem maskIndex_baseDelay (w : BitVec 12) : maskIndex (w - 1024).toNat = maskIndex ((w.toNat : Int) - 1024) := by
  have hw := w.isLt
  simp only [maskIndex, BitVec.toNat_ofInt, BitVec.toNat_sub, BitVec.ofNat_eq_ofNat, BitVec.toNat_ofNat]
  omega

theorem maskIndex_baseDelay_ne (w : BitVec 12) : maskIndex ((w.toNat : Int) - 1024) ≠ w.toNat := by
  rw [← maskIndex_baseDelay]
  simpa using maskIndex_tap_ne w (k := 0) (by decide) (by decide)

/-- At a delay of 1024 DRD's sample is the word 1024 places behind `writePos`, whatever the word at `writePos` is. -/
theorem pDelayed_baseDelay {c : Lane} {s : State} (h : s.wires.totalDelay = 0x44800000)
    (htame : ∀ j : Int, maskIndex j ≠ s.writePos.toNat → pTame (memRead s c j)) :
    f32Eq (pDelayed M s c) (memRead s c ((s.writePos.toNat : Int) - 1024)) = true := by
  rw [M, machineParams_num]
  generalize Config.freeValues.fns = f
  have htaps (k : Int) (hlo : -1 ≤ k) (hhi : k ≤ 2) : pTame (memRead s c (pIndex (binary32 f) s + k)) := by
    rw [pIndex_baseDelay f h]
    exact htame _ (maskIndex_tap_ne s.writePos hlo hhi)
  have htap := pDelayed_of_pZero_frac f htaps (frac_baseDelay f h)
  rwa [pIndex_baseDelay f h, memRead_of_maskIndex_eq s c (maskIndex_baseDelay s.writePos)] at htap

/-- Settles O34: the read position is an integer, so the fraction is 0. -/
theorem dryReadIsTheOldSample : Obligations.DryReadIsTheOldSample := by
  intro c s hdelay htame
  refine ⟨_, exec_drd s c, ?_⟩
  rw [drdOp_delayed]
  exact pDelayed_baseDelay hdelay fun j _ => htame j

end Sys2Proof.Claims
end

section
/-! PROOFS. The dry path (R233): with zero depths a STEP returns each lane's word 1024 places back. -/

namespace Sys2Proof.Claims

open Sys2Proof Sys2Proof.Machine

/-! ### A STEP up to the lanes -/

theorem lanesOfCount_of_pFrameOk {frame : List F} (h : pFrameOk frame) :
    ∃ lanes, lanesOfCount frame.length = some lanes := by
  rcases h.1 with hlen | hlen
  · exact ⟨[.lane0], by rw [hlen]; rfl⟩
  · exact ⟨[.lane0, .lane1], by rw [hlen]; rfl⟩

theorem admitFrame_of_pFrameOk {frame : List F} (h : pFrameOk frame) : admitFrame machineParams.num frame = true :=
  List.all_eq_true.mpr h.2

/-- On registers in range a READY block completes a STEP: the wrap of the phase, the one thing that can stop it, ends.
What the slots up to LFO hand on is in range again, with the memory, `writePos` and the snapshot as they were. -/
theorem step_completes {frame : List F} {s : State} (h : InRange s) (hready : pReady s) (hframe : pFrameOk frame) :
    ∃ lanes v, lanesOfCount frame.length = some lanes ∧ InRange v ∧ signedUnit v.wires.lfo = true
      ∧ v.delayBuffer = s.delayBuffer ∧ v.writePos = s.writePos ∧ v.P = s.P
      ∧ exec (.step frame) s =
          .next (finishStep (machineParams.num.lit .zero) lanes (afterLfo machineParams lanes v)) := by
  obtain ⟨lanes, hlanes⟩ := lanesOfCount_of_pFrameOk hframe
  have hstart : InRange (setWires s (frameWires (machineParams.num.lit .zero) frame)) :=
    ⟨h.rate, h.snapshot, h.engine⟩
  have hvar := hstart.env.var
  obtain ⟨-, hphase, hsmoothed, -⟩ := hvar.engine
  obtain ⟨-, -, -, -, -, hpct⟩ := (legalSnapshot_iff _).mp hvar.snapshot
  obtain ⟨p, hp, hrange⟩ := statePhase_range hvar.rate hvar.snapshot hsmoothed hphase
  have hstep := stepOp_next.mpr ⟨lanes, p, hlanes, hready.1, hready.2, admitFrame_of_pFrameOk hframe, hp, rfl⟩
  exact ⟨lanes, _, hlanes, hvar.lfo hp,
    lfoWave_range _ Config.freeValues.lawful hrange (lfoVmod_range _ hsmoothed hpct),
    by simp, by simp, by simp, hstep⟩

/-! ### The lanes, and the outputs they return -/

section lanes
variable {α σ : Type} [DecidableEq α] [Inhabited α] (O : OpenParams α σ) {c : Lane} {lanes : List Lane}

theorem foldLanes_unseen (h : c ∉ lanes) (s : Gen.State α σ) :
    laneView c (lanes.foldl (laneOps O) s) = laneView c s := by
  induction lanes generalizing s with
  | nil => rfl
  | cons d rest ih =>
    rw [List.mem_cons, not_or] at h
    exact (ih h.2 _).trans (laneOps_unseen O (Ne.symm h.1) s)

/-- Of the lanes that run a lane sees its own slots alone. -/
theorem foldLanes_laneView (hnodup : lanes.Nodup) (hc : c ∈ lanes) (s : Gen.State α σ) :
    laneView c (lanes.foldl (laneOps O) s) = laneView c (laneOps O s c) := by
  induction lanes generalizing s with
  | nil => nomatch hc
  | cons d rest ih =>
    rw [List.nodup_cons] at hnodup
    by_cases hd : c = d
    · subst hd
      exact foldLanes_unseen O hnodup.1 _
    · exact (ih hnodup.2 ((List.mem_cons.mp hc).resolve_left hd) _).trans
        ((laneOps_keepsLaneView O).eq (laneOps_unseen O (Ne.symm hd) s))

/-- With the formant gate closed a lane's output is its delayed sample times TREM's gain (R205, R231). -/
theorem laneOps_out_of_gate_closed {s : Gen.State α σ}
    (h : formantActive O.num s.P.formantPct s.envelope = false) (c : Lane) :
    (laneOps O s c).wires.out.get c = O.num.mul ((drdOp O c (dwrOp c s)).wires.delayed.get c)
      (ampMod O.num s.P.amplitudePct s.envelope s.wires.lfo) := by
  have hmix : fmixOp O c (drdOp O c (dwrOp c s)) = setWires (drdOp O c (dwrOp c s))
      (wireProcessed (drdOp O c (dwrOp c s)).wires c ((drdOp O c (dwrOp c s)).wires.delayed.get c)) :=
    if_neg (Bool.eq_false_iff.mp h)
  rw [laneOps, hmix]
  simp [tremOp, drdOp]

end lanes

theorem nodup_of_lanesOfCount {n : Nat} {lanes : List Lane} (h : lanesOfCount n = some lanes) : lanes.Nodup := by
  unfold lanesOfCount at h
  split at h
  next => cases h; decide
  next => cases h; decide
  next => nomatch h

/-- A STEP returns the output of each lane that runs in the lane's place. -/
theorem pOut_finishStep_of_mem {n : Nat} {lanes : List Lane} (h : lanesOfCount n = some lanes) {c : Lane}
    (hc : c ∈ lanes) (z : F) (s : State) : pOut (finishStep z lanes s).response c = s.wires.out.get c := by
  unfold lanesOfCount at h
  split at h
  next =>
    cases h
    obtain rfl : c = .lane0 := by simpa using hc
    rfl
  next =>
    cases h
    exact pOut_finishStep z c s
  next => nomatch h

/-! ### The dry lane -/

/-- A zero amplitude depth makes TREM's gain 1 (R231 case (a)). -/
theorem ampMod_of_pZero (f : FreeFns) {pct env lfo : F} (hpct : pZero pct) (henv : unitRange env = true)
    (hlfo : signedUnit lfo = true) : within 0x3F800000 0x3F800000 (ampMod (binary32 f) pct env lfo) = true := by
  have hamount : within 0x00000000 0x00000000 (f32Div f pct 0x42C80000) = true :=
    div_in f ((f32Eq_iff_within _ _).mp hpct) (within_lit (by decide)) (by decide)
  have hdepth : within 0x00000000 0x00000000 (f32Mul f (f32Div f pct 0x42C80000) env) = true :=
    mul_in f hamount henv (by decide)
  have hswing : within 0x00000000 0x40000000 (f32Sub f 0x3F800000 lfo) = true :=
    sub_in f (within_lit (by decide)) hlfo (by decide)
  have hprod : within 0x00000000 0x00000000
      (f32Mul f (f32Mul f (f32Div f pct 0x42C80000) env) (f32Sub f 0x3F800000 lfo)) = true :=
    mul_in f hdepth hswing (by decide)
  have hhalf : within 0x00000000 0x00000000
      (f32Mul f (f32Mul f (f32Mul f (f32Div f pct 0x42C80000) env) (f32Sub f 0x3F800000 lfo)) 0x3F000000) = true :=
    mul_in f hprod (within_lit (by decide)) (by decide)
  exact sub_in f (within_lit (a := 0x3F800000) (by decide)) hhalf (by decide)

/-- A multiplication by 1 does not round. -/
theorem mul_within_of_one (f : FreeFns) {x y g : F} (hy : f32Finite y = true) (hx : within y y x = true)
    (hg : within 0x3F800000 0x3F800000 g = true) : within y y (f32Mul f x g) = true := by
  obtain ⟨hxfin, hxlo, hxhi⟩ := finite_bounds hx hy hy
  obtain ⟨hgfin, hglo, hghi⟩ := finite_bounds hg (by decide) (by decide)
  have hprod : f32Val y * 2 ^ 149 = f32Val x * f32Val g := by
    rw [le_antisymm hxhi hxlo, le_antisymm hghi hglo, f32Val_one]
  exact mul_within f hxfin hgfin hy hy hprod.le hprod.ge

/-- The slots of a lane with zero depths and a delay of 1024 output the word 1024 places behind `writePos`: DWR stores at
`writePos`, out of reach of the taps. -/
theorem laneOps_out_dry {s : State} {c : Lane} (hdelay : s.wires.totalDelay = 0x44800000)
    (hformant : pZero s.P.formantPct) (hamp : pZero s.P.amplitudePct) (henv : unitRange s.envelope = true)
    (hlfo : signedUnit s.wires.lfo = true) (htame : ∀ j : Int, pTame (memRead s c j)) :
    f32Eq ((laneOps machineParams s c).wires.out.get c) (memRead s c ((s.writePos.toNat : Int) - 1024)) = true := by
  have hgate : formantActive machineParams.num s.P.formantPct s.envelope = false := by
    rw [machineParams_num, formantActive, numPos_of_pZero _ hformant, Bool.false_and]
  have hold {j : Int} (hj : maskIndex j ≠ s.writePos.toNat) : memRead (dwrOp c s) c j = memRead s c j :=
    memRead_memWrite_other s c c _ _ (.inr hj)
  have hread := pDelayed_baseDelay (c := c) (s := dwrOp c s) hdelay fun j hj => by
    rw [hold hj]
    exact htame j
  rw [f32Eq_iff_within, dwrOp_writePos, hold (maskIndex_baseDelay_ne s.writePos)] at hread
  have hword := finite_bounds (htame ((s.writePos.toNat : Int) - 1024)) (by decide) (by decide)
  rw [laneOps_out_of_gate_closed machineParams hgate, drdOp_delayed, f32Eq_iff_within, machineParams_num, binary32_mul]
  rw [M, machineParams_num] at hread
  exact mul_within_of_one _ hword.1 hread (ampMod_of_pZero _ hamp henv hlfo)

/-- Settles O41: the gates of DMOD and FMIX are closed and TREM's gain is 1, so a lane outputs what DRD reads at a delay of
1024. -/
theorem dryPathIsPureDelay : Obligations.DryPathIsPureDelay := by
  intro frame s hinv hready hframe hpitch hformant hamp htame
  obtain ⟨-, hprepared, hvalid⟩ := hinv
  have hrange : InRange s := ⟨(hprepared hready.1).1, hvalid hready.2, (hprepared hready.1).2⟩
  obtain ⟨lanes, v, hlanes, hv, hlfo, hmem, hpos, hP, hstep⟩ := step_completes hrange hready hframe
  rw [← hP] at hpitch hformant hamp
  refine ⟨_, hstep, fun c hc => ?_⟩
  have hrun : c ∈ lanes := (mem_lanesOfCount hlanes c).mpr hc
  have hread (j : Int) : memRead (fcoefOp machineParams (dmodOp machineParams v)) c j = memRead s c j :=
    memRead_congr (by simp [hmem]) c j
  have hout := laneOps_out_dry (s := fcoefOp machineParams (dmodOp machineParams v)) (c := c)
    (by simpa using dmodOp_totalDelay_of_pZero hpitch) (by simpa using hformant) (by simpa using hamp)
    (by simpa using hv.engine.1) (by simpa [dmodOp] using hlfo) fun j => hread j ▸ htame c j
  rw [hread, fcoefOp_writePos, dmodOp_writePos, hpos] at hout
  have hview := foldLanes_laneView machineParams (nodup_of_lanesOfCount hlanes) hrun
    (fcoefOp machineParams (dmodOp machineParams v))
  rw [pOut_finishStep_of_mem hlanes hrun, afterLfo, wadvOp_wires, (eq_of_laneView_eq hview).1]
  exact hout

end Sys2Proof.Claims
end

section
/-! PROOFS. The formant filters: FCOEF's result and its schedule (R201, R202), FMIX's result (R205, R207). -/

namespace Sys2Proof.Claims

open Sys2Proof Sys2Proof.Machine

/-! ### The two arms of FCOEF (R201) -/

section arms
variable {α σ : Type} {O : OpenParams α σ} {s : Gen.State α σ}

theorem fcoefOp_counting (h : countExpired (countDown s.formantUpdateCounter) = false) :
    fcoefOp O s = { s with formantUpdateCounter := countDown s.formantUpdateCounter } :=
  if_neg (Bool.eq_false_iff.mp h)

theorem fcoefOp_refreshing (h : countExpired (countDown s.formantUpdateCounter) = true) :
    fcoefOp O s = { s with filt := refreshBanks O s, formantUpdateCounter := storeInt fcoefPeriod } :=
  if_pos h

end arms

/-- `refreshBanks` writes R201's coefficients into both lanes. -/
theorem refreshBanks_eq_pRefreshed (O : OpenParams F (BitVec 32)) (s : State) :
    refreshBanks O s = { l0 := pRefreshed O.num s s.filt.l0, l1 := pRefreshed O.num s s.filt.l1 } := rfl

/-- Settles O36: the sign of the decremented counter chooses the arm. -/
theorem fcoefResult : Obligations.FcoefResult := by
  intro s
  rw [exec_fcoef]
  refine ⟨fun hpos => ?counting, fun hexp => ?refreshing⟩
  case counting => exact congrArg _ (fcoefOp_counting (decide_eq_false hpos.not_ge))
  case refreshing =>
    rw [fcoefOp_refreshing (decide_eq_true hexp), refreshBanks_eq_pRefreshed]
    rfl

/-! ### FMIX (R205, R207) -/

theorem formantActive_iff (s : State) : formantActive M s.P.formantPct s.envelope = true ↔ pFormantActive M s :=
  Bool.and_eq_true_iff

theorem tickOut_eq_pTick (N : Num F) (x : F) (k : Machine.Filter F) : tickOut N x k = (pTick N k x).1 := rfl

theorem tickNext_eq_pTick (N : Num F) (x : F) (k : Machine.Filter F) : tickNext N x k = (pTick N k x).2 := rfl

/-- Settles O38: one arm of FMIX for each side of the gate, and the open one ticks the filters as R207 does. -/
theorem fmixResult : Obligations.FmixResult := by
  intro c s
  rw [exec_fmix, fmixOp]
  refine ⟨fun hopen => ?_, fun hclosed => ?_⟩
  · rw [if_pos ((formantActive_iff s).mpr hopen)]
    simp only [fmixRun, bankNext, bankSum, tickOut_eq_pTick, tickNext_eq_pTick]
    rfl
  · rw [if_neg (mt (formantActive_iff s).mp hclosed)]
    rfl

/-! ### The refresh schedule (R202) -/

/-- FCOEF's counter after FCOEF is a function of the counter before it. -/
theorem fcoefOp_counter {α σ : Type} (O : OpenParams α σ) (s : Gen.State α σ) :
    (fcoefOp O s).formantUpdateCounter =
      if countExpired (countDown s.formantUpdateCounter) = true then storeInt fcoefPeriod
      else countDown s.formantUpdateCounter := by
  unfold fcoefOp
  split <;> rfl

/-- A counter of 0 or 1 is reloaded with 32, and a larger one counts down. -/
theorem toNat_fcoefOp_counter {α σ : Type} (O : OpenParams α σ) {s : Gen.State α σ}
    (h : s.formantUpdateCounter.toNat ≤ 32) :
    (fcoefOp O s).formantUpdateCounter.toNat =
      if s.formantUpdateCounter.toNat ≤ 1 then 32 else s.formantUpdateCounter.toNat - 1 := by
  have hint : s.formantUpdateCounter.toInt = s.formantUpdateCounter.toNat :=
    BitVec.toInt_eq_toNat_of_lt (by omega)
  have hdown := toInt_countDown (x := s.formantUpdateCounter) (by omega)
  have hexp : countExpired (countDown s.formantUpdateCounter) = true ↔ s.formantUpdateCounter.toNat ≤ 1 := by
    rw [countExpired, decide_eq_true_iff, hdown, hint]
    omega
  rw [fcoefOp_counter, apply_ite BitVec.toNat, if_congr hexp rfl rfl]
  split
  next => rfl
  next hgt =>
    rw [countDown]
    bv_omega

/-- A STEP does to the counter what FCOEF does to it. -/
theorem step_counter {frame : List F} {s t : State} (h : exec (.step frame) s = .next t) :
    t.formantUpdateCounter = (fcoefOp machineParams s).formantUpdateCounter := by
  rw [exec_step, stepOp_next] at h
  obtain ⟨lanes, p, -, -, -, -, -, rfl⟩ := h
  rw [finishStep_formantUpdateCounter, afterLfo_formantUpdateCounter, fcoefOp_counter, fcoefOp_counter]
  simp

theorem loadp_counter {trig : Bool} {w1 w2 w3 w4 w5 w6 : F} {s t : State}
    (h : exec (.loadp trig w1 w2 w3 w4 w5 w6) s = .next t) : t.formantUpdateCounter = s.formantUpdateCounter := by
  rw [exec_loadp, loadpOp_next] at h
  obtain ⟨-, rfl⟩ := h
  rfl

/-- What the counter reads after `n` STEPs from 0 (R202). -/
def refreshCount : Nat → Nat
  | 0 => 0
  | n + 1 => 32 - n % 32

theorem refreshCount_le (n : Nat) : refreshCount n ≤ 32 := by
  cases n with
  | zero => decide
  | succ n => exact Nat.sub_le 32 _

theorem refreshCount_succ (n : Nat) :
    refreshCount (n + 1) = if refreshCount n ≤ 1 then 32 else refreshCount n - 1 := by
  cases n with
  | zero => rfl
  | succ n =>
    have hcount (k : Nat) : refreshCount (k + 1) = 32 - k % 32 := rfl
    rw [hcount, hcount]
    split <;> omega

/-- The counter after STEPs and LOADPs from 0, by induction on the commands from the last: a STEP takes it to the next
count and a LOADP leaves it alone. -/
theorem execAll_counter {cs : List Instr} {s t : State} (h0 : s.formantUpdateCounter = 0)
    (hcs : ∀ i ∈ cs, isStep i = true ∨ isLoadp i = true) (h : execAll cs s = .next t) :
    t.formantUpdateCounter.toNat = refreshCount (cs.countP isStep) := by
  induction cs using List.reverseRecOn generalizing t with
  | nil =>
    cases h
    rw [h0]
    rfl
  | append_singleton cs i ih =>
    rw [execAll_concat, andThen_next] at h
    obtain ⟨u, hu, hi⟩ := h
    have hcount := ih (fun k hk => hcs k (List.mem_append_left _ hk)) hu
    rw [List.countP_append, List.countP_singleton]
    cases i with
    | step frame =>
      have hle : u.formantUpdateCounter.toNat ≤ 32 := hcount ▸ refreshCount_le _
      rw [step_counter hi, toNat_fcoefOp_counter machineParams hle, hcount]
      exact (refreshCount_succ _).symm
    | loadp =>
      rw [loadp_counter hi, hcount]
      rfl
    | _ => nomatch hcs _ (List.mem_append_right _ (List.mem_singleton_self _))

/-- Settles O37: with at least one STEP the count is R202's. -/
theorem refreshEvery32Steps : Obligations.RefreshEvery32Steps := by
  intro cs s t h0 hcs hrun hsteps
  rw [execAll_counter h0 hcs hrun]
  obtain ⟨n, hn⟩ := Nat.exists_eq_add_of_le' hsteps
  rw [hn]
  rfl

end Sys2Proof.Claims
end

section
/-! PROOFS. Lanes with equal inputs and equal histories stay equal (R209). -/

namespace Sys2Proof.Claims

open Sys2Proof Sys2Proof.Machine

/-! ### Cleared memories

A lane's number reaches a word of its memory only where no RESET has cleared the memory (R311). -/

section cleared
variable {α : Type} [Inhabited α] {m : DelayMem α}

theorem unlistedWord_of_cleared (h : m.cleared = true) (c d : Lane) (j : Nat) :
    unlistedWord c m j = unlistedWord d m j := by
  obtain ⟨z, hz⟩ := Option.isSome_iff_exists.mp h
  simp only [unlistedWord, hz]

theorem delayRead_of_cleared (h : m.cleared = true) (c d : Lane) (j : Nat) : delayRead c m j = delayRead d m j := by
  simp only [delayRead, unlistedWord_of_cleared h c d]

variable [DecidableEq α]

theorem delayWrite_of_cleared (h : m.cleared = true) (c d : Lane) (j : Nat) (v : α) :
    delayWrite c m j v = delayWrite d m j v := by
  simp only [delayWrite, unlistedWord_of_cleared h c d]

@[simp] theorem delayWrite_cleared (c : Lane) (j : Nat) (v : α) : (delayWrite c m j v).cleared = m.cleared := by
  simp only [DelayMem.cleared, delayWrite_fill]

end cleared

/-! ### Equal lanes -/

section equal
variable {α σ : Type}

/-- The lanes hold equal filters, equal cleared memories and equal wires. -/
structure LanesEqual (s : Gen.State α σ) : Prop where
  filters : s.filt.l0 = s.filt.l1
  memories : s.delayBuffer.l0 = s.delayBuffer.l1
  cleared : s.delayBuffer.l1.cleared = true
  wires : wiresView .lane0 s.wires = wiresView .lane1 s.wires

variable (O : OpenParams α σ) {s : Gen.State α σ}

theorem LanesEqual.env (h : LanesEqual s) : LanesEqual (envOp O s) :=
  ⟨h.filters, h.memories, h.cleared, h.wires⟩

theorem LanesEqual.var (h : LanesEqual s) : LanesEqual (varOp O s) :=
  ⟨by simpa using h.filters, by simpa using h.memories, by simpa using h.cleared, by simpa using h.wires⟩

theorem LanesEqual.lfo (h : LanesEqual s) (p : α) : LanesEqual (lfoStore O s p) :=
  ⟨h.filters, h.memories, h.cleared, congrArg (wireLfo · _ _ _) h.wires⟩

theorem LanesEqual.dmod (h : LanesEqual s) : LanesEqual (dmodOp O s) :=
  ⟨h.filters, h.memories, h.cleared, congrArg (wireDelay · _) h.wires⟩

/-- A refresh gives both lanes one coefficient set (R201). -/
theorem refreshBanks_eq_of_filt_eq (h : s.filt.l0 = s.filt.l1) : (refreshBanks O s).l0 = (refreshBanks O s).l1 := by
  simp only [refreshBanks, h]

theorem LanesEqual.fcoef (h : LanesEqual s) : LanesEqual (fcoefOp O s) := by
  unfold fcoefOp
  split
  next => exact ⟨refreshBanks_eq_of_filt_eq O h.filters, h.memories, h.cleared, h.wires⟩
  next => exact ⟨h.filters, h.memories, h.cleared, h.wires⟩

end equal

/-! ### A lane's slots do not depend on its number -/

section alike
variable {α σ : Type}

/-- Lane 0 of one state sees what lane 1 of the other sees. -/
def LanesAlike (s t : Gen.State α σ) : Prop := laneView .lane0 s = laneView .lane1 t

variable {s t : Gen.State α σ}

theorem LanesEqual.alike (h : LanesEqual s) : LanesAlike s s := by
  simp only [LanesAlike, laneView, mirrorLane, PerLane.get, h.filters, h.memories, h.wires]

/-- What lane 0 and lane 1 see holds their outputs, memories and filters. -/
theorem LanesAlike.eq (h : LanesAlike s t) :
    s.wires.out.l0 = t.wires.out.l1 ∧ s.delayBuffer.l0 = t.delayBuffer.l1 ∧ s.filt.l0 = t.filt.l1 := by
  simp only [LanesAlike, laneView, wiresView, mirrorLane, PerLane.get, Gen.State.mk.injEq, Wires.mk.injEq,
    PerLane.mk.injEq] at h
  simp [h]

/-- Slots that see their own lane alone, and do the same to either lane of a state whose lanes hold the same, keep the
lanes alike. -/
theorem LanesAlike.map {f : Lane → Gen.State α σ → Gen.State α σ} (h : LanesAlike s t)
    (hkeep : ∀ c, KeepsLaneView c (f c))
    (hsame : LanesAlike (f .lane0 (laneView .lane1 t)) (f .lane1 (laneView .lane1 t))) :
    LanesAlike (f .lane0 s) (f .lane1 t) :=
  calc laneView .lane0 (f .lane0 s)
      = laneView .lane0 (f .lane0 (laneView .lane1 t)) := by rw [← hkeep, h]
    _ = laneView .lane1 (f .lane1 (laneView .lane1 t)) := hsame
    _ = laneView .lane1 (f .lane1 t) := hkeep .lane1 t

variable (O : OpenParams α σ)

theorem LanesAlike.fmix (h : LanesAlike s t) : LanesAlike (fmixOp O .lane0 s) (fmixOp O .lane1 t) := by
  refine h.map (fun _ => fmixOp_keepsLaneView O) ?_
  unfold fmixOp
  split <;> rfl

theorem LanesAlike.trem (h : LanesAlike s t) : LanesAlike (tremOp O .lane0 s) (tremOp O .lane1 t) :=
  h.map (fun _ => tremOp_keepsLaneView O) rfl

variable [Inhabited α]

theorem LanesAlike.drd (h : LanesAlike s t) (hclear : t.delayBuffer.l1.cleared = true) :
    LanesAlike (drdOp O .lane0 s) (drdOp O .lane1 t) := by
  refine h.map (fun _ => drdOp_keepsLaneView O) ?_
  have hread (j : Int) : memRead (laneView .lane1 t) .lane0 j = memRead (laneView .lane1 t) .lane1 j :=
    delayRead_of_cleared hclear _ _ _
  simp only [drdOp, readAt, hread]
  rfl

variable [DecidableEq α]

theorem LanesAlike.dwr (h : LanesAlike s t) (hclear : t.delayBuffer.l1.cleared = true) :
    LanesAlike (dwrOp .lane0 s) (dwrOp .lane1 t) := by
  refine h.map (fun _ => dwrOp_keepsLaneView) ?_
  have hwrite (j : Nat) (v : α) : delayWrite .lane0 t.delayBuffer.l1 j v = delayWrite .lane1 t.delayBuffer.l1 j v :=
    delayWrite_of_cleared hclear _ _ _ _
  simp only [LanesAlike, dwrOp, memWrite, laneView, mirrorLane, PerLane.get, PerLane.set, hwrite]
  rfl

/-- Over cleared memories the four slots of a lane keep the lanes alike (R250). -/
theorem LanesAlike.laneOps (h : LanesAlike s t) (hclear : t.delayBuffer.l1.cleared = true) :
    LanesAlike (laneOps O s .lane0) (laneOps O t .lane1) := by
  have hclear' : (dwrOp .lane1 t).delayBuffer.l1.cleared = true := (delayWrite_cleared .lane1 _ _).trans hclear
  exact (((h.dwr hclear).drd O hclear').fmix O).trem O

/-! ### The whole STEP -/

/-- Each lane runs on what it sees before either has run, so lanes that start equal end alike. -/
theorem LanesEqual.alike_afterLfo (h : LanesEqual s) :
    LanesAlike (afterLfo O [.lane0, .lane1] s) (afterLfo O [.lane0, .lane1] s) := by
  have hstart := (h.dmod O).fcoef O
  have hview (c : Lane) := foldLanes_laneView O (lanes := [.lane0, .lane1]) (c := c) (by decide)
    (by cases c <;> decide) (fcoefOp O (dmodOp O s))
  have hlanes := hstart.alike.laneOps O hstart.cleared
  rw [LanesAlike, ← hview, ← hview] at hlanes
  exact congrArg wadvOp hlanes

variable {O}

/-- A completed STEP with one sample for both lanes, from equal cleared memories and equal filters, ends with the lanes
alike, up to the return of the outputs. -/
theorem stepOp_lanesAlike {x : α} (hfilt : s.filt.l0 = s.filt.l1) (hmem : s.delayBuffer.l0 = s.delayBuffer.l1)
    (hclear : s.delayBuffer.l1.cleared = true) (h : stepOp O [x, x] s = .next t) :
    ∃ v, LanesAlike v v ∧ t = finishStep (O.num.lit .zero) [.lane0, .lane1] v := by
  rw [stepOp_next] at h
  obtain ⟨lanes, p, hlanes, -, -, -, -, rfl⟩ := h
  obtain rfl : [Lane.lane0, Lane.lane1] = lanes := Option.some.inj hlanes
  have hstart : LanesEqual (setWires s (frameWires (O.num.lit .zero) [x, x])) := ⟨hfilt, hmem, hclear, rfl⟩
  exact ⟨_, (((hstart.env O).var O).lfo O p).alike_afterLfo O, rfl⟩

end alike

/-- Settles O17: lanes that end alike hold equal outputs, memories and filters. -/
theorem equalLanesStayEqual : Obligations.EqualLanesStayEqual := by
  intro x s t hmem hclear hfilt h
  rw [exec_step] at h
  obtain ⟨v, halike, rfl⟩ := stepOp_lanesAlike hfilt hmem (hmem ▸ hclear) h
  rw [pOut_finishStep, pOut_finishStep]
  exact halike.eq

end Sys2Proof.Claims
end

section
/-! PROOFS. TREM: its result (R231) and the range of its gain (R231 case (a), R232). -/

namespace Sys2Proof.Claims

open Sys2Proof Sys2Proof.Machine

/-! ### The result (R231) -/

theorem pAmpMod_eq (N : Num F) (s : State) :
    pAmpMod N s = ampMod N s.P.amplitudePct s.envelope s.wires.lfo := rfl

/-- Settles O39: the claim's gain is `ampMod`, and TREM writes its output wire alone. -/
theorem tremResult : Obligations.TremResult := by
  intro c s
  rw [exec_trem, pAmpMod_eq]
  rfl

theorem tremOp_out {α σ : Type} (O : OpenParams α σ) (c : Lane) (s : Gen.State α σ) :
    (tremOp O c s).wires.out.get c =
      O.num.mul (s.wires.processed.get c) (ampMod O.num s.P.amplitudePct s.envelope s.wires.lfo) :=
  PerLane.get_set_same _ _ _

/-! ### Patterns of one value

Two patterns share the order number 0, the zeros; every other number has one sign and one magnitude (R23). -/

theorem natAbs_f32Ord (x : F) : (f32Ord x).natAbs = f32Code x := by
  unfold f32Ord
  split <;> omega

theorem f32Sign_of_f32Ord_ne_zero {x : F} (h : f32Ord x ≠ 0) : f32Sign x = decide (f32Ord x < 0) := by
  unfold f32Ord at h ⊢
  split at h
  next hneg =>
    rw [if_pos hneg, hneg, eq_comm, decide_eq_true_iff]
    omega
  next hpos =>
    rw [if_neg hpos, Bool.eq_false_iff.mpr hpos, eq_comm, decide_eq_false_iff_not]
    omega

theorem eq_of_f32Ord_eq {x y : F} (hy : f32Ord y ≠ 0) (h : f32Ord x = f32Ord y) : x = y := by
  have hx : f32Ord x ≠ 0 := h ▸ hy
  rw [← f32Make_sign_code x, ← f32Make_sign_code y, f32Sign_of_f32Ord_ne_zero hx, f32Sign_of_f32Ord_ne_zero hy,
    ← natAbs_f32Ord x, ← natAbs_f32Ord y, h]

theorem eq_of_within {x y : F} (hy : f32Ord y ≠ 0) (h : within y y x = true) : x = y := by
  have heq := (f32Eq_iff_within x y).mpr h
  simp only [f32Eq, Bool.and_eq_true, decide_eq_true_eq] at heq
  exact eq_of_f32Ord_eq hy heq.2

/-! ### The gain (R232) -/

/-- Settles O40: the gain lies in `[0, 1]`, and at a zero depth in `[1, 1]`, which holds one pattern. -/
theorem tremGainRange : Obligations.TremGainRange := by
  intro c s hsnap henv hlfo
  obtain ⟨-, -, -, hpct, -, -⟩ := (legalSnapshot_iff s.P).mp hsnap
  refine ⟨?range, fun hzero => ?unmodulated, _, exec_trem s c, tremOp_out machineParams c s⟩
  case range => exact ampMod_range _ hpct henv hlfo
  case unmodulated => exact eq_of_within (by decide) (ampMod_of_pZero _ hzero henv hlfo)

end Sys2Proof.Claims
end

section
/-! PROOFS. The host commands (R242 to R250): the results of PREPARE, RESET and LOADP, where STEP is refused and where
it completes, its schedule, and what it leaves alone. -/

namespace Sys2Proof.Claims

open Sys2Proof Sys2Proof.Machine

/-! ### RESET and PREPARE (R242, R244) -/

theorem resetOp_eq_pZeroed {α σ : Type} (O : OpenParams α σ) (s : Gen.State α σ) : resetOp O s =
    { pZeroed (O.num.lit .zero) s with
      response := []
      rngState := if O.resetReseedsRng = true then O.rng.seed else s.rngState } := rfl

/-- The machine's RESET leaves the generator (R149, log entry 4). -/
theorem resetOp_machine_eq_pZeroed (s : State) : resetOp machineParams s = { pZeroed 0 s with response := [] } := by
  rw [resetOp_eq_pZeroed, machine_zero]
  rfl

/-- RESET gives every word of both memories the value 0. -/
theorem memRead_resetOp (s : State) (c : Lane) (j : Int) : memRead (resetOp machineParams s) c j = 0 := by
  cases c <;> exact delayRead_zeroed _ _ _

/-- Settles O9: `resetEngine` writes what R244 lists, and an unlisted word of a zeroed memory reads as the zero. -/
theorem resetResult : Obligations.ResetResult := by
  refine ⟨fun s => ?_, fun s t h c j => ?_, fun _ _ _ _ O s => congrArg Host.Outcome.next (resetOp_eq_pZeroed O s)⟩
  · rw [exec_reset, resetOp_machine_eq_pZeroed]
  · rw [exec_reset] at h
    cases h
    exact memRead_resetOp s c j

theorem admitRate_iff (sr : F) : admitRate machineParams sr = true ↔
    f32Finite sr = true ∧ M.le (K .srMin) sr = true ∧ M.le sr (K .srMax) = true := by
  rw [admitRate, admitRange, Bool.and_eq_true, Bool.and_eq_true, and_assoc]
  rfl

/-- Settles O8: an admitted rate is recorded and the RESET of that state follows. -/
theorem prepareResult : Obligations.PrepareResult := by
  intro sr mbs s
  rw [← admitRate_iff, exec_prepare, prepareOp]
  refine ⟨fun hadmit => ?_, fun hrefuse => if_neg hrefuse⟩
  rw [if_pos hadmit, resetOp_machine_eq_pZeroed]
  rfl

/-! ### LOADP (R246) -/

theorem exec_loadp_of_legal {t : Bool} {w1 w2 w3 w4 w5 w6 : F}
    (h : legalSnapshot (snapshotOf t w1 w2 w3 w4 w5 w6) = true) (s : State) :
    exec (.loadp t w1 w2 w3 w4 w5 w6) s = .next (setResponse (setParams s (snapshotOf t w1 w2 w3 w4 w5 w6)) []) := by
  rw [exec_loadp]
  exact loadpOp_next.mpr ⟨(admitSnapshot_eq _).trans h, rfl⟩

/-- Settles O10: the snapshots LOADP admits are the legal ones. -/
theorem loadpResult : Obligations.LoadpResult := by
  intro t w1 w2 w3 w4 w5 w6 s
  refine ⟨fun hlegal => exec_loadp_of_legal hlegal s, fun hillegal => ?_⟩
  rw [exec_loadp, loadpOp, admitSnapshot_eq, hillegal]
  rfl

/-! ### Where STEP is refused (R283, R286, R290) -/

theorem lanesOfCount_eq_none {n : Nat} (h : n ≠ 1 ∧ n ≠ 2) : lanesOfCount n = none := by
  unfold lanesOfCount
  split
  next => exact absurd rfl h.1
  next => exact absurd rfl h.2
  next => rfl

theorem exists_lanesOfCount {n : Nat} (h : n = 1 ∨ n = 2) : ∃ lanes, lanesOfCount n = some lanes := by
  rcases h with rfl | rfl
  · exact ⟨[.lane0], rfl⟩
  · exact ⟨[.lane0, .lane1], rfl⟩

theorem length_of_lanesOfCount {n : Nat} {lanes : List Lane} (h : lanesOfCount n = some lanes) : lanes.length = n := by
  unfold lanesOfCount at h
  split at h
  next => cases h; rfl
  next => cases h; rfl
  next => nomatch h

/-- The checks of a STEP with a legal frame length, in their order. -/
theorem stepOp_of_lanes {α σ : Type} [DecidableEq α] [Inhabited α] (O : OpenParams α σ) {frame : List α}
    {lanes : List Lane} (h : lanesOfCount frame.length = some lanes) (s : Gen.State α σ) : stepOp O frame s =
      if !s.cfg.prepared then refuse .notPrepared
      else if !s.P.valid then refuse .noSnapshot
      else if !admitFrame O.num frame then refuse .badSample
      else admittedStep O lanes frame s := by
  simp only [stepOp, h]

/-- A STEP that passes the checks is run. -/
theorem exec_step_of_admitted {frame : List F} {lanes : List Lane} {s : State}
    (hlanes : lanesOfCount frame.length = some lanes) (hready : pReady s)
    (hframe : admitFrame machineParams.num frame = true) :
    exec (.step frame) s = admittedStep machineParams lanes frame s := by
  rw [exec_step, stepOp_of_lanes machineParams hlanes, hready.1, hready.2, hframe]
  rfl

theorem admitFrame_eq_false {frame : List F} (h : ∃ x ∈ frame, f32Finite x = false) :
    admitFrame machineParams.num frame = false := by
  rw [admitFrame, machineParams_num, binary32_finite, List.all_eq_false]
  simpa using h

/-- Settles O11: one check after the other, each on a state that passes those before it. -/
theorem stepRefusals : Obligations.StepRefusals := by
  intro frame s
  refine ⟨fun hlen => ?length, fun hlen hprep => ?prepared, fun hlen hprep hvalid => ?snapshot,
    fun hlen hready hbad => ?sample⟩
  case length =>
    rw [exec_step, stepOp, lanesOfCount_eq_none hlen]
    rfl
  all_goals
    obtain ⟨lanes, hlanes⟩ := exists_lanesOfCount hlen
    rw [exec_step, stepOp_of_lanes machineParams hlanes]
  case prepared =>
    rw [hprep]
    rfl
  case snapshot =>
    rw [hprep, hvalid]
    rfl
  case sample =>
    rw [hready.1, hready.2, admitFrame_eq_false hbad]
    rfl

/-! ### The schedule of a STEP (R250) -/

theorem execAll_cons (i : Instr) (is : List Instr) (s : State) :
    execAll (i :: is) s = andThen (exec i s) (execAll is) := by
  cases h : exec i s <;> simp [execAll, andThen, h]

/-- A micro-operation that completes hands its state on. -/
theorem execAll_of_next {i : Instr} {s t : State} (h : exec i s = .next t) (is : List Instr) :
    execAll (i :: is) s = execAll is t := by
  rw [execAll_cons, h, andThen]

/-- Performing the slots of a lane one after the other is `laneOps`. -/
theorem execAll_laneSlots (c : Lane) (is : List Instr) (s : State) :
    execAll (laneSlots c ++ is) s = execAll is (laneOps machineParams s c) := by
  simp only [laneSlots, List.cons_append, List.nil_append]
  rw [execAll_of_next (exec_dwr s c), execAll_of_next (exec_drd _ c), execAll_of_next (exec_fmix _ c),
    execAll_of_next (exec_trem _ c), laneOps]

theorem execAll_lanes (lanes : List Lane) (is : List Instr) (s : State) :
    execAll ((lanes.map laneSlots).flatten ++ is) s = execAll is (lanes.foldl (laneOps machineParams) s) := by
  induction lanes generalizing s with
  | nil => rfl
  | cons c rest ih =>
    rw [List.map_cons, List.flatten_cons, List.append_assoc, execAll_laneSlots, ih, List.foldl_cons]

/-- The slots after LFO, performed one after the other, cannot stop. -/
theorem execAll_afterLfo (lanes : List Lane) (s : State) :
    execAll (.dmod :: .fcoef :: ((lanes.map laneSlots).flatten ++ [.wadv])) s
      = .next (afterLfo machineParams lanes s) := by
  rw [execAll_of_next (exec_dmod s), execAll_of_next (exec_fcoef _), execAll_lanes, execAll_of_next (exec_wadv _),
    execAll, afterLfo]

/-- The schedule, performed one micro-operation after the other; LFO alone can stop it. -/
theorem execAll_schedule (lanes : List Lane) (s : State) :
    execAll (schedule lanes) s = runSchedule machineParams lanes s := by
  have hslots : schedule lanes
      = .env :: .var :: .lfo :: .dmod :: .fcoef :: ((lanes.map laneSlots).flatten ++ [.wadv]) := rfl
  rw [hslots, execAll_of_next (exec_env s), execAll_of_next (exec_var _), execAll_cons, exec_lfo, runSchedule]
  exact congrArg _ (funext (execAll_afterLfo lanes))

theorem admittedStep_eq_pReturn (lanes : List Lane) (frame : List F) (s : State) :
    admittedStep machineParams lanes frame s
      = pReturn lanes (execAll (schedule lanes) { s with wires := pFrameWires frame }) := by
  have hwires : setWires s (frameWires (machineParams.num.lit .zero) frame)
      = { s with wires := pFrameWires frame } := by
    rw [machine_zero]
    rfl
  rw [execAll_schedule, admittedStep, hwires, machine_zero]
  cases runSchedule machineParams lanes { s with wires := pFrameWires frame } <;> rfl

/-- Settles O13: the two lists are the schedule of one lane and of both. -/
theorem stepRunsSchedule : Obligations.StepRunsSchedule := by
  intro s hready
  refine ⟨fun x0 h0 => ?_, fun x0 x1 h0 h1 => ?_⟩
  · have hframe : pFrameOk [x0] := ⟨.inl rfl, by simpa using h0⟩
    rw [exec_step_of_admitted (lanes := [.lane0]) rfl hready (admitFrame_of_pFrameOk hframe)]
    exact admittedStep_eq_pReturn _ _ _
  · have hframe : pFrameOk [x0, x1] := ⟨.inr rfl, by simpa using ⟨h0, h1⟩⟩
    rw [exec_step_of_admitted (lanes := [.lane0, .lane1]) rfl hready (admitFrame_of_pFrameOk hframe)]
    exact admittedStep_eq_pReturn _ _ _

/-! ### What a STEP leaves alone -/

section step
variable {frame : List F} {s t : State}

/-- A STEP leaves the host port, and leaves the wires idle (R53). -/
theorem step_ports (h : exec (.step frame) s = .next t) :
    t.hostIn = s.hostIn ∧ t.slots = s.slots ∧ t.wires = .idle 0 := by
  rw [exec_step, stepOp_next] at h
  obtain ⟨_, _, -, -, -, -, -, rfl⟩ := h
  exact ⟨by simp, by simp, congrArg Wires.idle machine_zero⟩

/-- With variation inactive a STEP leaves the generator, the target and the countdown alone (R141, R142). -/
theorem step_variation_inactive (h : exec (.step frame) s = .next t)
    (hoff : M.lt (K .zero) s.P.variationPct = false) :
    t.rngState = s.rngState ∧ t.variationTarget = s.variationTarget
    ∧ t.variationCountdown = s.variationCountdown := by
  rw [exec_step, stepOp_next] at h
  obtain ⟨_, _, -, -, -, -, -, rfl⟩ := h
  have hvar := varOp_inactive (O := machineParams) (s := envOp machineParams
    (setWires s (frameWires (machineParams.num.lit .zero) frame))) hoff
  simp [hvar]

/-- A STEP returns one word per sample. -/
theorem step_response_length (h : exec (.step frame) s = .next t) : t.response.length = frame.length := by
  rw [exec_step, stepOp_next] at h
  obtain ⟨lanes, _, hlanes, -, -, -, -, rfl⟩ := h
  rw [← length_of_lanesOfCount hlanes]
  exact List.length_map _

end step

/-- Settles O12: in range the wrap of the phase ends, and nothing else can stop the STEP. -/
theorem stepCompletes : Obligations.StepCompletes := by
  intro frame s hinv hready hframe
  obtain ⟨-, hprepared, hvalid⟩ := hinv
  have hrange : InRange s := ⟨(hprepared hready.1).1, hvalid hready.2, (hprepared hready.1).2⟩
  obtain ⟨_, _, -, -, -, -, -, -, h⟩ := step_completes hrange hready hframe
  exact ⟨_, h, step_response_length h, step_writePos h, exec_keeps_cfg h rfl, exec_keeps_P h rfl, (step_ports h).2.2⟩

/-- Settles O14: the memory by its read-after-write rules, the rest field by field. -/
theorem stepFrame : Obligations.StepFrame := by
  intro frame s t hwf h
  obtain ⟨hhost, hslots, hwires⟩ := step_ports h
  exact ⟨exec_keeps_cfg h rfl, exec_keeps_P h rfl, hhost, hslots, hwires, step_writePos h,
    fun _ _ => memRead_step_same h hwf, fun _ _ => memRead_step_other h, step_variation_inactive h⟩

end Sys2Proof.Claims
end

section
/-! PROOFS. The filter registers of a STEP: FCOEF writes coefficients and FMIX states (R201, R205).  With it the idle
lane (R87, R206) and the form of a state between commands (R248, R53, R209, R313). -/

namespace Sys2Proof.Claims

open Sys2Proof Sys2Proof.Machine

/-! ### Coefficients and states of the filters -/

section filters
variable {α σ : Type} (O : OpenParams α σ) (s : Gen.State α σ)

/-- FCOEF leaves the states of every filter alone (R201 case (e)). -/
theorem fcoefOp_filterStates (c : Lane) (f : FilterIx) :
    (bankGet ((fcoefOp O s).filt.get c) f).s1 = (bankGet (s.filt.get c) f).s1
    ∧ (bankGet ((fcoefOp O s).filt.get c) f).s2 = (bankGet (s.filt.get c) f).s2 := by
  unfold fcoefOp
  split
  next => cases c <;> cases f <;> exact ⟨rfl, rfl⟩
  next => exact ⟨rfl, rfl⟩

/-- FMIX leaves the coefficients of every filter alone. -/
theorem fmixOp_co (c d : Lane) (f : FilterIx) :
    (bankGet ((fmixOp O c s).filt.get d) f).co = (bankGet (s.filt.get d) f).co := by
  unfold fmixOp
  split
  next => cases c <;> cases d <;> cases f <;> rfl
  next => rfl

variable [DecidableEq α] [Inhabited α]

theorem foldLanes_co (lanes : List Lane) (d : Lane) (f : FilterIx) :
    (bankGet ((lanes.foldl (laneOps O) s).filt.get d) f).co = (bankGet (s.filt.get d) f).co := by
  induction lanes generalizing s with
  | nil => rfl
  | cons c rest ih => exact (ih _).trans (fmixOp_co O (drdOp O c (dwrOp c s)) c d f)

/-- No slot of a lane changes what the last RESET wrote. -/
theorem foldLanes_fill (lanes : List Lane) (d : Lane) :
    ((lanes.foldl (laneOps O) s).delayBuffer.get d).fill = (s.delayBuffer.get d).fill := by
  induction lanes generalizing s with
  | nil => rfl
  | cons c rest ih =>
    rw [List.foldl_cons, ih, laneOps_delayBuffer, memWrite_delayBuffer]
    by_cases hd : d = c
    · rw [hd, PerLane.get_set_same, delayWrite_fill]
    · rw [PerLane.get_set_other _ _ _ _ hd]

end filters

/-! ### The idle lane (R87, R206) -/

/-- With lane 0 alone the slots after LFO leave lane 1's memory and filter states: lane 1 sees nothing of lane 0's
slots, and of the shared ones only FCOEF reaches its filters. -/
theorem afterLfo_idle_lane1 (s : State) :
    (afterLfo machineParams [.lane0] s).delayBuffer.l1 = s.delayBuffer.l1
    ∧ ∀ f, (bankGet (afterLfo machineParams [.lane0] s).filt.l1 f).s1 = (bankGet s.filt.l1 f).s1
      ∧ (bankGet (afterLfo machineParams [.lane0] s).filt.l1 f).s2 = (bankGet s.filt.l1 f).s2 := by
  have hview := foldLanes_unseen machineParams (c := .lane1) (lanes := [.lane0]) (by decide)
    (fcoefOp machineParams (dmodOp machineParams s))
  obtain ⟨-, hmem, hfilt, -⟩ := eq_of_laneView_eq hview
  rw [fcoefOp_delayBuffer] at hmem
  have hstates := fcoefOp_filterStates machineParams (dmodOp machineParams s) .lane1
  rw [← hfilt] at hstates
  rw [afterLfo, wadvOp_delayBuffer, wadvOp_filt]
  exact ⟨hmem, hstates⟩

/-- Settles O15: the slots up to LFO reach no memory and no filter, and those after it leave lane 1 alone. -/
theorem idleLaneHolds : Obligations.IdleLaneHolds := by
  intro x0 s t h
  have hpos := step_writePos h
  rw [exec_step, stepOp_next] at h
  obtain ⟨lanes, p, hlanes, -, -, -, -, rfl⟩ := h
  obtain rfl : [Lane.lane0] = lanes := Option.some.inj hlanes
  have hidle := afterLfo_idle_lane1 (lfoStore machineParams (varOp machineParams (envOp machineParams
    (setWires s (frameWires (machineParams.num.lit .zero) [x0])))) p)
  rw [lfoStore_delayBuffer, lfoStore_filt, varOp_delayBuffer, varOp_filt] at hidle
  exact ⟨hidle.1, hpos, hidle.2⟩

/-! ### The form of a state between commands -/

theorem lanesAgree_iff (p : PerLane (Bank F)) :
    lanesAgree p ↔ ∀ f, (bankGet p.l0 f).co = (bankGet p.l1 f).co := by
  constructor
  · rintro ⟨h0, h1, h2⟩ f
    cases f
    · exact h0
    · exact h1
    · exact h2
  · exact fun h => ⟨h .f0, h .f1, h .f2⟩

/-- A refresh gives both lanes one coefficient set (R201, R209). -/
theorem lanesAgree_fcoefOp {s : State} (h : lanesAgree s.filt) : lanesAgree (fcoefOp machineParams s).filt := by
  unfold fcoefOp
  split
  next => exact ⟨rfl, rfl, rfl⟩
  next => exact h

theorem lanesAgree_foldLanes {s : State} (h : lanesAgree s.filt) (lanes : List Lane) :
    lanesAgree (lanes.foldl (laneOps machineParams) s).filt := by
  rw [lanesAgree_iff] at h ⊢
  intro f
  have hco := foldLanes_co machineParams s lanes
  exact (hco .lane0 f).trans ((h f).trans (hco .lane1 f).symm)

section step
variable {frame : List F} {s t : State}

theorem step_lanesAgree (h : exec (.step frame) s = .next t) (hagree : lanesAgree s.filt) : lanesAgree t.filt := by
  rw [exec_step, stepOp_next] at h
  obtain ⟨lanes, p, -, -, -, -, -, rfl⟩ := h
  rw [finishStep_filt, afterLfo, wadvOp_filt]
  refine lanesAgree_foldLanes (lanesAgree_fcoefOp ?_) lanes
  rw [dmodOp_filt, lfoStore_filt, varOp_filt]
  exact hagree

theorem step_fill (h : exec (.step frame) s = .next t) (c : Lane) :
    (t.delayBuffer.get c).fill = (s.delayBuffer.get c).fill := by
  obtain ⟨lanes, u, -, hmem, -, -, hrun⟩ := step_runs_lanes h
  rw [hrun, foldLanes_fill, hmem]

end step

/-- RESET leaves the form whatever the memory and the filters were. -/
theorem formInv_resetOp {s : State} (hslots : s.slots = []) (hwires : s.wires = .idle 0) :
    formInv (resetOp machineParams s) := by
  rw [resetOp_machine_eq_pZeroed]
  exact ⟨hslots, hwires, rfl, ⟨rfl, rfl, rfl⟩, fun _ => ⟨rfl, rfl⟩⟩

/-- A command keeps the form: PREPARE and RESET zero the memory and the filters, LOADP touches neither, and a STEP keeps
each part of the form. -/
theorem exec_command_keeps_formInv {i : Instr} {s t : State} (hi : i.isCommand = true) (h : formInv s)
    (ht : exec i s = .next t) : formInv t := by
  obtain ⟨hslots, hwires, hmem, hagree, hfill⟩ := h
  cases i with
  | prepare sr mbs =>
    rw [exec_prepare, prepareOp_next] at ht
    obtain ⟨-, rfl⟩ := ht
    exact formInv_resetOp hslots hwires
  | reset =>
    rw [exec_reset] at ht
    cases ht
    exact formInv_resetOp hslots hwires
  | loadp =>
    rw [exec_loadp, loadpOp_next] at ht
    obtain ⟨-, rfl⟩ := ht
    exact ⟨hslots, hwires, hmem, hagree, hfill⟩
  | step frame =>
    obtain ⟨-, hslots', hwires'⟩ := step_ports ht
    refine ⟨hslots'.trans hslots, hwires', step_memoryWf ht hmem, step_lanesAgree ht hagree, fun hprep => ?_⟩
    rw [exec_keeps_cfg ht rfl] at hprep
    exact ⟨(step_fill ht .lane0).trans (hfill hprep).1, (step_fill ht .lane1).trans (hfill hprep).2⟩
  | _ => nomatch hi

/-- Settles O43: no micro-operation is put alone to a block in that form, an idle step changes nothing, and the host can
send commands only. -/
theorem formInvariantKept : Obligations.FormInvariantKept := by
  intro s t h ht
  rcases step_next ht with ⟨_, _, _, hslots, -, -⟩ | ⟨-, -, rfl⟩ | ⟨i, rest, -, hd, hexec⟩
  · rw [h.1] at hslots
    nomatch hslots
  · exact h
  · obtain ⟨-, hcmd, -⟩ := decodedBytesAreTheEncoding _ _ _ hd
    exact exec_command_keeps_formInv (s := setHostIn s rest) hcmd h hexec

end Sys2Proof.Claims
end

section
/-! PROOFS. No STEP reads the response of the command before it, so a LOADP of the loaded snapshot is invisible
(R254). -/

namespace Sys2Proof.Claims

open Sys2Proof Sys2Proof.Machine

/-! ### Nothing of a STEP reads `response`

Replacing the response commutes with every slot, and the end of the STEP replaces it again. -/

section response
variable {α σ : Type} (O : OpenParams α σ) {c : Lane} {v : List α}

theorem varOp_setResponse : Function.Commute (varOp O) (setResponse · v) := by
  intro s
  have hcount : varCount O (setResponse s v) = setResponse (varCount O s) v :=
    (apply_ite (setResponse · v) (countExpired (countDown s.variationCountdown) = true) (varDraw O s)
      (setCountdown s (countDown s.variationCountdown))).symm
  simp only [varOp, hcount, setResponse_P]
  split <;> rfl

theorem fcoefOp_setResponse : Function.Commute (fcoefOp O) (setResponse · v) := by
  intro s
  exact (apply_ite (setResponse · v) (countExpired (countDown s.formantUpdateCounter) = true)
    (setRefresh (setFilt s (refreshBanks O s)) (storeInt fcoefPeriod))
    (setRefresh s (countDown s.formantUpdateCounter))).symm

theorem fmixOp_setResponse : Function.Commute (fmixOp O c) (setResponse · v) := by
  intro s
  exact (apply_ite (setResponse · v) (formantActive O.num s.P.formantPct s.envelope = true) (fmixRun O c s)
    (setWires s (wireProcessed s.wires c (s.wires.delayed.get c)))).symm

variable [DecidableEq α] [Inhabited α]

theorem laneOps_setResponse (s : Gen.State α σ) :
    laneOps O (setResponse s v) c = setResponse (laneOps O s c) v :=
  congrArg (tremOp O c) (fmixOp_setResponse O (drdOp O c (dwrOp c s)))

theorem afterLfo_setResponse (lanes : List Lane) : Function.Commute (afterLfo O lanes) (setResponse · v) := by
  intro s
  have hshared : fcoefOp O (dmodOp O (setResponse s v)) = setResponse (fcoefOp O (dmodOp O s)) v :=
    fcoefOp_setResponse O (dmodOp O s)
  have hlanes (u : Gen.State α σ) :
      lanes.foldl (laneOps O) (setResponse u v) = setResponse (lanes.foldl (laneOps O) u) v :=
    List.foldl_hom (setResponse · v) fun t _ => laneOps_setResponse O t
  simp only [afterLfo, hshared, hlanes]
  rfl

/-- The slots of a STEP stop in the same states, whatever the response is. -/
theorem runSchedule_setResponse (lanes : List Lane) (s : Gen.State α σ) :
    runSchedule O lanes (setResponse s v) = andThen (runSchedule O lanes s) fun t => .next (setResponse t v) := by
  have hvar : varOp O (envOp O (setResponse s v)) = setResponse (varOp O (envOp O s)) v :=
    varOp_setResponse O (envOp O s)
  have hphase (u : Gen.State α σ) : statePhase O (setResponse u v) = statePhase O u := rfl
  have hstore (u : Gen.State α σ) (p : α) : afterLfo O lanes (lfoStore O (setResponse u v) p)
      = setResponse (afterLfo O lanes (lfoStore O u p)) v := afterLfo_setResponse O lanes (lfoStore O u p)
  simp only [runSchedule, lfoOp, hvar, hphase]
  cases statePhase O (varOp O (envOp O s)) with
  | some p => exact congrArg _ (hstore _ p)
  | none => rfl

theorem stepOp_setResponse (frame : List α) (s : Gen.State α σ) :
    stepOp O frame (setResponse s v) = stepOp O frame s := by
  have hrun (lanes : List Lane) : admittedStep O lanes frame (setResponse s v) = admittedStep O lanes frame s := by
    have hwires : setWires (setResponse s v) (frameWires (O.num.lit .zero) frame)
        = setResponse (setWires s (frameWires (O.num.lit .zero) frame)) v := rfl
    rw [admittedStep, hwires, runSchedule_setResponse, admittedStep]
    cases runSchedule O lanes (setWires s (frameWires (O.num.lit .zero) frame)) <;> rfl
  simp only [stepOp, hrun, setResponse_cfg, setResponse_P]

end response

/-- Settles O18: the snapshot written is the one that stands in `P`, so only the response changes. -/
theorem blockBoundariesInvisible : Obligations.BlockBoundariesInvisible := by
  intro frame s hvalid hlegal
  have hsame : snapshotOf s.P.triggered s.P.onsetMs s.P.rateHz s.P.pitchCents s.P.amplitudePct s.P.formantPct
      s.P.variationPct = s.P := by
    rw [snapshotOf, ← hvalid]
  refine ⟨setResponse s [], ?_, rfl, stepOp_setResponse machineParams frame s⟩
  rw [exec_loadp_of_legal (hsame ▸ hlegal), hsame]
  rfl

end Sys2Proof.Claims
end

section
/-! PROOFS. What a step runs (R286, R298), and that an endless wrap of the phase stops LFO (log entry 11).  With them the
lifecycle: what is refused (R283), that no step faults in range (R280), and what READY rests on (R290, R313). -/

namespace Sys2Proof.Claims

open Sys2Proof Sys2Proof.Machine

/-! ### The next instruction (R112, R286, R298) -/

section next
variable {s : State}

theorem step_of_no_slot (hs : s.slots = []) : step s = runHost s := by
  rw [step, runNext, hs]

theorem step_of_decode_command {i : Instr} {rest : List Byte} (hs : s.slots = [])
    (hd : decode s.hostIn = .command i rest) : step s = exec i (setHostIn s rest) := by
  rw [step_of_no_slot hs, runHost, hd]

theorem step_of_decode_incomplete (hs : s.slots = []) (hd : decode s.hostIn = .incomplete) : step s = .next s := by
  rw [step_of_no_slot hs, runHost, hd]

theorem step_of_slot {id : MicroId} {ids : List MicroId} (hs : s.slots = id :: ids) : step s = runSlot id ids s := by
  rw [step, runNext, hs]

end next

/-- Settles O7: each clause is one case of what stands at the front of the slots, and without one of the host's bytes. -/
theorem stepRunsNextInstruction : Obligations.StepRunsNextInstruction := by
  refine fun s => ⟨fun i rest hs hd _ => step_of_decode_command hs hd, step_of_decode_incomplete,
    fun cw hs hd => step_of_decode_reserved hs hd, fun id ids i hs hd => ?named, fun id ids hs hd => ?unnamed⟩
  case named | unnamed =>
    rw [step_of_slot hs, runSlot, hd]
    rfl

/-! ### The endless wrap (R156, log entry 11) -/

/-- A phase from 1 up that a turn leaves as it is never drops below 1, however many turns there are. -/
theorem phaseWrap_of_fixed {α : Type} {N : Num α} {x : α} (hone : N.le (N.lit .one) x = true)
    (hfixed : N.sub x (N.lit .one) = x) (fuel : Nat) : phaseWrap N fuel x = none := by
  induction fuel with
  | zero => rw [phaseWrap, if_pos hone]
  | succ fuel ih => rw [phaseWrap_turn N fuel hone, hfixed, ih]

/-- Plus infinity is such a phase: it is above 1, and subtracting 1 from it gives it back (R16). -/
theorem phaseWrap_posInf (f : FreeFns) (fuel : Nat) : phaseWrap (binary32 f) fuel f32PosInf = none := by
  have hone : f32Le (f32Lit .one) f32PosInf = true := by decide
  have hfixed : f32Sub f f32PosInf (f32Lit .one) = f32PosInf := rfl
  exact phaseWrap_of_fixed hone hfixed fuel

/-- Settles O26: at plus infinity the turns run out, however many there are. -/
theorem lfoEndlessWrapFaults : Obligations.LfoEndlessWrapFaults := by
  intro s hinf
  have hadvance : stateAdvance machineParams s = f32PosInf := hinf
  have hphase : statePhase machineParams s = none := by
    rw [statePhase, hadvance]
    exact phaseWrap_posInf _ _
  rw [exec_lfo, lfoOp, hphase]

/-! ### The refusals (R283) -/

section refusals
variable {i : Instr} {s : State} {r : Refusal}

/-- A micro-operation is never refused: LFO, the one that can stop, stops with a fault. -/
theorem exec_micro_ne_refused (hm : i.isCommand = false) : exec i s ≠ .refused r := by
  cases i with
  | prepare | reset | loadp | step => nomatch hm
  | lfo =>
    rw [exec_lfo, lfoOp]
    cases statePhase machineParams s <;> exact nofun
  | _ => exact nofun

theorem prepareOp_refused {α σ : Type} {O : OpenParams α σ} {sr : α} {mbs : Word} {u : Gen.State α σ}
    (h : prepareOp O sr mbs u = .refused r) : r = .badSampleRate := by
  unfold prepareOp at h
  split at h
  next => nomatch h
  next => exact (Host.Outcome.refused.inj h).symm

theorem loadpOp_refused {α σ : Type} {O : OpenParams α σ} {p : ParamRegs α} {u : Gen.State α σ}
    (h : loadpOp O p u = .refused r) : r = .badParameter := by
  unfold loadpOp at h
  split at h
  next => nomatch h
  next => exact (Host.Outcome.refused.inj h).symm

end refusals

/-- Settles O53: each command refuses for its own reasons, and a frame of a legal length is not refused for its length. -/
theorem refusalsAreTheClosedList : Obligations.RefusalsAreTheClosedList := by
  intro i s r hwf h
  cases i with
  | prepare sr mbs => exact .inl ⟨rfl, prepareOp_refused h⟩
  | reset => nomatch h
  | loadp => exact .inr (.inl ⟨rfl, loadpOp_refused h⟩)
  | step frame =>
    have hlen : frame.length = 1 ∨ frame.length = 2 := by simpa [Instr.wellFormed, frameOk] using hwf
    obtain ⟨lanes, hlanes⟩ := exists_lanesOfCount hlen
    refine .inr (.inr ⟨rfl, ?_⟩)
    rcases stepOp_refused h with ⟨hnone, -⟩ | ⟨-, hr⟩ | ⟨-, hr⟩ | ⟨-, hr⟩
    · rw [hlanes] at hnone
      nomatch hnone
    · exact .inl hr
    · exact .inr (.inl hr)
    · exact .inr (.inr hr)
  | _ => exact absurd h (exec_micro_ne_refused rfl)

/-! ### No faults in range (R280) -/

section faults
variable {i : Instr} {s : State} {f : Fault}

/-- In range a STEP that no check refuses completes (R283, R248). -/
theorem exec_step_ne_fault (hinv : rangeInv s) (frame : List F) : exec (.step frame) s ≠ .fault f := by
  intro h
  have hne {q : Refusal} : exec (.step frame) s ≠ .refused q := by
    rw [h]
    exact nofun
  obtain ⟨hlength, hprepared, hsnapshot, hsample⟩ := stepRefusals frame s
  have hlen : frame.length = 1 ∨ frame.length = 2 := by_contra fun hn => hne (hlength (not_or.mp hn))
  have hprep : s.cfg.prepared = true := by_contra fun hn => hne (hprepared hlen (Bool.eq_false_iff.mpr hn))
  have hvalid : s.P.valid = true := by_contra fun hn => hne (hsnapshot hlen hprep (Bool.eq_false_iff.mpr hn))
  have hfinite : ∀ x ∈ frame, f32Finite x = true := fun x hx =>
    by_contra fun hn => hne (hsample hlen ⟨hprep, hvalid⟩ ⟨x, hx, Bool.eq_false_iff.mpr hn⟩)
  obtain ⟨_, hnext, -⟩ := stepCompletes frame s hinv ⟨hprep, hvalid⟩ ⟨hlen, hfinite⟩
  nomatch h.symm.trans hnext

/-- In range no command faults: PREPARE and LOADP only ever complete or refuse, and RESET completes. -/
theorem exec_command_ne_fault (hi : i.isCommand = true) (hinv : rangeInv s) : exec i s ≠ .fault f := by
  cases i with
  | prepare sr mbs =>
    rw [exec_prepare, prepareOp]
    split <;> exact nofun
  | reset => exact nofun
  | loadp =>
    rw [exec_loadp, loadpOp]
    split <;> exact nofun
  | step frame => exact exec_step_ne_fault hinv frame
  | _ => nomatch hi

end faults

/-- Settles O47: in range no micro-operation is put alone, so a step runs a command, holds or refuses. -/
theorem noStepFaults : Obligations.NoStepFaults := by
  intro s f hinv h
  have hslots : s.slots = [] := hinv.1
  cases hd : decode s.hostIn with
  | command i rest =>
    obtain ⟨-, hcmd, -⟩ := decodedBytesAreTheEncoding _ _ _ hd
    rw [step_of_decode_command hslots hd] at h
    exact exec_command_ne_fault (s := setHostIn s rest) hcmd hinv h
  | incomplete => nomatch h.symm.trans (step_of_decode_incomplete hslots hd)
  | reserved cw => nomatch h.symm.trans (step_of_decode_reserved hslots hd)

/-! ### What READY rests on (R290, R313) -/

section ready
variable {i : Instr} {s t : State}

/-- PREPARE makes the block READY, and nothing else changes its mode (R42, R290). -/
theorem exec_prepared (h : exec i s = .next t) : t.cfg.prepared = (isPrepare i || s.cfg.prepared) := by
  cases hi : isPrepare i with
  | false => rw [exec_keeps_cfg h hi, Bool.false_or]
  | true =>
    cases i with
    | prepare sr mbs =>
      rw [exec_prepare, prepareOp_next] at h
      obtain ⟨-, rfl⟩ := h
      rfl
    | _ => nomatch hi

/-- LOADP loads a snapshot, and nothing else changes whether one is loaded (R41, R290). -/
theorem exec_valid (h : exec i s = .next t) : t.P.valid = (isLoadp i || s.P.valid) := by
  cases hi : isLoadp i with
  | false => rw [exec_keeps_P h hi, Bool.false_or]
  | true =>
    cases i with
    | loadp =>
      rw [exec_loadp, loadpOp_next] at h
      obtain ⟨-, rfl⟩ := h
      rfl
    | _ => nomatch hi

theorem exec_keeps_ready (h : exec i s = .next t) :
    (s.cfg.prepared = true → t.cfg.prepared = true) ∧ (s.P.valid = true → t.P.valid = true) := by
  rw [exec_prepared h, exec_valid h, Bool.or_eq_true, Bool.or_eq_true]
  exact ⟨.inr, .inr⟩

/-- The value of a flag that some instructions set and no instruction clears, along a sequence of instructions. -/
theorem execAll_flag {flag : State → Bool} {sets : Instr → Bool}
    (hexec : ∀ {i : Instr} {s t : State}, exec i s = .next t → flag t = (sets i || flag s))
    {cs : List Instr} (h : execAll cs s = .next t) : flag t = (cs.any sets || flag s) := by
  induction cs generalizing s with
  | nil =>
    cases h
    rfl
  | cons i cs ih =>
    rw [execAll_cons, andThen_next] at h
    obtain ⟨u, hi, hcs⟩ := h
    rw [ih hcs, hexec hi, List.any_cons, Bool.or_left_comm, Bool.or_assoc]

theorem execAll_prepared {cs : List Instr} (h : execAll cs s = .next t) :
    t.cfg.prepared = (cs.any isPrepare || s.cfg.prepared) :=
  execAll_flag (flag := (·.cfg.prepared)) exec_prepared h

theorem execAll_valid {cs : List Instr} (h : execAll cs s = .next t) :
    t.P.valid = (cs.any isLoadp || s.P.valid) :=
  execAll_flag (flag := (·.P.valid)) exec_valid h

end ready

/-- Settles O48: an idle step changes nothing, and no instruction takes the block from READY or drops its snapshot. -/
theorem readinessIsNeverLost : Obligations.ReadinessIsNeverLost := by
  intro s t h
  rcases step_next h with ⟨_, ids, i, -, -, hexec⟩ | ⟨-, -, rfl⟩ | ⟨i, rest, -, -, hexec⟩
  · exact exec_keeps_ready (s := setSlots s ids) hexec
  · exact ⟨id, id⟩
  · exact exec_keeps_ready (s := setHostIn s rest) hexec

/-- Settles O49: a STEP completes on a READY block with a snapshot only, and at power-on the block has neither. -/
theorem noStepBeforePrepareAndLoadp : Obligations.NoStepBeforePrepareAndLoadp := by
  intro cs frame s t hrun hstep
  rw [exec_step, stepOp_next] at hstep
  obtain ⟨_, _, -, hprep, hvalid, -, -, -⟩ := hstep
  obtain ⟨-, hprep0, hvalid0, -⟩ := powerOnValues
  rw [execAll_prepared hrun, hprep0, Bool.or_false, List.any_eq_true] at hprep
  rw [execAll_valid hrun, hvalid0, Bool.or_false, List.any_eq_true] at hvalid
  exact ⟨hprep, hvalid⟩

end Sys2Proof.Claims
end
